-- ==== Sys2Proof/Word.lean ====
section
/-! DEFINITION. The word types of the block: the bytes of its streams, its 32-bit registers, its 64-bit positions. -/

namespace Sys2Proof

/-- A stream item's byte, a sample, a pixel byte (00_scope.md R7). -/
abbrev Byte := BitVec 8

/-- A 32-bit register, field or host register value (10_state.md R11, R16, R23). -/
abbrev Word := BitVec 32

/-- A 64-bit stream position (10_state.md R13). -/
abbrev DWord := BitVec 64

end Sys2Proof
end

