-- ==== Sys2Proof/Config.lean ====
section
/-! DEFINITION. The implementation parameters of 00_scope.md R6. The general-knowledge constants and the capacity are fields
of `Config`, which State carries unchanged, so that every claim is about every value of them; the two bus parameters that
the spec leaves without any value are opaque. -/

namespace Sys2Proof

/-- The parameters a claim may name (00_scope.md R6; 92_eei_decisions.md OPEN-1, OPEN-4; 93_implementation_defined.md U16). -/
structure Config where
  /-- `CRC_POLY`, the reflected polynomial. -/
  crcPoly : Word
  /-- `CRC_INIT`, the running register at the start of a record's type field. -/
  crcInit : Word
  /-- `CRC_XOROUT`, XORed onto the running register to give the checksum. -/
  crcXorout : Word
  /-- `TAG_END`, the type tag of the end-marker record. -/
  tagEnd : Word
  /-- `TAG_IDAT`, the type tag of an image-data record. -/
  tagIdat : Word
  /-- `PIX_BYTES_MAX`, the capacity of the pixel memory in bytes; `none` is unbounded. -/
  pixBytesMax : Option Nat
  deriving DecidableEq, Repr

/-- The values of R6's table. PRESUMED (log 1): the spec marks the first five general knowledge, not in its source;
DESIGN CHOICE of the spec for the last, "default unbounded" (log 5). -/
def Config.default : Config where
  crcPoly := 0xEDB88320#32
  crcInit := 0xFFFFFFFF#32
  crcXorout := 0xFFFFFFFF#32
  tagEnd := 0x49454E44#32
  tagIdat := 0x49444154#32
  pixBytesMax := none

/-- `BPP`, bytes per pixel: the distance to neighbour `A` (R6; DPNG §4.5). -/
abbrev Config.bpp : Nat := 4

/-- `REG_BASE` (92_eei_decisions.md OPEN-2): the spec gives no value (log 6). -/
opaque Config.regBase : Nat

/-- `REG_STRIDE` (92_eei_decisions.md OPEN-2): the spec gives no value (log 6). -/
opaque Config.regStride : Nat

/-- The bus address of a register index, `REG_BASE + index * REG_STRIDE` (10_state.md R23). The host primitives of
42_host_commands.md R150 name a register by its index, so no rule reads it. -/
def Config.busAddress (index : Nat) : Nat := Config.regBase + index * Config.regStride

end Sys2Proof
end

