-- ==== Sys2Proof/Syntax.lean ====
section
/-! DEFINITION. The operations of opcode_table.json (one constructor a row), the encoded forms the units decode them from,
and the two wire formats as data: a whole record (30_encoding.md R61) and a whole scanline (R66). -/

namespace Sys2Proof

/-- The 14 operations of opcode_table.json. -/
inductive Instr where
  /-- `REC.END` (40_crc32_verifier.md R101). -/
  | recEnd
  /-- `REC.IDAT` (R100). -/
  | recIdat
  /-- `REC.OTHER` (R99), with its type tag, which is any value but the two reserved ones. -/
  | recOther (tag : Word)
  /-- `FLT.NONE` (41_filter_reconstructor.md R124) on the sample byte `x`. -/
  | fltNone (x : Byte)
  /-- `FLT.SUB` (R125). -/
  | fltSub (x : Byte)
  /-- `FLT.UP` (R126). -/
  | fltUp (x : Byte)
  /-- `FLT.AVG` (R127). -/
  | fltAvg (x : Byte)
  /-- `FLT.PAETH` (R128). -/
  | fltPaeth (x : Byte)
  /-- `CRCV.CLEAR` (42_host_commands.md R152). -/
  | crcvClear
  /-- `CRCV.START` (R151). -/
  | crcvStart
  /-- `RECON.CLEAR` (R154). -/
  | reconClear
  /-- `RECON.START` (R153). -/
  | reconStart
  /-- `CFG.WIDTH` (R155). -/
  | cfgWidth (v : Word)
  /-- `CFG.HEIGHT` (R155). -/
  | cfgHeight (v : Word)
  deriving DecidableEq, Repr

/-- What a unit has before it when it decodes an operation, by format (30_encoding.md R60): a verified record's type
field, the filter byte `F` with one sample byte, or a host write of `v` to a register index. -/
inductive Encoded where
  | record (tag : Word)
  | row (f x : Byte)
  | command (index : Nat) (v : Word)
  deriving DecidableEq, Repr

/-- The three formats of 30_encoding.md R60. -/
inductive Format where
  | record | row | command
  deriving DecidableEq, Repr

/-- The five filter types of 30_encoding.md R67. -/
inductive FilterType where
  | none | sub | up | avg | paeth
  deriving DecidableEq, Repr

/-- One record of the wire format, all four fields; its length field is the payload's length (30_encoding.md R61). -/
structure Record where
  tag : Word
  payload : List Byte
  checksum : Word
  deriving DecidableEq, Repr

/-- One scanline of the raw stream (30_encoding.md R66). -/
structure Row where
  filter : FilterType
  samples : List Byte
  deriving DecidableEq, Repr

end Sys2Proof
end

