-- ==== Sys2Proof/WellFormed.lean ====
section
/-! DEFINITION. Which operations, records and scanlines the encodings of 30_encoding.md can express. -/

namespace Sys2Proof

/-- An operation has an encoding of its own (30_encoding.md R64): a `REC.OTHER` tag is neither reserved tag, and
`REC.IDAT` exists only if its tag is not also the end-marker's, which R64 tries first. -/
def Instr.wf (cfg : Config) : Instr → Bool
  | .recEnd => true
  | .recIdat => cfg.tagIdat != cfg.tagEnd
  | .recOther tag => tag != cfg.tagEnd && tag != cfg.tagIdat
  | .fltNone _ => true
  | .fltSub _ => true
  | .fltUp _ => true
  | .fltAvg _ => true
  | .fltPaeth _ => true
  | .crcvClear => true
  | .crcvStart => true
  | .reconClear => true
  | .reconStart => true
  | .cfgWidth _ => true
  | .cfgHeight _ => true

/-- The payload's length fits the 32-bit length field (30_encoding.md R63). -/
def Record.wf (r : Record) : Bool := r.payload.length < 2 ^ 32

/-- A scanline holds exactly `STRIDE = 4 * WIDTH` samples (30_encoding.md R66). -/
def Row.wf (width : Word) (r : Row) : Bool := r.samples.length == Config.bpp * width.toNat

end Sys2Proof
end

