-- ==== Sys2Proof/Decode.lean ====
section
/-! DEFINITION. Decoding and encoding, from 30_encoding.md: the byte-order helpers (R62), the opcode maps (R64, R67, R71),
the framing of a whole record and a whole scanline (R61, R63, R66), the opcode table as data, and the encoders. -/

namespace Sys2Proof

/-! ### Byte order -/

/-- One more byte of a big-endian field: `((field << 8) | b)[31:0]` (30_encoding.md R62). -/
def shiftIn (field : Word) (b : Byte) : Word := (field <<< 8) ||| b.setWidth 32

/-- The value of a 4-byte field whose bytes arrive as `b0, b1, b2, b3` (30_encoding.md R62). -/
def be32 (b0 b1 b2 b3 : Byte) : Word :=
  (b0.setWidth 32 <<< 24) ||| (b1.setWidth 32 <<< 16) ||| (b2.setWidth 32 <<< 8) ||| b3.setWidth 32

/-- The four bytes of a 32-bit field in stream order, the most significant first (20_memory.md R43). -/
def bytesOfWord (w : Word) : List Byte :=
  [(w >>> 24).setWidth 8, (w >>> 16).setWidth 8, (w >>> 8).setWidth 8, w.setWidth 8]

/-! ### Decoding one operation -/

/-- Why an encoded form is no operation. -/
inductive DecodeError where
  /-- A filter byte above 4 (30_encoding.md R68 a). -/
  | unknownFilterType (f : Byte)
  /-- A `CTRL` write with `v[1:0] = 0` (30_encoding.md R71). -/
  | noOperation (index : Nat)
  /-- A write to a read-only register (10_state.md R23). -/
  | readOnlyRegister (index : Nat)
  /-- A write to a reserved register index (10_state.md R23). -/
  | reservedRegister (index : Nat)
  deriving DecidableEq, Repr

/-- The opcode map of format `ROW` (30_encoding.md R67); `none` is an illegal filter byte (R68 a). -/
def decodeFilter (f : Byte) : Option FilterType :=
  if f = 0x00#8 then some .none
  else if f = 0x01#8 then some .sub
  else if f = 0x02#8 then some .up
  else if f = 0x03#8 then some .avg
  else if f = 0x04#8 then some .paeth
  else none

/-- The operation of a filter type on one sample byte (30_encoding.md R67). -/
def filterInstr (x : Byte) : FilterType → Instr
  | .none => .fltNone x
  | .sub => .fltSub x
  | .up => .fltUp x
  | .avg => .fltAvg x
  | .paeth => .fltPaeth x

/-- The opcode map of format `REC`, in R64's order: all 32 bits of the tag, the end-marker first. -/
def decodeTag (cfg : Config) (tag : Word) : Instr :=
  if tag = cfg.tagEnd then .recEnd
  else if tag = cfg.tagIdat then .recIdat
  else .recOther tag

/-- `v[1] = 1` selects `CLEAR`, else `v[0] = 1` selects `START` (10_state.md R24, 30_encoding.md R71). -/
def decodeCtrl (clear start : Instr) (index : Nat) (v : Word) : Except DecodeError Instr :=
  if v.getLsbD 1 then .ok clear
  else if v.getLsbD 0 then .ok start
  else .error (.noOperation index)

/-- The register indices that may be read but not written (10_state.md R23, access `R`). -/
def readOnlyIndex (index : Nat) : Bool :=
  (0x01 ≤ index && index ≤ 0x0E) || (0x11 ≤ index && index ≤ 0x13) || (0x16 ≤ index && index ≤ 0x19)

/-- The opcode map of format `CMD` (30_encoding.md R71). -/
def decodeCmd (index : Nat) (v : Word) : Except DecodeError Instr :=
  if index = 0x00 then decodeCtrl .crcvClear .crcvStart index v
  else if index = 0x10 then decodeCtrl .reconClear .reconStart index v
  else if index = 0x14 then .ok (.cfgWidth v)
  else if index = 0x15 then .ok (.cfgHeight v)
  else if readOnlyIndex index then .error (.readOnlyRegister index)
  else .error (.reservedRegister index)

/-- The decoder, total on every encoded form of the three formats (30_encoding.md R60). -/
def decode (cfg : Config) : Encoded → Except DecodeError Instr
  | .record tag => .ok (decodeTag cfg tag)
  | .row f x =>
    match decodeFilter f with
    | some t => .ok (filterInstr x t)
    | none => .error (.unknownFilterType f)
  | .command index v => decodeCmd index v

/-! ### Framing whole records and scanlines -/

/-- Why a byte sequence does not begin with a whole record or scanline. -/
inductive FramingError where
  /-- Fewer bytes than a field requires (30_encoding.md R69). -/
  | truncated
  /-- A filter byte above 4 (30_encoding.md R68 a). -/
  | unknownFilterType (f : Byte)
  deriving DecidableEq, Repr

/-- The record at the head of a byte sequence, and the bytes after it (30_encoding.md R61, R63). The checksum is read,
not verified: that is 40_crc32_verifier.md R98. -/
def parseRecord : List Byte → Except FramingError (Record × List Byte)
  | l0 :: l1 :: l2 :: l3 :: t0 :: t1 :: t2 :: t3 :: rest =>
    let n := (be32 l0 l1 l2 l3).toNat
    match rest.drop n with
    | c0 :: c1 :: c2 :: c3 :: rest' =>
      .ok ({ tag := be32 t0 t1 t2 t3, payload := rest.take n, checksum := be32 c0 c1 c2 c3 }, rest')
    | _ => .error .truncated
  | _ => .error .truncated

/-- The scanline at the head of a byte sequence, for a configured width (30_encoding.md R66, R70). -/
def parseRow (width : Word) : List Byte → Except FramingError (Row × List Byte)
  | [] => .error .truncated
  | f :: rest =>
    match decodeFilter f with
    | none => .error (.unknownFilterType f)
    | some t =>
      let n := Config.bpp * width.toNat
      if rest.length < n then .error .truncated
      else .ok ({ filter := t, samples := rest.take n }, rest.drop n)

/-! ### Encoding -/

/-- The filter byte of a filter type (30_encoding.md R67). -/
def encodeFilter : FilterType → Byte
  | .none => 0x00#8
  | .sub => 0x01#8
  | .up => 0x02#8
  | .avg => 0x03#8
  | .paeth => 0x04#8

/-- The encoded form of an operation: R64's tags, R67's filter bytes, R71's register indices with the written values
`0x1` and `0x2` of R72. -/
def encode (cfg : Config) : Instr → Encoded
  | .recEnd => .record cfg.tagEnd
  | .recIdat => .record cfg.tagIdat
  | .recOther tag => .record tag
  | .fltNone x => .row (encodeFilter .none) x
  | .fltSub x => .row (encodeFilter .sub) x
  | .fltUp x => .row (encodeFilter .up) x
  | .fltAvg x => .row (encodeFilter .avg) x
  | .fltPaeth x => .row (encodeFilter .paeth) x
  | .crcvClear => .command 0x00 0x00000002#32
  | .crcvStart => .command 0x00 0x00000001#32
  | .reconClear => .command 0x10 0x00000002#32
  | .reconStart => .command 0x10 0x00000001#32
  | .cfgWidth v => .command 0x14 v
  | .cfgHeight v => .command 0x15 v

/-- The bytes of a record on the wire, `12 + L` of them (30_encoding.md R61). -/
def encodeRecord (r : Record) : List Byte :=
  bytesOfWord (BitVec.ofNat 32 r.payload.length) ++ bytesOfWord r.tag ++ r.payload ++ bytesOfWord r.checksum

/-- The bytes of a scanline, `1 + STRIDE` of them (30_encoding.md R66). -/
def encodeRow (r : Row) : List Byte := encodeFilter r.filter :: r.samples

/-! ### The opcode table as data -/

/-- One row of opcode_table.json: its format, the register index of a `CMD` row, and the mask and match of its opcode
field. -/
structure OpcodeRow where
  mnemonic : String
  format : Format
  index : Option Nat
  mask : Word
  pattern : Word
  deriving DecidableEq, Repr

/-- The row of opcode_table.json that an operation stands for; the match of the two reserved tags is the parameter's. -/
def opcodeRow (cfg : Config) : Instr → OpcodeRow
  | .recEnd => ⟨"REC.END", .record, none, 0xFFFFFFFF#32, cfg.tagEnd⟩
  | .recIdat => ⟨"REC.IDAT", .record, none, 0xFFFFFFFF#32, cfg.tagIdat⟩
  | .recOther _ => ⟨"REC.OTHER", .record, none, 0#32, 0#32⟩
  | .fltNone _ => ⟨"FLT.NONE", .row, none, 0xFF#32, 0x00#32⟩
  | .fltSub _ => ⟨"FLT.SUB", .row, none, 0xFF#32, 0x01#32⟩
  | .fltUp _ => ⟨"FLT.UP", .row, none, 0xFF#32, 0x02#32⟩
  | .fltAvg _ => ⟨"FLT.AVG", .row, none, 0xFF#32, 0x03#32⟩
  | .fltPaeth _ => ⟨"FLT.PAETH", .row, none, 0xFF#32, 0x04#32⟩
  | .crcvClear => ⟨"CRCV.CLEAR", .command, some 0x00, 0x2#32, 0x2#32⟩
  | .crcvStart => ⟨"CRCV.START", .command, some 0x00, 0x3#32, 0x1#32⟩
  | .reconClear => ⟨"RECON.CLEAR", .command, some 0x10, 0x2#32, 0x2#32⟩
  | .reconStart => ⟨"RECON.START", .command, some 0x10, 0x3#32, 0x1#32⟩
  | .cfgWidth _ => ⟨"CFG.WIDTH", .command, some 0x14, 0#32, 0#32⟩
  | .cfgHeight _ => ⟨"CFG.HEIGHT", .command, some 0x15, 0#32, 0#32⟩

/-- An encoded form has the format, the register index and the opcode bits of a row. -/
def OpcodeRow.fits (row : OpcodeRow) : Encoded → Bool
  | .record tag => row.format == .record && tag &&& row.mask == row.pattern
  | .row f _ => row.format == .row && f.setWidth 32 &&& row.mask == row.pattern
  | .command index v => row.format == .command && row.index == some index && v &&& row.mask == row.pattern

/-! ### The host's table words -/

/-- What a 32-bit word of the table is taken as. DESIGN CHOICE (log 11): rows of format `REC` and of format `CMD` are both
32 bits wide and the word carries neither the format nor the register index, so a word whose only bits are the two
command bits of a `CTRL` write is a write to register index 0, and every other word is a record's type tag. -/
def tableEncoded (w : Word) : Encoded :=
  if w != 0#32 && w >>> 2 == 0#32 then .command 0x00 w else .record w

/-- The operation the decoder reads from a table word: 8 bits are a filter byte (its sample byte, above the table's bits,
is 0), 32 bits are as `tableEncoded` says. -/
def decodeTableWord (nbits w : Nat) : Option Instr :=
  if nbits = 8 ∧ w < 2 ^ 8 then (decode Config.default (.row (BitVec.ofNat 8 w) 0#8)).toOption
  else if nbits = 32 ∧ w < 2 ^ 32 then (decode Config.default (tableEncoded (BitVec.ofNat 32 w))).toOption
  else none

end Sys2Proof
end

