-- ==== Sys2Proof/Machine/Crc.lean ====
section
/-! DEFINITION. The CRC-32 functions of 40_crc32_verifier.md, section 1, over the three constants of the configuration. -/

namespace Sys2Proof.Machine

/-- One turn of the loop of R90: shift right, and XOR the polynomial in if the bit shifted out was 1. -/
def crcShift (poly c : Word) : Word := if c.getLsbD 0 then poly ^^^ (c >>> 1) else c >>> 1

/-- `n` turns of that loop. -/
def crcShifts (poly : Word) : Nat → Word → Word
  | 0, c => c
  | n + 1, c => crcShifts poly n (crcShift poly c)

/-- `CRCTAB[n]`, by the generation rule of R90; 10_state.md R21 allows computing an entry instead of storing it. -/
def crcTabEntry (cfg : Config) (n : Byte) : Word := crcShifts cfg.crcPoly 8 (n.setWidth 32)

/-- `crc_update(c, b)` (R91). -/
def crcUpdate (cfg : Config) (c : Word) (b : Byte) : Word :=
  crcTabEntry cfg ((c ^^^ b.setWidth 32).setWidth 8) ^^^ (c >>> 8)

/-- The bit-serial form of R112. -/
def crcUpdateSerial (cfg : Config) (c : Word) (b : Byte) : Word :=
  crcShifts cfg.crcPoly 8 (c ^^^ b.setWidth 32)

/-- The running register after a byte sequence (the loop of R92). -/
def crcRun (cfg : Config) : Word → List Byte → Word
  | c, [] => c
  | c, b :: bs => crcRun cfg (crcUpdate cfg c b) bs

/-- `crc32(m)` (R92). -/
def crc32 (cfg : Config) (m : List Byte) : Word := crcRun cfg cfg.crcInit m ^^^ cfg.crcXorout

/-- The checksum a record must carry: `crc32(type tag ‖ payload)` (R105). -/
def recordChecksum (cfg : Config) (tag : Word) (payload : List Byte) : Word :=
  crc32 cfg (bytesOfWord tag ++ payload)

end Sys2Proof.Machine
end

