-- ==== Sys2Proof/Machine/State.lean ====
section
/-! DEFINITION. The state of the block and of its two input ports, as plain data, and the state after reset
(10_state.md). What no rule of the spec gives a register is marked MODEL with its log entry. -/

namespace Sys2Proof.Machine

/-! ### Unit CRCV -/

/-- `CRCV.PHASE` (10_state.md R12): the seven values in use; value 7 is never taken (93_implementation_defined.md U8). -/
inductive CrcvPhase where
  | idle | len | type | data | crc | done | fault
  deriving DecidableEq, Repr

/-- One entry of `REC_OUT` (10_state.md R15). -/
structure Descriptor where
  type : Word
  length : Word
  paypos : DWord
  checksum : Word
  deriving DecidableEq, Repr

/-- The registers of unit CRCV (10_state.md R11 to R15). -/
structure Crcv where
  phase : CrcvPhase
  k : BitVec 2
  len : Word
  rem : Word
  type : Word
  crc : Word
  stored : Word
  /-- Register `CALC`. -/
  computed : Word
  nrec : Word
  nidat : Word
  pos : DWord
  paypos : DWord
  err : BitVec 4
  /-- `REC_OUT`, in stream order, the first record's descriptor first. -/
  recOut : List Descriptor
  deriving DecidableEq, Repr

/-- Every CRCV register 0, `PHASE = IDLE`, `REC_OUT` empty (10_state.md R36). -/
def Crcv.reset : Crcv where
  phase := .idle
  k := 0#2
  len := 0#32
  rem := 0#32
  type := 0#32
  crc := 0#32
  stored := 0#32
  computed := 0#32
  nrec := 0#32
  nidat := 0#32
  pos := 0#64
  paypos := 0#64
  err := 0#4
  recOut := []

/-! ### Unit RECON -/

/-- `RECON.PHASE` (10_state.md R17): the five values in use. -/
inductive ReconPhase where
  | idle | ftype | data | done | fault
  deriving DecidableEq, Repr

/-- The registers of unit RECON (10_state.md R16, R17). -/
structure Recon where
  phase : ReconPhase
  width : Word
  height : Word
  row : Word
  col : BitVec 34
  f : Byte
  err : BitVec 4
  errInfo : Byte
  deriving DecidableEq, Repr

/-- Every RECON register 0, `PHASE = IDLE` (10_state.md R36). -/
def Recon.reset : Recon where
  phase := .idle
  width := 0#32
  height := 0#32
  row := 0#32
  col := 0#34
  f := 0#8
  err := 0#4
  errInfo := 0#8

/-- The pixel memory `PIX` (10_state.md R20) as address and byte pairs, addresses strictly rising. An unlisted address
has no value (log 4). -/
abbrev Memory := List Host.Cell

/-! ### The ports and the moves of the three agents -/

/-- The two units. -/
inductive UnitId where
  | crcv | recon
  deriving DecidableEq, Repr

/-- An item of an input port (00_scope.md R9). -/
inductive Item where
  | byte (b : Byte)
  | eos
  deriving DecidableEq, Repr

/-- MODEL (log 3): where a port stands with the rule that ends a stream (42_host_commands.md R158): no `EOS` has been pushed
since the port last took items anew; one has; or one has, and its unit has been `CLEAR`ed or reset since. -/
inductive PushGate where
  | accepting | shut | cleared
  deriving DecidableEq, Repr

/-- An input port: the items not yet consumed, head first (00_scope.md R9), and MODEL (log 3) its gate. -/
structure Port where
  items : List Item
  gate : PushGate
  deriving DecidableEq, Repr

/-- A port on which nothing has been pushed. -/
def Port.empty : Port := { items := [], gate := .accepting }

/-- What the host can do to the block: the primitives of 42_host_commands.md R150, emptying a port
(70_reset_and_hazards.md R206) and the reset input (R200). -/
inductive HostOp where
  | write (index : Nat) (v : Word)
  | read (index : Nat)
  | pixRead (addr : Nat)
  | push (u : UnitId) (item : Item)
  | drain (u : UnitId)
  | reset
  deriving DecidableEq, Repr

/-- One move of one agent: a step of a unit, or one host primitive. -/
inductive Move where
  | crcv
  | recon
  | host (op : HostOp)
  deriving DecidableEq, Repr

/-- A value the block returned to the host (42_host_commands.md R156, R157). -/
inductive Observation where
  | reg (index : Nat) (v : Word)
  | pix (addr : Nat) (b : Byte)
  deriving DecidableEq, Repr

/-! ### The whole state -/

/-- The block's state (10_state.md R10), its parameters (00_scope.md R6), and the run parameters of 10_state.md R38. -/
structure State where
  /-- The parameters; no step changes them. -/
  cfg : Config
  crcv : Crcv
  recon : Recon
  pix : Memory
  /-- `CRCV.IN`. -/
  crcvIn : Port
  /-- `RECON.IN`. -/
  reconIn : Port
  /-- MODEL (log 2): the moves still to come, the next one first. -/
  agenda : List Move
  /-- MODEL (log 7): what the host has read, newest first. -/
  seen : List Observation
  deriving DecidableEq, Repr

/-- The state after reset (10_state.md R36, 70_reset_and_hazards.md R201): both units all zero, `PIX` with nothing listed,
both ports empty, and no move listed, so that nothing runs until the host acts. -/
def State.reset : State where
  cfg := Config.default
  crcv := Crcv.reset
  recon := Recon.reset
  pix := []
  crcvIn := Port.empty
  reconIn := Port.empty
  agenda := []
  seen := []

/-! ### How a step can stop -/

/-- The machine's stops. The three failures a unit raises itself (60_exceptions.md R170) are not among them: they are next
states, with `PHASE = FAULT`. No run from reset reaches any of these. -/
inductive Fault where
  /-- A `PIX` access outside 0 to `HEIGHT*STRIDE - 1`, which 20_memory.md R47 leaves undefined. Raised by a DATA step whose
  `ROW` or `COL` is out of range. Safe: the run stops. -/
  | pixOutOfRange (addr : Nat)
  /-- A `PIX` read of a byte nothing has written, which has no value (93_implementation_defined.md U4). Raised by a DATA
  step that reads a neighbour, and by a host `PixRead`. Safe: the run stops. -/
  | pixUnwritten (addr : Nat)
  /-- A DATA step with `F` above 4, which 41_filter_reconstructor.md R121 never leaves behind. Raised when the operation is
  decoded. Safe: the run stops. -/
  | dataPhaseFilter (f : Byte)
  deriving DecidableEq, Repr

/-- What the model gives no meaning to. -/
inductive Refusal where
  /-- An instruction whose arm of `exec` has no meaning yet. Raised by `exec` alone. Safe. -/
  | notModelled (mnemonic : String)
  /-- `RECON.START` taking effect with `WIDTH = 0` or `HEIGHT = 0`: 42_host_commands.md R153, "unspecified: the model
  refuses the run" (U1). Raised by `RECON.START`. Safe. -/
  | reconStartZeroDimension
  /-- `RECON.START` taking effect with an image over `PIX_BYTES_MAX`: R153, "the model refuses the run" (U2). Raised by
  `RECON.START`. Safe. -/
  | reconStartOverCapacity
  /-- `PixRead` while `RECON.PHASE` is not DONE: 42_host_commands.md R157, "refused" (U3). Raised by the host move. Safe. -/
  | pixReadNotDone (addr : Nat)
  /-- `PixRead` at `HEIGHT*STRIDE` or above: R157, "refused" (U3). Raised by the host move. Safe. -/
  | pixReadOutOfRange (addr : Nat)
  /-- An item pushed after `EOS`, before the unit has been `CLEAR`ed or reset and the port emptied: 42_host_commands.md R158,
  70_reset_and_hazards.md R211, "outside the spec (a model gives it no move)", 93_implementation_defined.md U5, "refuse".
  Raised by the host move. Safe. -/
  | pushAfterEos (u : UnitId)
  deriving DecidableEq, Repr

/-- The answer of a meaning. -/
abbrev Result := Host.Outcome State Fault Refusal

end Sys2Proof.Machine
end

