-- ==== Sys2Proof/Machine/Flags.lean ====
section
/-! DEFINITION. Everything derived from `PHASE`: its numeric value, the status flags (10_state.md R22), the level outputs
(R27) and the two `STATUS` registers (R25, R26). The block has no arithmetic condition codes. -/

namespace Sys2Proof.Machine

/-- The value of `CRCV.PHASE` (10_state.md R12). -/
def CrcvPhase.code : CrcvPhase → BitVec 3
  | .idle => 0#3
  | .len => 1#3
  | .type => 2#3
  | .data => 3#3
  | .crc => 4#3
  | .done => 5#3
  | .fault => 6#3

/-- The phases in which CRCV consumes input (10_state.md R12). -/
def CrcvPhase.consuming : CrcvPhase → Bool
  | .len | .type | .data | .crc => true
  | .idle | .done | .fault => false

/-- The value of `RECON.PHASE` (10_state.md R17). -/
def ReconPhase.code : ReconPhase → BitVec 3
  | .idle => 0#3
  | .ftype => 1#3
  | .data => 3#3
  | .done => 5#3
  | .fault => 6#3

/-- The phases in which RECON consumes input (10_state.md R17). -/
def ReconPhase.consuming : ReconPhase → Bool
  | .ftype | .data => true
  | .idle | .done | .fault => false

/-- `CRCV.BUSY` (10_state.md R22). -/
def Crcv.busy (u : Crcv) : Bool := u.phase.consuming

/-- `CRCV.DONE`, also `SEQ_OK` and the level output `crcv_done` (10_state.md R22, R27). -/
def Crcv.isDone (u : Crcv) : Bool := u.phase == .done

/-- `CRCV.FAULT`, also the level output `crcv_fault` (10_state.md R22, R27). -/
def Crcv.isFault (u : Crcv) : Bool := u.phase == .fault

/-- `RECON.BUSY` (10_state.md R22). -/
def Recon.busy (u : Recon) : Bool := u.phase.consuming

/-- `RECON.DONE`, also `PIX_VALID` and the level output `recon_done` (10_state.md R22, R27). -/
def Recon.isDone (u : Recon) : Bool := u.phase == .done

/-- `RECON.FAULT`, also the level output `recon_fault` (10_state.md R22, R27). -/
def Recon.isFault (u : Recon) : Bool := u.phase == .fault

/-- The four level outputs (10_state.md R27), in the order `crcv_done`, `crcv_fault`, `recon_done`, `recon_fault`. -/
def State.levelOutputs (s : State) : List Bool :=
  [s.crcv.isDone, s.crcv.isFault, s.recon.isDone, s.recon.isFault]

/-- The low six bits that the two `STATUS` registers share: `PHASE`, `BUSY`, `DONE`, `FAULT` (10_state.md R25, R26). -/
def statusBits (phase : BitVec 3) (busy done fault : Bool) : Word :=
  phase.setWidth 32 ||| ((BitVec.ofBool busy).setWidth 32 <<< 3) ||| ((BitVec.ofBool done).setWidth 32 <<< 4)
    ||| ((BitVec.ofBool fault).setWidth 32 <<< 5)

/-- `CRCV_STATUS` (10_state.md R25). -/
def Crcv.status (u : Crcv) : Word :=
  statusBits u.phase.code u.busy u.isDone u.isFault ||| (u.k.setWidth 32 <<< 6)

/-- `RECON_STATUS` (10_state.md R26). -/
def Recon.status (u : Recon) : Word := statusBits u.phase.code u.busy u.isDone u.isFault

end Sys2Proof.Machine
end

