-- ==== Sys2Proof/Machine/Ops.lean ====
section
/-! DEFINITION. The shared operations: reading and writing `PIX`, the two ports, reading the host register file, entering a
fault (60_exceptions.md R177) and, beside it, the one way out of it (R179). -/

namespace Sys2Proof.Machine

/-! ### The pixel memory as a list in canonical form -/

/-- The byte listed at an address; an unlisted address has no value (log 4). -/
def Memory.read : Memory → Nat → Option Byte
  | [], _ => none
  | (b, v) :: rest, a => if a = b then some v else Memory.read rest a

/-- `MemWrite(addr, 1, v)` (20_memory.md R42): replaces the byte at `addr`, and keeps the addresses strictly rising. -/
def Memory.write : Memory → Nat → Byte → Memory
  | [], a, v => [(a, v)]
  | (b, w) :: rest, a, v =>
    if a < b then (a, v) :: (b, w) :: rest
    else if a = b then (a, v) :: rest
    else (b, w) :: Memory.write rest a v

/-- Every listed address is above a bound, and the addresses rise strictly. -/
def Memory.risingFrom : Nat → Memory → Bool
  | _, [] => true
  | lo, (b, _) :: rest => lo ≤ b && Memory.risingFrom (b + 1) rest

/-- The canonical form. No entry can equal what an unlisted address reads as, since that is no value. -/
def Memory.wf (m : Memory) : Bool := Memory.risingFrom 0 m

/-! ### Writing the units' registers -/

/-- CRCV's registers replaced. -/
def State.setCrcv (s : State) (u : Crcv) : State := { s with crcv := u }

/-- RECON's registers replaced. -/
def State.setRecon (s : State) (u : Recon) : State := { s with recon := u }

/-! ### RECON's geometry and its accesses to `PIX` -/

/-- `STRIDE = 4 * WIDTH`, without wrap (10_state.md R19). -/
def Recon.stride (u : Recon) : Nat := Config.bpp * u.width.toNat

/-- `HEIGHT * STRIDE`, the number of `PIX` bytes of a run (20_memory.md R41). -/
def Recon.pixBytes (u : Recon) : Nat := u.height.toNat * u.stride

/-- `addr(r, c) = r * STRIDE + c`, over the integers (20_memory.md R41). -/
def Recon.addr (u : Recon) (r c : Nat) : Nat := r * u.stride + c

/-- `MemRead(addr, 1)` (20_memory.md R42, R47). -/
def State.pixLoad (s : State) (a : Nat) : Except Fault Byte :=
  if a < s.recon.pixBytes then
    match Memory.read s.pix a with
    | some b => .ok b
    | none => .error (.pixUnwritten a)
  else .error (.pixOutOfRange a)

/-- `MemWrite(addr, 1, v)` (20_memory.md R42, R47). -/
def State.pixStore (s : State) (a : Nat) (v : Byte) : Except Fault State :=
  if a < s.recon.pixBytes then .ok { s with pix := Memory.write s.pix a v }
  else .error (.pixOutOfRange a)

/-- The image does not fit the pixel memory: `HEIGHT * STRIDE > PIX_BYTES_MAX` (42_host_commands.md R153). -/
def State.overCapacity (s : State) : Bool :=
  match s.cfg.pixBytesMax with
  | none => false
  | some m => decide (m < s.recon.pixBytes)

/-! ### The input ports -/

/-- The port of a unit. -/
def State.port (s : State) : UnitId → Port
  | .crcv => s.crcvIn
  | .recon => s.reconIn

/-- The port of a unit replaced. -/
def State.setPort (s : State) (u : UnitId) (p : Port) : State :=
  match u with
  | .crcv => { s with crcvIn := p }
  | .recon => { s with reconIn := p }

/-- Consuming the head item removes it from the port (00_scope.md R9). -/
def State.popItem (s : State) (u : UnitId) : State :=
  s.setPort u { s.port u with items := (s.port u).items.tail }

/-- The port takes an item: no `EOS` has been pushed, or the unit has been `CLEAR`ed or reset since and the port emptied
(42_host_commands.md R158). After `EOS` nothing is added, so a port that was emptied is empty still; that it counts as
emptied whether the platform emptied it or the unit consumed its items is DEDUCED (log 3). -/
def Port.accepts (p : Port) : Bool :=
  match p.gate with
  | .accepting => true
  | .shut => false
  | .cleared => p.items.isEmpty

/-- The port with an item appended (R158). -/
def Port.push (p : Port) (item : Item) : Port :=
  { items := p.items ++ [item], gate := if item = .eos then .shut else .accepting }

/-- The port after its unit has been `CLEAR`ed or reset: the items stay (R152, R154), and half of what ends the ban of R158
has happened. -/
def Port.afterClear (p : Port) : Port :=
  { p with gate := if p.gate = .accepting then .accepting else .cleared }

/-- `Push(port, item)` (42_host_commands.md R158), in every phase. -/
def State.pushItem (s : State) (u : UnitId) (item : Item) : Except Refusal State :=
  if (s.port u).accepts then .ok (s.setPort u ((s.port u).push item)) else .error (.pushAfterEos u)

/-- The platform empties a port (70_reset_and_hazards.md R206). DESIGN CHOICE (log 18): in every phase of the unit; the spec
speaks of emptying between runs only. -/
def State.drainPort (s : State) (u : UnitId) : State :=
  s.setPort u { s.port u with items := [] }

/-! ### Entering a fault and leaving it -/

/-- The failure taxonomy (60_exceptions.md R170). -/
inductive Failure where
  | signatureMismatch | truncatedStream | checksumMismatch | missingHeader | malformedHeader | unsupportedFormat
  | noImageData | decompressionFailure | unknownFilterType
  deriving DecidableEq, Repr

/-- The codes of 60_exceptions.md R170; 0 means none. -/
def Failure.code : Failure → BitVec 4
  | .signatureMismatch => 1#4
  | .truncatedStream => 2#4
  | .checksumMismatch => 3#4
  | .missingHeader => 4#4
  | .malformedHeader => 5#4
  | .unsupportedFormat => 6#4
  | .noImageData => 7#4
  | .decompressionFailure => 8#4
  | .unknownFilterType => 9#4

/-- The faults the block can raise, each with its unit and its information (60_exceptions.md R171 to R174). -/
inductive UnitFault where
  | crcvTruncated
  | checksumMismatch (stored computed : Word)
  | reconTruncated
  | unknownFilterType (f : Byte)
  deriving DecidableEq, Repr

/-- The name a fault is reported under (60_exceptions.md R170). -/
def UnitFault.failure : UnitFault → Failure
  | .crcvTruncated => .truncatedStream
  | .checksumMismatch _ _ => .checksumMismatch
  | .reconTruncated => .truncatedStream
  | .unknownFilterType _ => .unknownFilterType

/-- Fault entry, `raise <Fault>(info)` (60_exceptions.md R177): the unit's `PHASE` becomes FAULT, its `ERR` the code, the
fault's information registers are written, and every other register stays. Nothing is saved and control goes nowhere. -/
def State.raise (s : State) (e : UnitFault) : State :=
  match e with
  | .crcvTruncated => s.setCrcv { s.crcv with phase := .fault, err := e.failure.code }
  | .checksumMismatch stored computed =>
    s.setCrcv { s.crcv with phase := .fault, err := e.failure.code, stored := stored, computed := computed }
  | .reconTruncated => s.setRecon { s.recon with phase := .fault, err := e.failure.code, errInfo := 0#8 }
  | .unknownFilterType f =>
    s.setRecon { s.recon with phase := .fault, err := e.failure.code, errInfo := f, f := f }

/-- `CLEAR` of CRCV, with reset the only way out of FAULT and DONE (60_exceptions.md R179; 42_host_commands.md R152). -/
def State.clearCrcv (s : State) : State :=
  { s with crcv := Crcv.reset, crcvIn := s.crcvIn.afterClear }

/-- `CLEAR` of RECON: `WIDTH` and `HEIGHT` keep their values (42_host_commands.md R154). -/
def State.clearRecon (s : State) : State :=
  { s with
    recon := { Recon.reset with width := s.recon.width, height := s.recon.height }
    reconIn := s.reconIn.afterClear }

/-- Reset (70_reset_and_hazards.md R200, R201): both units at once; the ports keep their items, and `PIX` is unspecified
after it, so no address has a value (log 4). -/
def State.resetUnits (s : State) : State :=
  { s with
    crcv := Crcv.reset, recon := Recon.reset, pix := []
    crcvIn := s.crcvIn.afterClear, reconIn := s.reconIn.afterClear }

/-! ### The host register file -/

/-- `HostRead(reg)` (10_state.md R23, 42_host_commands.md R156): every register of the file; `CTRL` registers are write-only
and read 0 (R24), reserved indices read 0. -/
def State.hostRead (s : State) (index : Nat) : Word :=
  match index with
  | 0x00 => 0#32
  | 0x01 => s.crcv.status
  | 0x02 => s.crcv.err.setWidth 32
  | 0x03 => s.crcv.stored
  | 0x04 => s.crcv.computed
  | 0x05 => s.crcv.len
  | 0x06 => s.crcv.type
  | 0x07 => s.crcv.nrec
  | 0x08 => s.crcv.nidat
  | 0x09 => s.crcv.pos.setWidth 32
  | 0x0A => (s.crcv.pos >>> 32).setWidth 32
  | 0x0B => s.crcv.rem
  | 0x0C => s.crcv.crc
  | 0x0D => s.crcv.paypos.setWidth 32
  | 0x0E => (s.crcv.paypos >>> 32).setWidth 32
  | 0x10 => 0#32
  | 0x11 => s.recon.status
  | 0x12 => s.recon.err.setWidth 32
  | 0x13 => s.recon.errInfo.setWidth 32
  | 0x14 => s.recon.width
  | 0x15 => s.recon.height
  | 0x16 => s.recon.row
  | 0x17 => s.recon.col.setWidth 32
  | 0x18 => (s.recon.col >>> 32).setWidth 32
  | 0x19 => s.recon.f.setWidth 32
  | _ => 0#32

end Sys2Proof.Machine
end

