-- ==== Sys2Proof/Machine/CrcVerifier.lean ====
section
/-! DEFINITION. Unit CRCV (40_crc32_verifier.md): the four phase steps, verification, and the three record operations
`REC.END`, `REC.IDAT`, `REC.OTHER`, which are performed in the step that consumes the last byte of a verified record. -/

namespace Sys2Proof.Machine

/-! ### The three operations -/

/-- The descriptor of the record just verified (10_state.md R15). -/
def Crcv.descriptor (u : Crcv) : Descriptor :=
  { type := u.type, length := u.len, paypos := u.paypos, checksum := u.stored }

/-- What the three operations share: `NREC` counts the record, its descriptor is emitted, and CRCV goes on in a phase
(R99 to R101). -/
def Crcv.complete (u : Crcv) (next : CrcvPhase) : Crcv :=
  { u with nrec := u.nrec + 1#32, recOut := u.recOut ++ [u.descriptor], phase := next }

/-- `REC.OTHER` (R99). Its tag is the content of register `TYPE`, from which the rule takes it (log 12). -/
def execRecOther (s : State) : Result := .next (s.setCrcv (s.crcv.complete .len))

/-- `REC.IDAT` (R100). -/
def execRecIdat (s : State) : Result :=
  .next (s.setCrcv { s.crcv.complete .len with nidat := s.crcv.nidat + 1#32 })

/-- `REC.END` (R101). -/
def execRecEnd (s : State) : Result := .next (s.setCrcv (s.crcv.complete .done))

/-! ### The phase steps -/

/-- Phase LEN (R94). -/
def lenByte (b : Byte) (s : State) : State :=
  let l := shiftIn s.crcv.len b
  if s.crcv.k.toNat < 3 then s.setCrcv { s.crcv with len := l, k := s.crcv.k + 1#2 }
  else s.setCrcv { s.crcv with len := l, k := 0#2, rem := l, crc := s.cfg.crcInit, phase := .type }

/-- Phase TYPE (R95). -/
def typeByte (b : Byte) (s : State) : State :=
  let t := shiftIn s.crcv.type b
  let c := crcUpdate s.cfg s.crcv.crc b
  if s.crcv.k.toNat < 3 then s.setCrcv { s.crcv with type := t, crc := c, k := s.crcv.k + 1#2 }
  else
    s.setCrcv { s.crcv with
      type := t, crc := c, k := 0#2, paypos := s.crcv.pos + 1#64,
      phase := if s.crcv.len = 0#32 then .crc else .data }

/-- Phase DATA (R96). -/
def dataByte (b : Byte) (s : State) : State :=
  let c := crcUpdate s.cfg s.crcv.crc b
  let m := s.crcv.rem - 1#32
  if m = 0#32 then s.setCrcv { s.crcv with crc := c, rem := m, phase := .crc, k := 0#2 }
  else s.setCrcv { s.crcv with crc := c, rem := m }

/-- `Verify(s)` (R98), with `STORED` already the whole field: the record's operation is next if the checksums agree, else
`ChecksumMismatch` is raised. -/
def verify (s : State) : State × Option Encoded :=
  let computed := s.crcv.crc ^^^ s.cfg.crcXorout
  let t := s.setCrcv { s.crcv with computed := computed }
  if computed = s.crcv.stored then (t, some (.record s.crcv.type))
  else (t.raise (.checksumMismatch s.crcv.stored computed), none)

/-- Phase CRC (R97). -/
def crcByte (b : Byte) (s : State) : State × Option Encoded :=
  let w := shiftIn s.crcv.stored b
  if s.crcv.k.toNat < 3 then (s.setCrcv { s.crcv with stored := w, k := s.crcv.k + 1#2 }, none)
  else verify (s.setCrcv { s.crcv with stored := w, k := 0#2 })

/-- Every step that consumes a byte advances `POS` by 1 modulo 2^64, whatever its outcome (R104). -/
def advancePos (s : State) : State := s.setCrcv { s.crcv with pos := s.crcv.pos + 1#64 }

/-- A step that consumes a byte: the rule of the current phase, and R104 (R93). -/
def crcvByte (b : Byte) (s : State) : State × Option Encoded :=
  match s.crcv.phase with
  | .len => (advancePos (lenByte b s), none)
  | .type => (advancePos (typeByte b s), none)
  | .data => (advancePos (dataByte b s), none)
  | .crc => (advancePos (crcByte b s).1, (crcByte b s).2)
  | .idle | .done | .fault => (s, none)

/-- CRCV has a step (R93). -/
def State.crcvReady (s : State) : Bool := s.crcv.phase.consuming && !s.crcvIn.items.isEmpty

/-- A move of CRCV (R93): the head item is consumed, a byte by the rule of the phase, `EOS` as `TruncatedStream` (R103).
The operation to perform, if the item completes one, is the second component. Without a step CRCV waits (00_scope.md R9). -/
def crcvFetch (s : State) : State × Option Encoded :=
  if s.crcv.phase.consuming then
    match s.crcvIn.items with
    | [] => (s, none)
    | .byte b :: _ => crcvByte b (s.popItem .crcv)
    | .eos :: _ => ((s.popItem .crcv).raise .crcvTruncated, none)
  else (s, none)

end Sys2Proof.Machine
end

