-- ==== Sys2Proof/Machine/Operands.lean ====
section
/-! DEFINITION. The operands of the five filter operations: the neighbours `A`, `B`, `C` of the current position
(41_filter_reconstructor.md R122), the predictors (R124 to R129) and the modulo-256 addition (R123). -/

namespace Sys2Proof.Machine

/-- `A`, the reconstructed byte four positions to the left, else 0 (R122). -/
def State.neighbourA (s : State) : Except Fault Byte :=
  if Config.bpp ≤ s.recon.col.toNat then
    s.pixLoad (s.recon.addr s.recon.row.toNat (s.recon.col.toNat - Config.bpp))
  else .ok 0#8

/-- `B`, the reconstructed byte above, else 0 (R122). -/
def State.neighbourB (s : State) : Except Fault Byte :=
  if 0 < s.recon.row.toNat then
    s.pixLoad (s.recon.addr (s.recon.row.toNat - 1) s.recon.col.toNat)
  else .ok 0#8

/-- `C`, the reconstructed byte above and four to the left, else 0 (R122). -/
def State.neighbourC (s : State) : Except Fault Byte :=
  if 0 < s.recon.row.toNat ∧ Config.bpp ≤ s.recon.col.toNat then
    s.pixLoad (s.recon.addr (s.recon.row.toNat - 1) (s.recon.col.toNat - Config.bpp))
  else .ok 0#8

/-- `v = (x + pred) mod 256` (R123, R130 b): the exact sum, its low 8 bits kept. -/
def addMod256 (x pred : Byte) : Byte := BitVec.ofNat 8 (x.toNat + pred.toNat)

/-- `floor((A + B) / 2)`, the sum exact (R127, R130 c; 90_conflicts.md C1). -/
def avgPredictor (a b : Byte) : Byte := BitVec.ofNat 8 ((a.toNat + b.toNat) / 2)

/-- `Paeth(a, b, c)` over signed integers (R129, R130 d): ties go toward `a`, then `b`. -/
def paeth (a b c : Byte) : Byte :=
  let p : Int := (a.toNat : Int) + b.toNat - c.toNat
  let pa := (p - a.toNat).natAbs
  let pb := (p - b.toNat).natAbs
  let pc := (p - c.toNat).natAbs
  if pa ≤ pb ∧ pa ≤ pc then a
  else if pb ≤ pc then b
  else c

/-- The predictor of a filter type on given neighbours (R124 to R128). -/
def predictor (a b c : Byte) : FilterType → Byte
  | .none => 0#8
  | .sub => a
  | .up => b
  | .avg => avgPredictor a b
  | .paeth => paeth a b c

end Sys2Proof.Machine
end

