-- ==== Sys2Proof/Machine/FilterReconstructor.lean ====
section
/-! DEFINITION. Unit RECON (41_filter_reconstructor.md): the FTYPE step, the write-back and sequencing that ends every DATA
step, and the five filter operations, each one DATA step on the consumed byte `x`. -/

namespace Sys2Proof.Machine

/-! ### Write-back and sequencing -/

/-- Row end and termination (R132). -/
def Recon.rowEnd (u : Recon) : Recon :=
  { u with
    col := 0#34, row := u.row + 1#32,
    phase := if u.row.toNat + 1 = u.height.toNat then .done else .ftype }

/-- The advance of R131: the next byte position, or the end of the row. -/
def Recon.advance (u : Recon) : Recon :=
  if u.col.toNat + 1 < u.stride then { u with col := u.col + 1#34 } else u.rowEnd

/-- Write and advance (R131). -/
def writeBack (v : Byte) (s : State) : Result :=
  match s.pixStore (s.recon.addr s.recon.row.toNat s.recon.col.toNat) v with
  | .ok t => .next (t.setRecon s.recon.advance)
  | .error e => .fault e

/-- A DATA step with its predictor at hand: `v = (x + pred) mod 256`, then write and advance (R123, R131). -/
def reconstruct (pred : Except Fault Byte) (x : Byte) (s : State) : Result :=
  match pred with
  | .ok p => writeBack (addMod256 x p) s
  | .error e => .fault e

/-! ### The five operations -/

/-- `FLT.NONE` (R124): reads no neighbour. -/
def execFltNone (x : Byte) (s : State) : Result := reconstruct (.ok 0#8) x s

/-- `FLT.SUB` (R125). -/
def execFltSub (x : Byte) (s : State) : Result := reconstruct s.neighbourA x s

/-- `FLT.UP` (R126). -/
def execFltUp (x : Byte) (s : State) : Result := reconstruct s.neighbourB x s

/-- `FLT.AVG` (R127). -/
def execFltAvg (x : Byte) (s : State) : Result :=
  reconstruct (do return avgPredictor (← s.neighbourA) (← s.neighbourB)) x s

/-- `FLT.PAETH` (R128). -/
def execFltPaeth (x : Byte) (s : State) : Result :=
  reconstruct (do return paeth (← s.neighbourA) (← s.neighbourB) (← s.neighbourC)) x s

/-! ### Stepping -/

/-- Phase FTYPE (R121). -/
def ftypeByte (b : Byte) (s : State) : State :=
  match decodeFilter b with
  | some _ => s.setRecon { s.recon with f := b, col := 0#34, phase := .data }
  | none => s.raise (.unknownFilterType b)

/-- RECON has a step (R120). -/
def State.reconReady (s : State) : Bool := s.recon.phase.consuming && !s.reconIn.items.isEmpty

/-- A step that consumes a byte (R120): in FTYPE the filter byte is taken; in DATA the operation that `F` selects is next,
on that byte. -/
def reconByte (b : Byte) (s : State) : State × Option Encoded :=
  match s.recon.phase with
  | .ftype => (ftypeByte b s, none)
  | .data => (s, some (.row s.recon.f b))
  | .idle | .done | .fault => (s, none)

/-- A move of RECON (R120): the head item is consumed; `EOS` is `TruncatedStream` (R133). Without a step RECON waits
(00_scope.md R9). -/
def reconFetch (s : State) : State × Option Encoded :=
  if s.recon.phase.consuming then
    match s.reconIn.items with
    | [] => (s, none)
    | .byte b :: _ => reconByte b (s.popItem .recon)
    | .eos :: _ => ((s.popItem .recon).raise .reconTruncated, none)
  else (s, none)

end Sys2Proof.Machine
end

