-- ==== Sys2Proof/Machine/HostCommands.lean ====
section
/-! DEFINITION. The host (42_host_commands.md): the six commands, which are register writes, and the other primitives of
R150. -/

namespace Sys2Proof.Machine

/-! ### The six commands -/

/-- `CRCV.START` (R151): from IDLE only; every register zeroed, `REC_OUT` emptied, the first length byte expected. -/
def execCrcvStart (s : State) : Result :=
  if s.crcv.phase = .idle then .next (s.setCrcv { Crcv.reset with phase := .len }) else .next s

/-- `CRCV.CLEAR` (R152): in every phase. -/
def execCrcvClear (s : State) : Result := .next s.clearCrcv

/-- `RECON.START` (R153): from IDLE only. A zero dimension and an image over capacity have no meaning (U1, U2; log 10). -/
def execReconStart (s : State) : Result :=
  if s.recon.phase ≠ .idle then .next s
  else if s.recon.width = 0#32 ∨ s.recon.height = 0#32 then .refused .reconStartZeroDimension
  else if s.overCapacity then .refused .reconStartOverCapacity
  else .next (s.setRecon { s.clearRecon.recon with phase := .ftype })

/-- `RECON.CLEAR` (R154): in every phase. -/
def execReconClear (s : State) : Result := .next s.clearRecon

/-- `CFG.WIDTH` (R155): from IDLE only. -/
def execCfgWidth (v : Word) (s : State) : Result :=
  if s.recon.phase = .idle then .next (s.setRecon { s.recon with width := v }) else .next s

/-- `CFG.HEIGHT` (R155): from IDLE only. -/
def execCfgHeight (v : Word) (s : State) : Result :=
  if s.recon.phase = .idle then .next (s.setRecon { s.recon with height := v }) else .next s

/-! ### The other primitives -/

/-- A value returned to the host is noted (log 7). -/
def State.observe (s : State) (o : Observation) : State := { s with seen := o :: s.seen }

/-- `PixRead(addr)` (R157): in DONE and in range only. -/
def pixReadMove (a : Nat) (s : State) : Result :=
  if s.recon.phase ≠ .done then .refused (.pixReadNotDone a)
  else if s.recon.pixBytes ≤ a then .refused (.pixReadOutOfRange a)
  else match s.pixLoad a with
    | .ok b => .next (s.observe (.pix a b))
    | .error e => .fault e

/-- `Push(port, item)` (R158). -/
def pushMove (u : UnitId) (item : Item) (s : State) : Result :=
  match s.pushItem u item with
  | .ok t => .next t
  | .error r => .refused r

/-- A primitive other than a register write; a write is an operation of format `CMD` and is decoded. -/
def hostMove (op : HostOp) (s : State) : Host.Outcome (State × Option Encoded) Fault Refusal :=
  let plain (r : Result) : Host.Outcome (State × Option Encoded) Fault Refusal :=
    match r with
    | .next t => .next (t, none)
    | .fault e => .fault e
    | .refused e => .refused e
  match op with
  | .write index v => .next (s, some (.command index v))
  | .read index => .next (s.observe (.reg index (s.hostRead index)), none)
  | .pixRead a => plain (pixReadMove a s)
  | .push u item => plain (pushMove u item s)
  | .drain u => .next (s.drainPort u, none)
  | .reset => .next (s.resetUnits, none)

end Sys2Proof.Machine
end

