-- ==== Sys2Proof/Machine/Fetch.lean ====
section
/-! DEFINITION. Which agent moves next, what its move does before an operation is decoded, and what becomes of an encoded
form that is no operation. -/

namespace Sys2Proof.Machine

/-- The next move (10_state.md R38; log 2): the head of the agenda; when nothing is listed, a unit that has a step takes it
(70_reset_and_hazards.md R212), CRCV before RECON. The units share no state, so that order shows in no result (R52). -/
def State.nextMove (s : State) : Option Move :=
  match s.agenda with
  | m :: _ => some m
  | [] => if s.crcvReady then some .crcv else if s.reconReady then some .recon else none

/-- The move is taken off the agenda. -/
def State.popMove (s : State) : State := { s with agenda := s.agenda.tail }

/-- What one move does up to the point where an operation is decoded: the next state, and the encoded operation that is
then performed in it, if there is one. -/
def fetch (s : State) : Host.Outcome (State × Option Encoded) Fault Refusal :=
  match s.nextMove with
  | none => .next (s, none)
  | some .crcv => .next (crcvFetch s.popMove)
  | some .recon => .next (reconFetch s.popMove)
  | some (.host op) => hostMove op s.popMove

/-- An encoded form that is no operation: a write to a reserved or read-only register, or of neither command bit, is
ignored (10_state.md R23, R24; 93_implementation_defined.md U10); a filter byte above 4 in phase DATA is a stop that no run
reaches (log 9). -/
def notAnOperation (e : DecodeError) (s : State) : Result :=
  match e with
  | .unknownFilterType f => .fault (.dataPhaseFilter f)
  | .noOperation _ => .next s
  | .readOnlyRegister _ => .next s
  | .reservedRegister _ => .next s

/-! ### Placing an operation where the next step runs it (log 13) -/

/-- The next move is a register write. -/
def State.placeCommand (s : State) (index : Nat) (v : Word) : State :=
  { s with agenda := .host (.write index v) :: s.agenda }

/-- CRCV is about to consume the last checksum byte of a record with this tag whose checksum agrees, and moves next. -/
def State.placeRecord (s : State) (tag : Word) : State :=
  let computed := s.crcv.crc ^^^ s.cfg.crcXorout
  { s with
    crcv := { s.crcv with phase := .crc, k := 3#2, type := tag, stored := computed >>> 8 }
    crcvIn := { s.crcvIn with items := .byte (computed.setWidth 8) :: s.crcvIn.items }
    agenda := .crcv :: s.agenda }

/-- RECON is at the first byte of a 1 by 1 image, in a row with this filter byte, about to consume `x`, and moves next. -/
def State.placeSample (s : State) (f x : Byte) : State :=
  { s with
    recon := { s.recon with phase := .data, width := 1#32, height := 1#32, row := 0#32, col := 0#34, f := f }
    reconIn := { s.reconIn with items := .byte x :: s.reconIn.items }
    agenda := .recon :: s.agenda }

/-- An encoded operation placed for the next step. -/
def State.place (s : State) : Encoded → State
  | .record tag => s.placeRecord tag
  | .row f x => s.placeSample f x
  | .command index v => s.placeCommand index v

/-- The encoded operation of a table word, as `decodeTableWord` reads it. -/
def wordEncoded (nbits w : Nat) : Encoded :=
  if nbits = 8 then .row (BitVec.ofNat 8 w) 0#8 else tableEncoded (BitVec.ofNat 32 w)

end Sys2Proof.Machine
end

