-- ==== Sys2Proof/Machine/Dispatch.lean ====
section
/-! DEFINITION. One arm per operation: the meaning it calls. -/

namespace Sys2Proof.Machine

def exec (i : Instr) (s : State) : Host.Outcome State Fault Refusal :=
  match i with
  | .recEnd => Sys2Proof.Machine.execRecEnd s
  | .recIdat => Sys2Proof.Machine.execRecIdat s
  | .recOther _ => Sys2Proof.Machine.execRecOther s
  | .fltNone x => Sys2Proof.Machine.execFltNone x s
  | .fltSub x => Sys2Proof.Machine.execFltSub x s
  | .fltUp x => Sys2Proof.Machine.execFltUp x s
  | .fltAvg x => Sys2Proof.Machine.execFltAvg x s
  | .fltPaeth x => Sys2Proof.Machine.execFltPaeth x s
  | .crcvClear => Sys2Proof.Machine.execCrcvClear s
  | .crcvStart => Sys2Proof.Machine.execCrcvStart s
  | .reconClear => Sys2Proof.Machine.execReconClear s
  | .reconStart => Sys2Proof.Machine.execReconStart s
  | .cfgWidth v => Sys2Proof.Machine.execCfgWidth v s
  | .cfgHeight v => Sys2Proof.Machine.execCfgHeight v s

end Sys2Proof.Machine
end

