-- ==== Sys2Proof/Machine/Step.lean ====
section
/-! DEFINITION. One step of the block: the next agent moves, and the operation its move completes, if any, is decoded and
performed in the same step (00_scope.md R5). -/

namespace Sys2Proof.Machine

/-- Decode an encoded operation and perform it. -/
def runEncoded (w : Encoded) (s : State) : Result :=
  match decode s.cfg w with
  | .ok i => exec i s
  | .error e => notAnOperation e s

/-- One move of one agent. -/
def step (s : State) : Host.Outcome State Fault Refusal :=
  match fetch s with
  | .next (t, some w) => runEncoded w t
  | .next (t, none) => .next t
  | .fault e => .fault e
  | .refused r => .refused r

/-- The state with a table word's operation placed where the very next step runs it (log 13). -/
def State.withFetchWord (s : State) (nbits w : Nat) : State := s.place (wordEncoded nbits w)

end Sys2Proof.Machine
end

