-- ==== Sys2Proof/Machine/Notation.lean ====
section
/-! DEFINITION. The textual notation of 30_encoding.md R72 and R73: what each line puts on a port, or writes to a register. -/

namespace Sys2Proof.Machine

/-- The lines of R72, and the pseudo-operations of R73. -/
inductive Line where
  /-- `REC "<tag>" <bytes> [crc=<digits>]`. -/
  | record (tag : Word) (payload : List Byte) (crc : Option Word)
  /-- `REC.IDAT <bytes>` (R73). -/
  | idat (payload : List Byte)
  /-- `REC.END`. -/
  | endMarker
  /-- `RAW <bytes>`. -/
  | raw (bytes : List Byte)
  /-- `FLT.NONE <bytes>` and the other four. -/
  | row (t : FilterType) (samples : List Byte)
  /-- `FLT.BYTE <f> <bytes>`. -/
  | rowByte (f : Byte) (samples : List Byte)
  /-- `EOS`. -/
  | eos
  /-- A host command or configuration write. -/
  | command (i : Instr)
  deriving DecidableEq, Repr

/-- The record of a tag and payload with its correct checksum (R73). -/
def checkedRecord (cfg : Config) (tag : Word) (payload : List Byte) : Record :=
  { tag := tag, payload := payload, checksum := recordChecksum cfg tag payload }

/-- The bytes as port items. -/
def byteItems (bs : List Byte) : List Item := bs.map .byte

/-- The items a line puts on a port (R72). -/
def Line.items (cfg : Config) : Line → List Item
  | .record tag payload none => byteItems (encodeRecord (checkedRecord cfg tag payload))
  | .record tag payload (some c) => byteItems (encodeRecord { tag := tag, payload := payload, checksum := c })
  | .idat payload => byteItems (encodeRecord (checkedRecord cfg cfg.tagIdat payload))
  | .endMarker => byteItems (encodeRecord (checkedRecord cfg cfg.tagEnd []))
  | .raw bytes => byteItems bytes
  | .row t samples => byteItems (encodeRow { filter := t, samples := samples })
  | .rowByte f samples => byteItems (f :: samples)
  | .eos => [.eos]
  | .command _ => []

/-- The host moves of a line: a stream line is pushed item by item on a unit's port, a command is the register write that
R72 gives it. -/
def Line.moves (cfg : Config) (u : UnitId) : Line → List Move
  | .command i =>
    match encode cfg i with
    | .command index v => [.host (.write index v)]
    | .record _ => []
    | .row _ _ => []
  | line => (line.items cfg).map fun item => .host (.push u item)

end Sys2Proof.Machine
end

