-- ==== Sys2Proof/Machine/Runs.lean ====
section
/-! DEFINITION. The two whole-run functions of the spec, `ChunkRead` (40_crc32_verifier.md R111) and `Reconstruct`
(41_filter_reconstructor.md R137), on plain byte lists. The step rules are normative; these say what a run of them comes
to. -/

namespace Sys2Proof.Machine

/-! ### CRCV -/

/-- What `ChunkRead` returns (R111). -/
inductive ChunkOutcome where
  | ok (out : List Descriptor) (nrec nidat pos : Nat)
  | truncated
  | mismatch (stored computed : Word)
  deriving DecidableEq, Repr

/-- The descriptor of a record whose first byte is at a stream offset (R111; 10_state.md R15). -/
def recordDescriptor (pos : Nat) (r : Record) : Descriptor :=
  { type := r.tag, length := BitVec.ofNat 32 r.payload.length, paypos := BitVec.ofNat 64 (pos + 8), checksum := r.checksum }

/-- The loop of R111 from a record boundary, at most `fuel` records. -/
def chunkReadFrom (cfg : Config) :
    (fuel : Nat) → (rest : List Byte) → (pos nrec nidat : Nat) → (out : List Descriptor) → ChunkOutcome
  | 0, _, _, _, _, _ => .truncated
  | fuel + 1, rest, pos, nrec, nidat, out =>
    match parseRecord rest with
    | .error _ => .truncated
    | .ok (r, rest') =>
      let computed := recordChecksum cfg r.tag r.payload
      if computed ≠ r.checksum then .mismatch r.checksum computed
      else
        let nidat' := if r.tag = cfg.tagIdat then nidat + 1 else nidat
        let out' := out ++ [recordDescriptor pos r]
        let pos' := pos + 12 + r.payload.length
        if r.tag = cfg.tagEnd then .ok out' (nrec + 1) nidat' pos'
        else chunkReadFrom cfg fuel rest' pos' (nrec + 1) nidat' out'

/-- `ChunkRead(S)` (R111): a record takes at least 12 bytes, so the stream's length bounds the records. -/
def chunkRead (cfg : Config) (stream : List Byte) : ChunkOutcome :=
  chunkReadFrom cfg (stream.length + 1) stream 0 0 0 []

/-! ### RECON -/

/-- What `Reconstruct` returns (R137): the image's bytes in row-major order with the bytes left over, or a failure. -/
inductive ReconOutcome where
  | ok (image : List Byte) (rest : List Byte)
  | truncated
  | unknownFilterType (f : Byte)
  deriving DecidableEq, Repr

/-- One reconstructed byte (R137) in the line-buffer form of R138: `prev` is the previous reconstructed row, empty above
row 0, and `cur` the reconstructed bytes of this row so far; a neighbour outside the image is 0. -/
def lineByte (t : FilterType) (prev cur : List Byte) (x : Byte) : Byte :=
  let c := cur.length
  let a := if Config.bpp ≤ c then cur.getD (c - Config.bpp) 0#8 else 0#8
  let b := prev.getD c 0#8
  let d := if Config.bpp ≤ c then prev.getD (c - Config.bpp) 0#8 else 0#8
  addMod256 x (predictor a b d t)

/-- The samples of one row: `n` more bytes after `cur`; `none` if the stream is short (R137). -/
def lineSamples (t : FilterType) (prev : List Byte) : Nat → List Byte → List Byte → Option (List Byte × List Byte)
  | 0, cur, z => some (cur, z)
  | _ + 1, _, [] => none
  | n + 1, cur, x :: z => lineSamples t prev n (cur ++ [lineByte t prev cur x]) z

/-- `rows` more rows after the image so far (R137). -/
def reconstructRows (stride : Nat) : Nat → (prev image z : List Byte) → ReconOutcome
  | 0, _, image, z => .ok image z
  | _ + 1, _, _, [] => .truncated
  | rows + 1, prev, image, f :: z =>
    match decodeFilter f with
    | none => .unknownFilterType f
    | some t =>
      match lineSamples t prev stride [] z with
      | none => .truncated
      | some (row, z') => reconstructRows stride rows row (image ++ row) z'

/-- `Reconstruct(WIDTH, HEIGHT, Z)` (R137). -/
def reconstructImage (width height : Word) (z : List Byte) : ReconOutcome :=
  reconstructRows (Config.bpp * width.toNat) height.toNat [] [] z

end Sys2Proof.Machine
end

