-- ==== Sys2Proof/Safety.lean ====
section
/-! DEFINITION. What a run's result is (40_crc32_verifier.md R110, 60_exceptions.md R178) and what holds of every state a run
from reset reaches: the invariant that rules out the machine's own stops. -/

namespace Sys2Proof.Machine

/-! ### Results -/

/-- The observable result of a CRCV run (R110). -/
inductive CrcvResult where
  | ok (records : List Descriptor) (nrec nidat : Word) (pos : DWord)
  | err (code : BitVec 4) (stored computed type len : Word) (pos : DWord)
  deriving DecidableEq, Repr

/-- The result at DONE or FAULT; nothing is exposed before, and the descriptors only at DONE (R110). -/
def State.crcvResult (s : State) : Option CrcvResult :=
  match s.crcv.phase with
  | .done => some (.ok s.crcv.recOut s.crcv.nrec s.crcv.nidat s.crcv.pos)
  | .fault => some (.err s.crcv.err s.crcv.stored s.crcv.computed s.crcv.type s.crcv.len s.crcv.pos)
  | .idle | .len | .type | .data | .crc => none

/-- The observable result of a RECON run: the image with its dimensions, or the fault and its information
(41_filter_reconstructor.md R132, 60_exceptions.md R178). -/
inductive ReconResult where
  | ok (image : List (Option Byte)) (width height : Word) (stride : Nat)
  | err (code : BitVec 4) (errInfo : Byte) (row : Word) (col : BitVec 34)
  deriving DecidableEq, Repr

/-- The result at DONE or FAULT; no pixel is exposed but at DONE (20_memory.md R49). -/
def State.reconResult (s : State) : Option ReconResult :=
  match s.recon.phase with
  | .done =>
    some (.ok ((List.range s.recon.pixBytes).map (Memory.read s.pix)) s.recon.width s.recon.height s.recon.stride)
  | .fault => some (.err s.recon.err s.recon.errInfo s.recon.row s.recon.col)
  | .idle | .ftype | .data => none

/-! ### The invariant -/

/-- CRCV's registers in a reachable state. -/
structure Crcv.Inv (cfg : Config) (u : Crcv) : Prop where
  /-- IDLE is left by START only and entered by reset and CLEAR (10_state.md R36; 42_host_commands.md R152). -/
  idle_is_reset : u.phase = .idle → u = Crcv.reset
  /-- 10_state.md R14. -/
  k_zero : u.phase = .data ∨ u.phase = .done → u.k = 0#2
  /-- 40_crc32_verifier.md R94. -/
  type_rem : u.phase = .type → u.rem = u.len
  /-- `PHASE = DATA` implies `REM ≥ 1` (R96). -/
  data_rem : u.phase = .data → u.rem ≠ 0#32
  /-- R95, R96. -/
  crc_rem : u.phase = .crc → u.rem = 0#32
  /-- 60_exceptions.md R170, R177. -/
  err_none : u.phase ≠ .fault → u.err = 0#4
  /-- 60_exceptions.md R171, R172; 10_state.md R14. -/
  err_fault : u.phase = .fault → u.err = 2#4 ∨ (u.err = 3#4 ∧ u.k = 0#2 ∧ u.stored ≠ u.computed)
  /-- `NREC` counts the records of `REC_OUT` (R108). -/
  nrec_counts : u.nrec = BitVec.ofNat 32 u.recOut.length
  /-- `NIDAT` counts the image-data records of `REC_OUT`; a tag that is also the end-marker's is the end-marker's (R64,
  R108). -/
  nidat_counts : u.nidat =
    BitVec.ofNat 32 (u.recOut.countP fun d => d.type == cfg.tagIdat && d.type != cfg.tagEnd)
  /-- Before DONE no end-marker has been verified (R101). -/
  no_end : u.phase ≠ .done → ∀ d ∈ u.recOut, d.type ≠ cfg.tagEnd
  /-- At DONE the last record, and it alone, is the end-marker (R101). -/
  done_end : u.phase = .done →
    ∃ init last, u.recOut = init ++ [last] ∧ last.type = cfg.tagEnd ∧ ∀ d ∈ init, d.type ≠ cfg.tagEnd

/-- RECON's registers and `PIX` in a reachable state. -/
structure State.ReconInv (s : State) : Prop where
  /-- 42_host_commands.md R154; 10_state.md R36. -/
  idle_is_clear : s.recon.phase = .idle →
    s.recon = { Recon.reset with width := s.recon.width, height := s.recon.height }
  /-- The position is inside the image while the unit runs (10_state.md R18). -/
  row_inside : s.recon.busy = true → s.recon.row.toNat < s.recon.height.toNat
  /-- The image is not empty from START to DONE (42_host_commands.md R153). -/
  width_pos : s.recon.busy = true ∨ s.recon.phase = .done → s.recon.width ≠ 0#32
  /-- A row begins at byte 0 (41_filter_reconstructor.md R132). -/
  ftype_col : s.recon.phase = .ftype → s.recon.col = 0#34
  /-- 10_state.md R18. -/
  data_col : s.recon.phase = .data → s.recon.col.toNat < s.recon.stride
  /-- The filter byte of a row being reconstructed is legal (R121). -/
  data_filter : s.recon.phase = .data → (decodeFilter s.recon.f).isSome = true
  /-- At DONE, `ROW = HEIGHT`, `COL = 0` (R132). -/
  done_end : s.recon.phase = .done → s.recon.row = s.recon.height ∧ s.recon.col = 0#34
  /-- 60_exceptions.md R170, R177. -/
  err_none : s.recon.phase ≠ .fault → s.recon.err = 0#4 ∧ s.recon.errInfo = 0#8
  /-- 60_exceptions.md R173, R174. -/
  err_fault : s.recon.phase = .fault →
    (s.recon.err = 2#4 ∧ s.recon.errInfo = 0#8) ∨
    (s.recon.err = 9#4 ∧ s.recon.errInfo = s.recon.f ∧ decodeFilter s.recon.f = none ∧ s.recon.col = 0#34)
  /-- Every byte before the current position has been written (20_memory.md R48). -/
  written : s.recon.busy = true ∨ s.recon.phase = .done →
    ∀ a, a < s.recon.addr s.recon.row.toNat s.recon.col.toNat → (Memory.read s.pix a).isSome = true
  /-- The image fits the pixel memory (42_host_commands.md R153). -/
  fits : s.recon.busy = true ∨ s.recon.phase = .done → s.overCapacity = false

/-- `EOS` can only be the last item (00_scope.md R9), and the gate of a port that holds it is not open (42_host_commands.md R158). -/
def Port.wf (p : Port) : Bool :=
  p.items.dropLast.all (· != .eos) && (p.gate != .accepting || p.items.all (· != .eos))

/-- What holds of every state a run from reset reaches. -/
structure State.Inv (s : State) : Prop where
  crcv : Crcv.Inv s.cfg s.crcv
  recon : s.ReconInv
  pix : Memory.wf s.pix = true
  crcvIn : s.crcvIn.wf = true
  reconIn : s.reconIn.wf = true

/-- A step that does not stop the machine by a fault of its own. -/
def State.Safe (s : State) : Prop := ∀ e, step s ≠ .fault e

end Sys2Proof.Machine
end

