-- ==== Sys2Proof/Certificates/Slice0/Obligations.lean ====
section
/-! DEFINITION. The statements for the provers, and the words they are said in. A statement about one step names the next
move: that a step is one move of one agent is the model's choice (log 2). -/

namespace Sys2Proof.Statements

open Sys2Proof.Machine

/-- The next move taken, the head item of `CRCV.IN` consumed, CRCV's registers as given, everything else as before. -/
def afterCrcv (s : State) (items : List Item) (u : Crcv) : State :=
  { s with agenda := s.agenda.tail, crcvIn := { s.crcvIn with items := items }, crcv := u }

/-- The next move taken, the head item of `RECON.IN` consumed, RECON's registers as given, everything else as before. -/
def afterRecon (s : State) (items : List Item) (u : Recon) : State :=
  { s with agenda := s.agenda.tail, reconIn := { s.reconIn with items := items }, recon := u }

/-- RECON's position is inside the image (10_state.md R18). -/
def InsideImage (s : State) : Prop :=
  s.recon.row.toNat < s.recon.height.toNat ∧ s.recon.col.toNat < 4 * s.recon.width.toNat

/-- `addr(r, c)` of 20_memory.md R41, for the configured width. -/
def pixAddr (s : State) (r c : Nat) : Nat := r * (4 * s.recon.width.toNat) + c

/-- `A` of 41_filter_reconstructor.md R122. -/
def IsNeighbourA (s : State) (a : Byte) : Prop :=
  if 4 ≤ s.recon.col.toNat then
    Memory.read s.pix (pixAddr s s.recon.row.toNat (s.recon.col.toNat - 4)) = some a
  else a = 0#8

/-- `B` of R122. -/
def IsNeighbourB (s : State) (b : Byte) : Prop :=
  if 0 < s.recon.row.toNat then
    Memory.read s.pix (pixAddr s (s.recon.row.toNat - 1) s.recon.col.toNat) = some b
  else b = 0#8

/-- `C` of R122. -/
def IsNeighbourC (s : State) (c : Byte) : Prop :=
  if 0 < s.recon.row.toNat ∧ 4 ≤ s.recon.col.toNat then
    Memory.read s.pix (pixAddr s (s.recon.row.toNat - 1) (s.recon.col.toNat - 4)) = some c
  else c = 0#8

/-- `p` is `Paeth(a, b, c)` as R129 words it, over the integers. -/
def IsPaeth (a b c p : Byte) : Prop :=
  let e : Int := (a.toNat : Int) + b.toNat - c.toNat
  let pa := |e - a.toNat|
  let pb := |e - b.toNat|
  let pc := |e - c.toNat|
  (pa ≤ pb ∧ pa ≤ pc → p = a) ∧ (¬(pa ≤ pb ∧ pa ≤ pc) → pb ≤ pc → p = b) ∧
    (¬(pa ≤ pb ∧ pa ≤ pc) → ¬pb ≤ pc → p = c)

/-- `t` is `s` after the byte `v` is written at the current position and the position advances (R131, R132): nothing
else of the state differs. -/
def Reconstructed (s : State) (v : Byte) (t : State) : Prop :=
  Memory.read t.pix (pixAddr s s.recon.row.toNat s.recon.col.toNat) = some v ∧
  (∀ a, a ≠ pixAddr s s.recon.row.toNat s.recon.col.toNat → Memory.read t.pix a = Memory.read s.pix a) ∧
  t.recon =
    (if s.recon.col.toNat + 1 < 4 * s.recon.width.toNat then { s.recon with col := s.recon.col + 1#34 }
     else { s.recon with
       col := 0#34, row := s.recon.row + 1#32,
       phase := if s.recon.row.toNat + 1 = s.recon.height.toNat then .done else .ftype }) ∧
  t = { s with pix := t.pix, recon := t.recon }

/-- One of the five filter operations. -/
def IsFilterOp (i : Instr) : Prop :=
  ∃ x, i = .fltNone x ∨ i = .fltSub x ∨ i = .fltUp x ∨ i = .fltAvg x ∨ i = .fltPaeth x

/-- One of the three record operations. -/
def IsRecordOp (i : Instr) : Prop := i = .recEnd ∨ i = .recIdat ∨ ∃ tag, i = .recOther tag

/-- The host writes `CTRL` of CRCV with the `CLEAR` bit, or resets the block. -/
def ClearsCrcv (m : Option Move) : Prop :=
  (∃ v : Word, m = some (.host (.write 0x00 v)) ∧ v.getLsbD 1 = true) ∨ m = some (.host .reset)

/-- The host writes `CTRL` of RECON with the `CLEAR` bit, or resets the block. -/
def ClearsRecon (m : Option Move) : Prop :=
  (∃ v : Word, m = some (.host (.write 0x10 v)) ∧ v.getLsbD 1 = true) ∨ m = some (.host .reset)

/-- The same of a unit. -/
def Clears : UnitId → Option Move → Prop
  | .crcv, m => ClearsCrcv m
  | .recon, m => ClearsRecon m

/-- CRCV's registers after a whole verified record (40_crc32_verifier.md R94 to R101). -/
def afterRecord (cfg : Config) (u : Crcv) (r : Record) : Crcv :=
  { u with
    phase := if r.tag = cfg.tagEnd then .done else .len
    k := 0#2
    len := BitVec.ofNat 32 r.payload.length
    rem := 0#32
    type := r.tag
    crc := crcRun cfg cfg.crcInit (bytesOfWord r.tag ++ r.payload)
    stored := r.checksum
    computed := r.checksum
    nrec := u.nrec + 1#32
    nidat := if r.tag ≠ cfg.tagEnd ∧ r.tag = cfg.tagIdat then u.nidat + 1#32 else u.nidat
    pos := u.pos + BitVec.ofNat 64 (12 + r.payload.length)
    paypos := u.pos + 8#64
    recOut := u.recOut ++
      [{ type := r.tag, length := BitVec.ofNat 32 r.payload.length, paypos := u.pos + 8#64, checksum := r.checksum }] }

end Sys2Proof.Statements

open Sys2Proof Sys2Proof.Machine Sys2Proof.Statements

/-! ### Encoding -/

/-- Decoding the encoding of a well-formed operation gives it back, with every operand (30_encoding.md R64, R67, R71).
-/
def Obligations.InstructionEncodingRoundTrip : Prop :=
  ∀ (cfg : Config) (i : Instr), i.wf cfg = true → decode cfg (encode cfg i) = .ok i

/-- A record's bytes, followed by anything, are framed as that record (30_encoding.md R61, R62, R63). -/
def Obligations.RecordWireRoundTrip : Prop :=
  ∀ (r : Record) (rest : List Byte), r.wf = true →
    (encodeRecord r).length = 12 + r.payload.length ∧ parseRecord (encodeRecord r ++ rest) = .ok (r, rest)

/-- A scanline's bytes, followed by anything, are framed as that scanline (30_encoding.md R66, R67). -/
def Obligations.ScanlineWireRoundTrip : Prop :=
  ∀ (width : Word) (r : Row) (rest : List Byte), r.wf width = true →
    (encodeRow r).length = 1 + 4 * width.toNat ∧ parseRow width (encodeRow r ++ rest) = .ok (r, rest)

/-- Whatever decodes to an operation has the format, register index and opcode bits of that operation's table row, and
the operation is well-formed (30_encoding.md R64, R67, R71; opcode_table.json). -/
def Obligations.DecodedOperationFitsItsTableRow : Prop :=
  ∀ (cfg : Config) (e : Encoded) (i : Instr), decode cfg e = .ok i →
    (opcodeRow cfg i).fits e = true ∧ i.wf cfg = true

/-- Four bytes shifted into a field one at a time leave their big-endian value, which is the value of the four bytes
together (30_encoding.md R62), whatever the field held before, of which R62 says that it is the spec's own inference:
"[derived: the four shifts push all 32 old bits out]"; its bytes in stream order are the four again (20_memory.md R43). -/
def Obligations.BigEndianFieldAssembly : Prop :=
  ∀ (field : Word) (b0 b1 b2 b3 : Byte),
    (shiftIn (shiftIn (shiftIn (shiftIn field b0) b1) b2) b3).toNat =
      b0.toNat * 2 ^ 24 + b1.toNat * 2 ^ 16 + b2.toNat * 2 ^ 8 + b3.toNat ∧
    be32 b0 b1 b2 b3 = shiftIn (shiftIn (shiftIn (shiftIn field b0) b1) b2) b3 ∧
    bytesOfWord (be32 b0 b1 b2 b3) = [b0, b1, b2, b3]

/-- Words written out from the encoding tables of 30_encoding.md R64, R67, R71 decode to the operations they stand for;
the two reserved tags are the default parameters (log 1). -/
def Obligations.WrittenOutEncodingsDecode : Prop :=
  decode Config.default (.record 0x49454E44#32) = .ok .recEnd ∧
  decode Config.default (.record 0x49444154#32) = .ok .recIdat ∧
  decode Config.default (.record 0x69656E64#32) = .ok (.recOther 0x69656E64#32) ∧
  decode Config.default (.row 0x00#8 0xDE#8) = .ok (.fltNone 0xDE#8) ∧
  decode Config.default (.row 0x03#8 0x0A#8) = .ok (.fltAvg 0x0A#8) ∧
  decode Config.default (.row 0x04#8 0x05#8) = .ok (.fltPaeth 0x05#8) ∧
  decode Config.default (.row 0x05#8 0x00#8) = .error (.unknownFilterType 0x05#8) ∧
  decode Config.default (.command 0x00 0x00000003#32) = .ok .crcvClear ∧
  decode Config.default (.command 0x00 0xFFFFFFFC#32) = .error (.noOperation 0x00) ∧
  decode Config.default (.command 0x10 0x00000001#32) = .ok .reconStart ∧
  decode Config.default (.command 0x14 0x00000002#32) = .ok (.cfgWidth 2#32)

/-! ### The checksum -/

/-- The table form of `crc_update` equals the bit-serial form. The spec marks R112 its own inference: "by linearity of
the shift-and-XOR step over XOR". -/
def Obligations.CrcTableFormIsBitSerialForm : Prop :=
  ∀ (cfg : Config) (c : Word) (b : Byte),
    crcUpdate cfg c b = crcShifts cfg.crcPoly 8 (c ^^^ b.setWidth 32)

/-- The spot checks of R90, the example of R91 and the check values of R92, at the default parameters, which the spec
takes from general knowledge (log 1). -/
def Obligations.CrcCheckValues : Prop :=
  crcTabEntry Config.default 0x00#8 = 0x00000000#32 ∧
  crcTabEntry Config.default 0x01#8 = 0x77073096#32 ∧
  crcTabEntry Config.default 0x80#8 = 0xEDB88320#32 ∧
  crcTabEntry Config.default 0xFF#8 = 0x2D02EF8D#32 ∧
  crcUpdate Config.default 0xFFFFFFFF#32 0x49#8 = 0x22FDE946#32 ∧
  crc32 Config.default [] = 0x00000000#32 ∧
  crc32 Config.default [0x31#8, 0x32#8, 0x33#8, 0x34#8, 0x35#8, 0x36#8, 0x37#8, 0x38#8, 0x39#8] = 0xCBF43926#32 ∧
  crc32 Config.default [0x49#8, 0x45#8, 0x4E#8, 0x44#8] = 0xAE426082#32 ∧
  crc32 Config.default [0x61#8] = 0xE8B7BE43#32

/-- Changing one byte of a message changes its checksum, for every polynomial whose top bit is 1, as that of R6 is. The
spec marks this part of R113 its own inference: "changing one byte of the covered `4 + L` bytes changes the computed
checksum". -/
def Obligations.ChecksumDetectsOneChangedByte : Prop :=
  ∀ (cfg : Config) (before after : List Byte) (b b' : Byte), cfg.crcPoly.getLsbD 31 = true → b ≠ b' →
    crc32 cfg (before ++ b :: after) ≠ crc32 cfg (before ++ b' :: after)

/-! ### Unit CRCV -/

/-- Phase LEN (40_crc32_verifier.md R94). -/
def Obligations.LengthFieldByte : Prop :=
  ∀ (s : State) (b : Byte) (items : List Item), s.nextMove = some .crcv → s.crcvIn.items = .byte b :: items →
    s.crcv.phase = .len →
    let l : Word := (s.crcv.len <<< 8) ||| b.setWidth 32
    (s.crcv.k.toNat < 3 → step s = .next (afterCrcv s items
      { s.crcv with len := l, k := s.crcv.k + 1#2, pos := s.crcv.pos + 1#64 })) ∧
    (s.crcv.k = 3#2 → step s = .next (afterCrcv s items
      { s.crcv with len := l, k := 0#2, rem := l, crc := s.cfg.crcInit, phase := .type, pos := s.crcv.pos + 1#64 }))

/-- Phase TYPE (R95). -/
def Obligations.TypeFieldByte : Prop :=
  ∀ (s : State) (b : Byte) (items : List Item), s.nextMove = some .crcv → s.crcvIn.items = .byte b :: items →
    s.crcv.phase = .type →
    let t : Word := (s.crcv.type <<< 8) ||| b.setWidth 32
    let c := crcUpdate s.cfg s.crcv.crc b
    (s.crcv.k.toNat < 3 → step s = .next (afterCrcv s items
      { s.crcv with type := t, crc := c, k := s.crcv.k + 1#2, pos := s.crcv.pos + 1#64 })) ∧
    (s.crcv.k = 3#2 → s.crcv.len = 0#32 → step s = .next (afterCrcv s items
      { s.crcv with type := t, crc := c, k := 0#2, paypos := s.crcv.pos + 1#64, phase := .crc,
                    pos := s.crcv.pos + 1#64 })) ∧
    (s.crcv.k = 3#2 → s.crcv.len ≠ 0#32 → step s = .next (afterCrcv s items
      { s.crcv with type := t, crc := c, k := 0#2, paypos := s.crcv.pos + 1#64, phase := .data,
                    pos := s.crcv.pos + 1#64 }))

/-- Phase DATA (R96). -/
def Obligations.PayloadByte : Prop :=
  ∀ (s : State) (b : Byte) (items : List Item), s.nextMove = some .crcv → s.crcvIn.items = .byte b :: items →
    s.crcv.phase = .data →
    let c := crcUpdate s.cfg s.crcv.crc b
    (s.crcv.rem = 1#32 → step s = .next (afterCrcv s items
      { s.crcv with crc := c, rem := 0#32, phase := .crc, k := 0#2, pos := s.crcv.pos + 1#64 })) ∧
    (s.crcv.rem ≠ 1#32 → step s = .next (afterCrcv s items
      { s.crcv with crc := c, rem := s.crcv.rem - 1#32, pos := s.crcv.pos + 1#64 }))

/-- Phase CRC and `Verify` (R97, R98), and `ChecksumMismatch` (R102): the first three bytes, the fourth of a record that
verifies (its operation runs, by the map of 30_encoding.md R64), and the fourth of one that does not. -/
def Obligations.ChecksumFieldByte : Prop :=
  ∀ (s : State) (b : Byte) (items : List Item), s.nextMove = some .crcv → s.crcvIn.items = .byte b :: items →
    s.crcv.phase = .crc →
    let w : Word := (s.crcv.stored <<< 8) ||| b.setWidth 32
    let computed := s.crcv.crc ^^^ s.cfg.crcXorout
    let verified := afterCrcv s items
      { s.crcv with stored := w, k := 0#2, computed := computed, pos := s.crcv.pos + 1#64 }
    (s.crcv.k.toNat < 3 → step s = .next (afterCrcv s items
      { s.crcv with stored := w, k := s.crcv.k + 1#2, pos := s.crcv.pos + 1#64 })) ∧
    (s.crcv.k = 3#2 → computed = w → s.crcv.type = s.cfg.tagEnd → step s = exec .recEnd verified) ∧
    (s.crcv.k = 3#2 → computed = w → s.crcv.type ≠ s.cfg.tagEnd → s.crcv.type = s.cfg.tagIdat →
      step s = exec .recIdat verified) ∧
    (s.crcv.k = 3#2 → computed = w → s.crcv.type ≠ s.cfg.tagEnd → s.crcv.type ≠ s.cfg.tagIdat →
      step s = exec (.recOther s.crcv.type) verified) ∧
    (s.crcv.k = 3#2 → computed ≠ w → step s = .next (afterCrcv s items
      { s.crcv with stored := w, k := 0#2, computed := computed, phase := .fault, err := 3#4,
                    pos := s.crcv.pos + 1#64 }))

/-- The three record operations, in every state: `REC.OTHER` (R99), `REC.IDAT` (R100), `REC.END` (R101). That `exec` of
`REC.OTHER` takes the descriptor's tag from register `TYPE`, whatever its operand, is the model's inference (log 12). -/
def Obligations.RecordOperationResults : Prop :=
  ∀ (s : State) (tag : Word),
    let d : Descriptor :=
      { type := s.crcv.type, length := s.crcv.len, paypos := s.crcv.paypos, checksum := s.crcv.stored }
    exec (.recOther tag) s = .next { s with crcv := { s.crcv with
      nrec := s.crcv.nrec + 1#32, recOut := s.crcv.recOut ++ [d], phase := .len } } ∧
    exec .recIdat s = .next { s with crcv := { s.crcv with
      nrec := s.crcv.nrec + 1#32, nidat := s.crcv.nidat + 1#32, recOut := s.crcv.recOut ++ [d], phase := .len } } ∧
    exec .recEnd s = .next { s with crcv := { s.crcv with
      nrec := s.crcv.nrec + 1#32, recOut := s.crcv.recOut ++ [d], phase := .done } }

/-- `TruncatedStream` at CRCV (R103): whatever the phase, `K` and `REM`, `EOS` leaves FAULT and code 2, and every other
register unchanged. -/
def Obligations.CrcvEndOfStreamFaults : Prop :=
  ∀ (s : State) (items : List Item), s.nextMove = some .crcv → s.crcvIn.items = .eos :: items →
    s.crcv.phase = .len ∨ s.crcv.phase = .type ∨ s.crcv.phase = .data ∨ s.crcv.phase = .crc →
    step s = .next (afterCrcv s items { s.crcv with phase := .fault, err := 2#4 })

/-- A unit whose move comes when it has no step waits: in IDLE, DONE and FAULT, and on an empty port, nothing changes
but that the move is spent. That it has no step and waits is 00_scope.md R9, 40_crc32_verifier.md R93, R107 and
41_filter_reconstructor.md R120, R135; that its listed move is then answered by a next state, with the move spent, is
the model's choice (log 2). -/
def Obligations.UnitWithoutStepWaits : Prop :=
  ∀ s : State,
    (s.nextMove = some .crcv →
      s.crcv.phase = .idle ∨ s.crcv.phase = .done ∨ s.crcv.phase = .fault ∨ s.crcvIn.items = [] →
      step s = .next { s with agenda := s.agenda.tail }) ∧
    (s.nextMove = some .recon →
      s.recon.phase = .idle ∨ s.recon.phase = .done ∨ s.recon.phase = .fault ∨ s.reconIn.items = [] →
      step s = .next { s with agenda := s.agenda.tail })

/-- Every step that consumes a byte advances `POS` by 1 modulo 2^64, in whatever phase and whatever its outcome; a step
that consumes `EOS` does not change it (R104). -/
def Obligations.PositionCountsConsumedBytes : Prop :=
  ∀ (s t : State) (item : Item) (items : List Item), s.nextMove = some .crcv → s.crcvIn.items = item :: items →
    s.crcv.phase = .len ∨ s.crcv.phase = .type ∨ s.crcv.phase = .data ∨ s.crcv.phase = .crc → step s = .next t →
    t.crcvIn.items = items ∧
    ((∃ b, item = .byte b) → t.crcv.pos = BitVec.ofNat 64 (s.crcv.pos.toNat + 1)) ∧
    (item = .eos → t.crcv.pos = s.crcv.pos)

/-- A whole record with its correct checksum, fed byte by byte from a record boundary, ends verified after exactly `12 +
L` moves, with every register as R94 to R101 leave it: the checksum covers the type and the payload alone (R105), and a
payload of length 0 skips the DATA phase (R106). -/
def Obligations.VerifiedRecordRun : Prop :=
  ∀ (s : State) (r : Record) (items : List Item) (moves : List Move), r.wf = true →
    r.checksum = recordChecksum s.cfg r.tag r.payload →
    s.crcv.phase = .len → s.crcv.k = 0#2 →
    s.crcvIn.items = byteItems (encodeRecord r) ++ items →
    s.agenda = List.replicate (12 + r.payload.length) .crcv ++ moves →
    Sys2Proof.core.run (12 + r.payload.length) s = .next { s with
      agenda := moves, crcvIn := { s.crcvIn with items := items }, crcv := afterRecord s.cfg s.crcv r }

/-- One changed payload byte makes CRCV fail with `ChecksumMismatch`, both checksums reported, no record counted and no
descriptor emitted, for every polynomial whose top bit is 1 (R102, and R113, whose detection part the spec marks its own
inference: "changing one byte of the covered `4 + L` bytes changes the computed checksum"). -/
def Obligations.ChangedPayloadByteFaults : Prop :=
  ∀ (s : State) (tag : Word) (before after : List Byte) (b b' : Byte) (items : List Item) (moves : List Move),
    let good := checkedRecord s.cfg tag (before ++ b :: after)
    let bad : Record := { good with payload := before ++ b' :: after }
    s.cfg.crcPoly.getLsbD 31 = true → b ≠ b' → good.wf = true →
    s.crcv.phase = .len → s.crcv.k = 0#2 →
    s.crcvIn.items = byteItems (encodeRecord bad) ++ items →
    s.agenda = List.replicate (12 + bad.payload.length) .crcv ++ moves →
    ∃ t, Sys2Proof.core.run (12 + bad.payload.length) s = .next t ∧
      t.crcv.phase = .fault ∧ t.crcv.err = 3#4 ∧ t.crcv.stored = good.checksum ∧
      t.crcv.computed = recordChecksum s.cfg tag (before ++ b' :: after) ∧ t.crcv.stored ≠ t.crcv.computed ∧
      t.crcv.nrec = s.crcv.nrec ∧ t.crcv.nidat = s.crcv.nidat ∧ t.crcv.recOut = s.crcv.recOut ∧
      t.crcvIn.items = items

/-- The whole-run function, which the spec marks its own inference (R111): from `START`, a stream of bytes followed by
`EOS` gives what `ChunkRead` returns. The two reserved tags differ, as those of R6 do: R111 counts an image-data record
that is also the end-marker, R101 does not. -/
def Obligations.CrcvRunIsChunkRead : Prop :=
  ∀ (s : State) (stream : List Byte) (moves : List Move), s.cfg.tagIdat ≠ s.cfg.tagEnd →
    s.crcv = { Crcv.reset with phase := .len } →
    s.crcvIn.items = byteItems stream ++ [.eos] →
    s.agenda = List.replicate (stream.length + 1) .crcv ++ moves →
    ∃ t, Sys2Proof.core.run (stream.length + 1) s = .next t ∧ t.agenda = moves ∧
      match chunkRead s.cfg stream with
      | .ok out nrec nidat pos =>
        t.crcv.phase = .done ∧ t.crcv.recOut = out ∧ t.crcv.nrec = BitVec.ofNat 32 nrec ∧
        t.crcv.nidat = BitVec.ofNat 32 nidat ∧ t.crcv.pos = BitVec.ofNat 64 pos ∧
        t.crcvIn.items = byteItems (stream.drop pos) ++ [.eos]
      | .truncated =>
        t.crcv.phase = .fault ∧ t.crcv.err = 2#4 ∧ t.crcv.pos = BitVec.ofNat 64 stream.length ∧ t.crcvIn.items = []
      | .mismatch stored computed =>
        t.crcv.phase = .fault ∧ t.crcv.err = 3#4 ∧ t.crcv.stored = stored ∧ t.crcv.computed = computed

/-- A CRCV that is running on a finite stream that ends in `EOS` reaches DONE or FAULT within as many moves as there are
items; the spec marks it its own inference (70_reset_and_hazards.md R209). -/
def Obligations.CrcvRunTerminates : Prop :=
  ∀ (s : State) (bytes : List Byte) (moves : List Move), s.crcv.busy = true →
    s.crcvIn.items = byteItems bytes ++ [.eos] →
    s.agenda = List.replicate (bytes.length + 1) .crcv ++ moves →
    ∃ t, Sys2Proof.core.run (bytes.length + 1) s = .next t ∧ (t.crcv.phase = .done ∨ t.crcv.phase = .fault)

/-- Fault entry (60_exceptions.md R170, R177): the unit's `PHASE` is FAULT, its `ERR` the code and the fault's
information registers are written; every other register, the other unit, both ports and `PIX` stay, and the `FAULT` flag
and output of that unit alone rise. -/
def Obligations.FaultEntry : Prop :=
  ∀ (s : State) (stored computed : Word) (f : Byte),
    s.raise .crcvTruncated = { s with crcv := { s.crcv with phase := .fault, err := 2#4 } } ∧
    s.raise (.checksumMismatch stored computed) = { s with crcv :=
      { s.crcv with phase := .fault, err := 3#4, stored := stored, computed := computed } } ∧
    s.raise .reconTruncated = { s with recon := { s.recon with phase := .fault, err := 2#4, errInfo := 0#8 } } ∧
    s.raise (.unknownFilterType f) = { s with recon :=
      { s.recon with phase := .fault, err := 9#4, errInfo := f, f := f } } ∧
    (s.raise (.checksumMismatch stored computed)).levelOutputs = [false, true, s.recon.isDone, s.recon.isFault] ∧
    (s.raise .crcvTruncated).levelOutputs = [false, true, s.recon.isDone, s.recon.isFault] ∧
    (s.raise .reconTruncated).levelOutputs = [s.crcv.isDone, s.crcv.isFault, false, true] ∧
    (s.raise (.unknownFilterType f)).levelOutputs = [s.crcv.isDone, s.crcv.isFault, false, true]

/-! ### Unit RECON -/

/-- Phase FTYPE (41_filter_reconstructor.md R121). -/
def Obligations.FilterTypeByte : Prop :=
  ∀ (s : State) (b : Byte) (items : List Item), s.nextMove = some .recon → s.reconIn.items = .byte b :: items →
    s.recon.phase = .ftype →
    (b.toNat ≤ 4 → step s = .next (afterRecon s items { s.recon with f := b, col := 0#34, phase := .data })) ∧
    (4 < b.toNat → step s = .next (afterRecon s items
      { s.recon with f := b, phase := .fault, err := 9#4, errInfo := b }))

/-- `FLT.NONE` (R124). -/
def Obligations.FilterNoneResult : Prop :=
  ∀ (s : State) (x : Byte), InsideImage s →
    ∃ t, exec (.fltNone x) s = .next t ∧ Reconstructed s x t

/-- `FLT.SUB` (R125). -/
def Obligations.FilterSubResult : Prop :=
  ∀ (s : State) (x a : Byte), InsideImage s → IsNeighbourA s a →
    ∃ t, exec (.fltSub x) s = .next t ∧ Reconstructed s (BitVec.ofNat 8 ((x.toNat + a.toNat) % 256)) t

/-- `FLT.UP` (R126). -/
def Obligations.FilterUpResult : Prop :=
  ∀ (s : State) (x b : Byte), InsideImage s → IsNeighbourB s b →
    ∃ t, exec (.fltUp x) s = .next t ∧ Reconstructed s (BitVec.ofNat 8 ((x.toNat + b.toNat) % 256)) t

/-- `FLT.AVG` (R127): the inner sum is not reduced before it is halved (90_conflicts.md C1). -/
def Obligations.FilterAvgResult : Prop :=
  ∀ (s : State) (x a b : Byte), InsideImage s → IsNeighbourA s a → IsNeighbourB s b →
    ∃ t, exec (.fltAvg x) s = .next t ∧
      Reconstructed s (BitVec.ofNat 8 ((x.toNat + (a.toNat + b.toNat) / 2) % 256)) t

/-- `FLT.PAETH` (R128) with the predictor of R129. -/
def Obligations.FilterPaethResult : Prop :=
  ∀ (s : State) (x a b c p : Byte), InsideImage s → IsNeighbourA s a → IsNeighbourB s b → IsNeighbourC s c →
    IsPaeth a b c p →
    ∃ t, exec (.fltPaeth x) s = .next t ∧ Reconstructed s (BitVec.ofNat 8 ((x.toNat + p.toNat) % 256)) t

/-- The predictor of R129 returns one of its three arguments, none of which is nearer to `a + b - c`; and where `a` is
as near as any it is `a`, else where `b` is as near as `c` it is `b`. -/
def Obligations.PaethPredictorIsNearest : Prop :=
  ∀ (a b c : Byte),
    let e : Int := (a.toNat : Int) + b.toNat - c.toNat
    let p := paeth a b c
    (p = a ∨ p = b ∨ p = c) ∧
    |e - p.toNat| ≤ |e - a.toNat| ∧ |e - p.toNat| ≤ |e - b.toNat| ∧ |e - p.toNat| ≤ |e - c.toNat| ∧
    (|e - p.toNat| = |e - a.toNat| → p = a) ∧
    (|e - p.toNat| < |e - a.toNat| → |e - p.toNat| = |e - b.toNat| → p = b)

/-- The predictors at the corner positions, which the spec marks its own inference (R136): `Paeth` is `A` in row 0 and
`B` in the first pixel, and `FLT.AVG`'s is half of the one neighbour there is. -/
def Obligations.CornerPredictors : Prop :=
  ∀ (a b : Byte),
    paeth 0#8 0#8 0#8 = 0#8 ∧ paeth a 0#8 0#8 = a ∧ paeth 0#8 b 0#8 = b ∧
    avgPredictor 0#8 0#8 = 0#8 ∧ (avgPredictor a 0#8).toNat = a.toNat / 2 ∧ (avgPredictor 0#8 b).toNat = b.toNat / 2 ∧
    (avgPredictor a b).toNat = (a.toNat + b.toNat) / 2

/-- `TruncatedStream` at RECON (R133). -/
def Obligations.ReconEndOfStreamFaults : Prop :=
  ∀ (s : State) (items : List Item), s.nextMove = some .recon → s.reconIn.items = .eos :: items →
    s.recon.phase = .ftype ∨ s.recon.phase = .data →
    step s = .next (afterRecon s items { s.recon with phase := .fault, err := 2#4, errInfo := 0#8 })

/-- The whole-run function (R137), in the line-buffer form of R138, both of which the spec marks its own inference: from
`START`, a raw stream followed by `EOS` gives what `Reconstruct` returns, whatever `PIX` held before. -/
def Obligations.ReconRunIsReconstruct : Prop :=
  ∀ (s : State) (stream : List Byte) (moves : List Move),
    s.recon = { Recon.reset with width := s.recon.width, height := s.recon.height, phase := .ftype } →
    s.recon.width ≠ 0#32 → s.recon.height ≠ 0#32 →
    s.reconIn.items = byteItems stream ++ [.eos] →
    s.agenda = List.replicate (stream.length + 1) .recon ++ moves →
    ∃ t, Sys2Proof.core.run (stream.length + 1) s = .next t ∧ t.agenda = moves ∧
      t.recon.width = s.recon.width ∧ t.recon.height = s.recon.height ∧
      match reconstructImage s.recon.width s.recon.height stream with
      | .ok image rest =>
        t.recon.phase = .done ∧ t.recon.row = t.recon.height ∧ t.recon.col = 0#34 ∧
        image.length = s.recon.height.toNat * (4 * s.recon.width.toNat) ∧
        (∀ a, a < image.length → Memory.read t.pix a = image[a]?) ∧
        t.reconIn.items = byteItems rest ++ [.eos]
      | .truncated => t.recon.phase = .fault ∧ t.recon.err = 2#4 ∧ t.recon.errInfo = 0#8 ∧ t.reconIn.items = []
      | .unknownFilterType f => t.recon.phase = .fault ∧ t.recon.err = 9#4 ∧ t.recon.errInfo = f

/-- A RECON that is running, in a state the invariant allows, on a finite stream that ends in `EOS` reaches DONE or
FAULT within as many moves as there are items; the spec marks it its own inference (70_reset_and_hazards.md R209). -/
def Obligations.ReconRunTerminates : Prop :=
  ∀ (s : State) (bytes : List Byte) (moves : List Move), s.ReconInv → s.recon.busy = true →
    s.reconIn.items = byteItems bytes ++ [.eos] →
    s.agenda = List.replicate (bytes.length + 1) .recon ++ moves →
    ∃ t, Sys2Proof.core.run (bytes.length + 1) s = .next t ∧ (t.recon.phase = .done ∨ t.recon.phase = .fault)

/-- The channels are independent, which the spec marks its own inference (R139): two runs whose pixel memories agree at
the addresses of one channel, and whose sample bytes agree if the position is of that channel, agree there after the
same filter operation. -/
def Obligations.ChannelsAreIndependent : Prop :=
  ∀ (s s' t t' : State) (x x' : Byte) (f : FilterType) (channel : Nat),
    s.recon = s'.recon →
    (∀ a, a % 4 = channel → Memory.read s.pix a = Memory.read s'.pix a) →
    (s.recon.col.toNat % 4 = channel → x = x') →
    exec (filterInstr x f) s = .next t → exec (filterInstr x' f) s' = .next t' →
    t.recon = t'.recon ∧ ∀ a, a % 4 = channel → Memory.read t.pix a = Memory.read t'.pix a

/-- Where the machine stops at an access to `PIX`. A sample step stops on a write outside the image, and on a neighbour
it reads that is outside the image or that nothing has written; a host read stops on a byte that nothing has written; a
sample byte under an illegal filter byte stops too. The stops are the model's own choice (logs 4, 8, 9), and by
`InvariantRulesOutMachineFaults` no run from reset reaches one. -/
def Obligations.PixAccessStops : Prop :=
  ∀ (s : State) (x : Byte),
    let size := s.recon.height.toNat * (4 * s.recon.width.toNat)
    let r := s.recon.row.toNat
    let c := s.recon.col.toNat
    let unreadable := fun a => size ≤ a ∨ Memory.read s.pix a = none
    (size ≤ pixAddr s r c → exec (.fltNone x) s = .fault (.pixOutOfRange (pixAddr s r c))) ∧
    (∀ i, IsFilterOp i → size ≤ pixAddr s r c → ∃ e, exec i s = .fault e) ∧
    (4 ≤ c → unreadable (pixAddr s r (c - 4)) →
      (∃ e, exec (.fltSub x) s = .fault e) ∧ (∃ e, exec (.fltAvg x) s = .fault e) ∧ ∃ e, exec (.fltPaeth x) s = .fault e) ∧
    (0 < r → unreadable (pixAddr s (r - 1) c) →
      (∃ e, exec (.fltUp x) s = .fault e) ∧ (∃ e, exec (.fltAvg x) s = .fault e) ∧ ∃ e, exec (.fltPaeth x) s = .fault e) ∧
    (0 < r → 4 ≤ c → unreadable (pixAddr s (r - 1) (c - 4)) → ∃ e, exec (.fltPaeth x) s = .fault e) ∧
    (∀ a, s.nextMove = some (.host (.pixRead a)) → s.recon.phase = .done → a < size → Memory.read s.pix a = none →
      step s = .fault (.pixUnwritten a)) ∧
    (∀ items, s.nextMove = some .recon → s.reconIn.items = .byte x :: items → s.recon.phase = .data →
      4 < s.recon.f.toNat → step s = .fault (.dataPhaseFilter s.recon.f))

/-! ### The host -/

/-- `CRCV.START` (42_host_commands.md R151). -/
def Obligations.CrcvStartCommand : Prop :=
  ∀ s : State,
    (s.crcv.phase = .idle → exec .crcvStart s = .next { s with crcv :=
      { phase := .len, k := 0#2, len := 0#32, rem := 0#32, type := 0#32, crc := 0#32, stored := 0#32, computed := 0#32,
        nrec := 0#32, nidat := 0#32, pos := 0#64, paypos := 0#64, err := 0#4, recOut := [] } }) ∧
    (s.crcv.phase ≠ .idle → exec .crcvStart s = .next s)

/-- `CRCV.CLEAR`, in every phase; the items on the port stay (R152), and of the port only its gate can change, as
`PushBanEndsWithClearAndEmptyPort` says. -/
def Obligations.CrcvClearCommand : Prop :=
  ∀ s : State, ∃ p : Port, p.items = s.crcvIn.items ∧ exec .crcvClear s = .next { s with
    crcvIn := p
    crcv :=
      { phase := .idle, k := 0#2, len := 0#32, rem := 0#32, type := 0#32, crc := 0#32, stored := 0#32, computed := 0#32,
        nrec := 0#32, nidat := 0#32, pos := 0#64, paypos := 0#64, err := 0#4, recOut := [] } }

/-- `RECON.START` (R153): it runs from IDLE with both dimensions above 0 and an image that fits, has no effect outside
IDLE, and is refused otherwise. -/
def Obligations.ReconStartCommand : Prop :=
  ∀ s : State,
    let fits := ∀ m, s.cfg.pixBytesMax = some m → s.recon.height.toNat * (4 * s.recon.width.toNat) ≤ m
    (s.recon.phase ≠ .idle → exec .reconStart s = .next s) ∧
    (s.recon.phase = .idle → s.recon.width ≠ 0#32 → s.recon.height ≠ 0#32 → fits →
      exec .reconStart s = .next { s with recon :=
        { s.recon with row := 0#32, col := 0#34, f := 0#8, err := 0#4, errInfo := 0#8, phase := .ftype } }) ∧
    (s.recon.phase = .idle → s.recon.width = 0#32 ∨ s.recon.height = 0#32 →
      exec .reconStart s = .refused .reconStartZeroDimension) ∧
    (s.recon.phase = .idle → s.recon.width ≠ 0#32 → s.recon.height ≠ 0#32 → ¬fits →
      exec .reconStart s = .refused .reconStartOverCapacity)

/-- `RECON.CLEAR`, in every phase; `WIDTH` and `HEIGHT` keep their values, `PIX` and the items on the port stay (R154),
and of the port only its gate can change, as `PushBanEndsWithClearAndEmptyPort` says. -/
def Obligations.ReconClearCommand : Prop :=
  ∀ s : State, ∃ p : Port, p.items = s.reconIn.items ∧ exec .reconClear s = .next { s with
    reconIn := p
    recon := { s.recon with phase := .idle, row := 0#32, col := 0#34, f := 0#8, err := 0#4, errInfo := 0#8 } }

/-- `CFG.WIDTH` and `CFG.HEIGHT`: all 32 bits stored in IDLE, no effect outside it (R155). -/
def Obligations.ConfigurationCommands : Prop :=
  ∀ (s : State) (v : Word),
    (s.recon.phase = .idle →
      exec (.cfgWidth v) s = .next { s with recon := { s.recon with width := v } } ∧
      exec (.cfgHeight v) s = .next { s with recon := { s.recon with height := v } }) ∧
    (s.recon.phase ≠ .idle → exec (.cfgWidth v) s = .next s ∧ exec (.cfgHeight v) s = .next s)

/-- A host write (30_encoding.md R71): `CTRL` by its two command bits, `CLEAR` before `START` (42_host_commands.md
R159), the two configuration registers, and no effect at any other index or with neither bit (10_state.md R23, R24). -/
def Obligations.HostWriteSelectsCommand : Prop :=
  ∀ (s : State) (index : Nat) (v : Word), s.nextMove = some (.host (.write index v)) →
    let t : State := { s with agenda := s.agenda.tail }
    (index = 0x00 → v.getLsbD 1 = true → step s = exec .crcvClear t) ∧
    (index = 0x00 → v.getLsbD 1 = false → v.getLsbD 0 = true → step s = exec .crcvStart t) ∧
    (index = 0x10 → v.getLsbD 1 = true → step s = exec .reconClear t) ∧
    (index = 0x10 → v.getLsbD 1 = false → v.getLsbD 0 = true → step s = exec .reconStart t) ∧
    (index = 0x14 → step s = exec (.cfgWidth v) t) ∧
    (index = 0x15 → step s = exec (.cfgHeight v) t) ∧
    (index = 0x00 ∨ index = 0x10 → v.getLsbD 1 = false → v.getLsbD 0 = false → step s = .next t) ∧
    (index ≠ 0x00 → index ≠ 0x10 → index ≠ 0x14 → index ≠ 0x15 → step s = .next t)

/-- A step runs the decoded operation: the fourth checksum byte of a record that verifies, a sample byte under a legal
filter type, and a register write that decodes; what the step does around `exec` is the state it is given. -/
def Obligations.StepRunsTheDecodedOperation : Prop :=
  ∀ (s : State) (i : Instr),
    (∀ (b : Byte) (items : List Item), s.nextMove = some .crcv → s.crcvIn.items = .byte b :: items →
      s.crcv.phase = .crc → s.crcv.k = 3#2 → s.crcv.crc ^^^ s.cfg.crcXorout = shiftIn s.crcv.stored b →
      decode s.cfg (.record s.crcv.type) = .ok i →
      step s = exec i (afterCrcv s items
        { s.crcv with stored := shiftIn s.crcv.stored b, k := 0#2, computed := s.crcv.crc ^^^ s.cfg.crcXorout,
                      pos := s.crcv.pos + 1#64 })) ∧
    (∀ (x : Byte) (items : List Item), s.nextMove = some .recon → s.reconIn.items = .byte x :: items →
      s.recon.phase = .data → decode s.cfg (.row s.recon.f x) = .ok i →
      step s = exec i (afterRecon s items s.recon)) ∧
    (∀ (index : Nat) (v : Word), s.nextMove = some (.host (.write index v)) →
      decode s.cfg (.command index v) = .ok i →
      step s = exec i { s with agenda := s.agenda.tail })

/-- `HostRead` returns the content that 10_state.md R23 lists, and changes nothing: the value is only handed to the host
(42_host_commands.md R156). -/
def Obligations.RegisterReads : Prop :=
  (∀ (s : State) (index : Nat), s.nextMove = some (.host (.read index)) →
    step s = .next { s with agenda := s.agenda.tail, seen := .reg index (s.hostRead index) :: s.seen }) ∧
  ∀ s : State,
    s.hostRead 0x00 = 0#32 ∧ s.hostRead 0x01 = s.crcv.status ∧ s.hostRead 0x02 = s.crcv.err.setWidth 32 ∧
    s.hostRead 0x03 = s.crcv.stored ∧ s.hostRead 0x04 = s.crcv.computed ∧ s.hostRead 0x05 = s.crcv.len ∧
    s.hostRead 0x06 = s.crcv.type ∧ s.hostRead 0x07 = s.crcv.nrec ∧ s.hostRead 0x08 = s.crcv.nidat ∧
    (s.hostRead 0x0A).toNat * 2 ^ 32 + (s.hostRead 0x09).toNat = s.crcv.pos.toNat ∧
    s.hostRead 0x0B = s.crcv.rem ∧ s.hostRead 0x0C = s.crcv.crc ∧
    (s.hostRead 0x0E).toNat * 2 ^ 32 + (s.hostRead 0x0D).toNat = s.crcv.paypos.toNat ∧
    s.hostRead 0x10 = 0#32 ∧ s.hostRead 0x11 = s.recon.status ∧ s.hostRead 0x12 = s.recon.err.setWidth 32 ∧
    s.hostRead 0x13 = s.recon.errInfo.setWidth 32 ∧ s.hostRead 0x14 = s.recon.width ∧
    s.hostRead 0x15 = s.recon.height ∧ s.hostRead 0x16 = s.recon.row ∧
    (s.hostRead 0x18).toNat * 2 ^ 32 + (s.hostRead 0x17).toNat = s.recon.col.toNat ∧ s.hostRead 0x19 = s.recon.f.setWidth 32 ∧
    ∀ index, index = 0x0F ∨ 0x19 < index → s.hostRead index = 0#32

/-- The fields of the two `STATUS` registers, bit by bit, with the numbers of the phases (10_state.md R12, R17, R25,
R26). -/
def Obligations.StatusRegisterFields : Prop :=
  (∀ u : Crcv,
    (u.phase = .idle → u.status.extractLsb' 0 3 = 0#3) ∧ (u.phase = .len → u.status.extractLsb' 0 3 = 1#3) ∧
    (u.phase = .type → u.status.extractLsb' 0 3 = 2#3) ∧ (u.phase = .data → u.status.extractLsb' 0 3 = 3#3) ∧
    (u.phase = .crc → u.status.extractLsb' 0 3 = 4#3) ∧ (u.phase = .done → u.status.extractLsb' 0 3 = 5#3) ∧
    (u.phase = .fault → u.status.extractLsb' 0 3 = 6#3) ∧
    (u.status.getLsbD 3 = true ↔ u.phase = .len ∨ u.phase = .type ∨ u.phase = .data ∨ u.phase = .crc) ∧
    (u.status.getLsbD 4 = true ↔ u.phase = .done) ∧ (u.status.getLsbD 5 = true ↔ u.phase = .fault) ∧
    u.status.extractLsb' 6 2 = u.k ∧ u.status.extractLsb' 8 24 = 0#24) ∧
  ∀ u : Recon,
    (u.phase = .idle → u.status.extractLsb' 0 3 = 0#3) ∧ (u.phase = .ftype → u.status.extractLsb' 0 3 = 1#3) ∧
    (u.phase = .data → u.status.extractLsb' 0 3 = 3#3) ∧ (u.phase = .done → u.status.extractLsb' 0 3 = 5#3) ∧
    (u.phase = .fault → u.status.extractLsb' 0 3 = 6#3) ∧
    (u.status.getLsbD 3 = true ↔ u.phase = .ftype ∨ u.phase = .data) ∧
    (u.status.getLsbD 4 = true ↔ u.phase = .done) ∧ (u.status.getLsbD 5 = true ↔ u.phase = .fault) ∧
    u.status.extractLsb' 6 26 = 0#26

/-- `PixRead` (42_host_commands.md R157): the byte at DONE and in range, refused otherwise. -/
def Obligations.PixReadAtDoneOnly : Prop :=
  ∀ (s : State) (a : Nat), s.nextMove = some (.host (.pixRead a)) →
    (∀ b, s.recon.phase = .done → a < s.recon.height.toNat * (4 * s.recon.width.toNat) → Memory.read s.pix a = some b →
      step s = .next { s with agenda := s.agenda.tail, seen := .pix a b :: s.seen }) ∧
    (s.recon.phase ≠ .done → step s = .refused (.pixReadNotDone a)) ∧
    (s.recon.phase = .done → s.recon.height.toNat * (4 * s.recon.width.toNat) ≤ a →
      step s = .refused (.pixReadOutOfRange a))

/-- `Push` (42_host_commands.md R158): in every phase an item joins the end of its port, except after `EOS`, when it is
refused until the unit has been `CLEAR`ed or reset and the port emptied. How the port keeps account of that, and that
the platform can empty a port (70_reset_and_hazards.md R206) in every phase of its unit, is the model's choice (logs 3,
18). -/
def Obligations.PushAppendsToThePort : Prop :=
  ∀ (s : State) (u : UnitId) (item : Item),
    let accepts := (s.port u).gate = .accepting ∨ ((s.port u).gate = .cleared ∧ (s.port u).items = [])
    (s.nextMove = some (.host (.push u item)) → accepts →
      step s = .next ({ s with agenda := s.agenda.tail }.setPort u
        { items := (s.port u).items ++ [item], gate := if item = Item.eos then .shut else .accepting })) ∧
    (s.nextMove = some (.host (.push u item)) → ¬accepts → step s = .refused (.pushAfterEos u)) ∧
    (s.nextMove = some (.host (.drain u)) →
      step s = .next ({ s with agenda := s.agenda.tail }.setPort u { s.port u with items := [] }))

/-- When the ban of R158 ends, step by step, whatever moves come between and in whatever phase the unit is: a `CLEAR` or
a reset of the unit, and nothing else, ends the state in which no push is taken; from then on the port takes an item as
soon as it is empty, and it stays empty until one is pushed (R158; 70_reset_and_hazards.md R202, R206, R211). The gate
is the model's account of it (log 3). -/
def Obligations.PushBanEndsWithClearAndEmptyPort : Prop :=
  ∀ (s t : State) (u : UnitId), step s = .next t →
    (Clears u s.nextMove → (t.port u).gate ≠ .shut) ∧
    ((s.port u).gate = .shut → (t.port u).gate ≠ .shut → Clears u s.nextMove) ∧
    (s.nextMove = some (.host (.drain u)) → (t.port u).items = []) ∧
    ((∀ item, s.nextMove ≠ some (.host (.push u item))) →
      ((s.port u).gate ≠ .shut → (t.port u).gate ≠ .shut) ∧
      ((s.port u).gate = .accepting → (t.port u).gate = .accepting) ∧
      ((s.port u).items = [] → (t.port u).items = [])) ∧
    (∀ item, s.nextMove = some (.host (.push u item)) →
      (t.port u).gate = if item = Item.eos then .shut else .accepting)

/-- Reset (70_reset_and_hazards.md R200, R201): in any phase both units' registers become 0, `REC_OUT` empty, the flags
and the level outputs 0, every host register reads 0, no unit has a step, and the ports keep their items; `PIX` is
unspecified. -/
def Obligations.ResetClearsBothUnits : Prop :=
  ∀ s : State, s.nextMove = some (.host .reset) →
    ∃ t, step s = .next t ∧
      t.crcv = { phase := .idle, k := 0#2, len := 0#32, rem := 0#32, type := 0#32, crc := 0#32, stored := 0#32,
                 computed := 0#32, nrec := 0#32, nidat := 0#32, pos := 0#64, paypos := 0#64, err := 0#4, recOut := [] } ∧
      t.recon = { phase := .idle, width := 0#32, height := 0#32, row := 0#32, col := 0#34, f := 0#8, err := 0#4,
                  errInfo := 0#8 } ∧
      t.crcvReady = false ∧ t.reconReady = false ∧
      t.crcv.busy = false ∧ t.recon.busy = false ∧ t.levelOutputs = [false, false, false, false] ∧
      (∀ index, t.hostRead index = 0#32) ∧ t.crcvIn.items = s.crcvIn.items ∧ t.reconIn.items = s.reconIn.items ∧
      t.cfg = s.cfg

/-! ### The whole machine -/

/-- The invariant holds after reset. -/
def Obligations.InvariantHoldsAtReset : Prop := State.reset.Inv

/-- Every step from a state that meets the invariant gives a state that meets it. -/
def Obligations.InvariantKeptByEveryStep : Prop := ∀ s t : State, s.Inv → step s = .next t → t.Inv

/-- In a state that meets the invariant no step stops the machine by a fault of its own: every byte RECON reads was
written before, and every address it forms is inside the image (20_memory.md R47, R48). -/
def Obligations.InvariantRulesOutMachineFaults : Prop := ∀ s : State, s.Inv → s.Safe

/-- A unit in DONE or FAULT keeps all its registers, through every move of every agent, until `CLEAR` or reset
(60_exceptions.md R179, R180; 70_reset_and_hazards.md R210). -/
def Obligations.FinishedUnitHoldsUntilCleared : Prop :=
  ∀ s t : State, step s = .next t →
    (s.crcv.phase = .done ∨ s.crcv.phase = .fault → t.crcv = s.crcv ∨ ClearsCrcv s.nextMove) ∧
    (s.recon.phase = .done ∨ s.recon.phase = .fault → t.recon = s.recon ∨ ClearsRecon s.nextMove)

/-- `WIDTH` and `HEIGHT` cannot change during a run: outside IDLE no step changes them but reset
(42_host_commands.md R155, 70_reset_and_hazards.md R205). -/
def Obligations.ConfigurationFixedOutsideIdle : Prop :=
  ∀ s t : State, step s = .next t → s.recon.phase ≠ .idle → s.nextMove ≠ some (.host .reset) →
    t.recon.width = s.recon.width ∧ t.recon.height = s.recon.height

/-- The units share no state (10_state.md R10): a move of one leaves the other's registers and port, and CRCV's leaves
`PIX`. -/
def Obligations.UnitsShareNoState : Prop :=
  ∀ s t : State, step s = .next t →
    (s.nextMove = some .crcv → t.recon = s.recon ∧ t.pix = s.pix ∧ t.reconIn = s.reconIn) ∧
    (s.nextMove = some .recon → t.crcv = s.crcv ∧ t.crcvIn = s.crcvIn) ∧
    t.cfg = s.cfg

/-- The steps of the two units commute, in every state and whatever their outcomes (20_memory.md R52). -/
def Obligations.UnitStepsCommute : Prop :=
  ∀ (s : State) (moves : List Move),
    Sys2Proof.core.run 2 { s with agenda := .crcv :: .recon :: moves } =
      Sys2Proof.core.run 2 { s with agenda := .recon :: .crcv :: moves }

/-- `PIX` is written by RECON's DATA steps alone, one byte each, at the current position (20_memory.md R40, R42): every
other step but reset leaves every address as it was. -/
def Obligations.OnlySampleStepsWritePix : Prop :=
  ∀ (s t : State) (a : Nat), step s = .next t → s.nextMove ≠ some (.host .reset) →
    Memory.read t.pix a ≠ Memory.read s.pix a →
    s.nextMove = some .recon ∧ s.recon.phase = .data ∧ a = s.recon.addr s.recon.row.toNat s.recon.col.toNat

/-- What the three record operations leave unchanged, `REC.OTHER` with any operand (log 12). -/
def Obligations.RecordOperationsFrame : Prop :=
  ∀ (i : Instr) (s t : State), IsRecordOp i → exec i s = .next t →
    t.cfg = s.cfg ∧ t.recon = s.recon ∧ t.crcvIn = s.crcvIn ∧ t.reconIn = s.reconIn ∧ t.agenda = s.agenda ∧
    t.seen = s.seen ∧ (∀ a, Memory.read t.pix a = Memory.read s.pix a) ∧
    t.crcv = { s.crcv with phase := t.crcv.phase, nrec := t.crcv.nrec, nidat := t.crcv.nidat,
                           recOut := t.crcv.recOut } ∧
    (i ≠ .recIdat → t.crcv.nidat = s.crcv.nidat)

/-- What the five filter operations leave unchanged: every byte of `PIX` but the one at the current position, every CRCV
register, and every RECON register but `ROW`, `COL` and `PHASE`. -/
def Obligations.FilterOperationsFrame : Prop :=
  ∀ (i : Instr) (s t : State), IsFilterOp i → exec i s = .next t →
    t.cfg = s.cfg ∧ t.crcv = s.crcv ∧ t.crcvIn = s.crcvIn ∧ t.reconIn = s.reconIn ∧ t.agenda = s.agenda ∧
    t.seen = s.seen ∧
    (∀ a, a ≠ s.recon.addr s.recon.row.toNat s.recon.col.toNat → Memory.read t.pix a = Memory.read s.pix a) ∧
    t.recon = { s.recon with phase := t.recon.phase, row := t.recon.row, col := t.recon.col }

/-- What the six host commands leave unchanged: the other unit, both ports but for the gate of the unit's own port at
its `CLEAR` (log 3), and every byte of `PIX`; `WIDTH` and `HEIGHT` but for the configuration write of each (10_state.md
R10; 42_host_commands.md R151 to R155; 20_memory.md R54). -/
def Obligations.HostCommandsFrame : Prop :=
  ∀ (s t : State) (v : Word),
    (exec .crcvStart s = .next t →
      t = { s with crcv := t.crcv } ∧ ∀ a, Memory.read t.pix a = Memory.read s.pix a) ∧
    (exec .crcvClear s = .next t →
      t = { s with crcv := t.crcv, crcvIn := { s.crcvIn with gate := t.crcvIn.gate } } ∧
      ∀ a, Memory.read t.pix a = Memory.read s.pix a) ∧
    (exec .reconStart s = .next t →
      t = { s with recon := t.recon } ∧ t.recon.width = s.recon.width ∧ t.recon.height = s.recon.height ∧
      ∀ a, Memory.read t.pix a = Memory.read s.pix a) ∧
    (exec .reconClear s = .next t →
      t = { s with recon := t.recon, reconIn := { s.reconIn with gate := t.reconIn.gate } } ∧
      t.recon.width = s.recon.width ∧ t.recon.height = s.recon.height ∧
      ∀ a, Memory.read t.pix a = Memory.read s.pix a) ∧
    (exec (.cfgWidth v) s = .next t →
      t = { s with recon := { s.recon with width := t.recon.width } } ∧
      ∀ a, Memory.read t.pix a = Memory.read s.pix a) ∧
    (exec (.cfgHeight v) s = .next t →
      t = { s with recon := { s.recon with height := t.recon.height } } ∧
      ∀ a, Memory.read t.pix a = Memory.read s.pix a)
end

