-- ==== Sys2Proof/Laws/Bytes.lean ====
section
/-! SUPPORT. Small lemmas of the byte-order helpers and the opcode maps. -/

namespace Sys2Proof

@[simp] theorem bytesOfWord_length (w : Word) : (bytesOfWord w).length = 4 := rfl

/-- One more byte of a field, as numbers (30_encoding.md R62). -/
theorem shiftIn_toNat (field : Word) (b : Byte) : (shiftIn field b).toNat = (field.toNat * 256 + b.toNat) % 2 ^ 32 := by
  have hb := b.isLt
  have h : (field.toNat <<< 8) % 2 ^ 32 = ((field.toNat % 2 ^ 24) <<< 8) := by
    simp only [Nat.shiftLeft_eq]; omega
  simp only [shiftIn, BitVec.toNat_or, BitVec.toNat_shiftLeft, BitVec.toNat_setWidth]
  rw [h, Nat.mod_eq_of_lt (by omega : b.toNat < 2 ^ 32), ← Nat.shiftLeft_add_eq_or_of_lt (by omega), Nat.shiftLeft_eq]
  omega

/-- The bytes of a word, as numbers. -/
theorem byteOf_toNat (w : Word) (k : Nat) : ((w >>> k).setWidth 8).toNat = w.toNat / 2 ^ k % 256 := by
  simp [BitVec.toNat_setWidth, BitVec.toNat_ushiftRight, Nat.shiftRight_eq_div_pow]

/-- Shifting the four bytes of a word into a field leaves that word. -/
theorem shiftIn_bytes (field w : Word) :
    shiftIn (shiftIn (shiftIn (shiftIn field ((w >>> 24).setWidth 8)) ((w >>> 16).setWidth 8)) ((w >>> 8).setWidth 8))
      (w.setWidth 8) = w := by
  apply BitVec.eq_of_toNat_eq
  have hw := w.isLt
  have h0 : (w.setWidth 8).toNat = w.toNat % 256 := by simp [BitVec.toNat_setWidth]
  simp only [shiftIn_toNat, byteOf_toNat, h0]
  omega

/-- A big-endian field read from the four bytes of a word is that word (30_encoding.md R62). -/
theorem be32_bytes (w : Word) :
    be32 ((w >>> 24).setWidth 8) ((w >>> 16).setWidth 8) ((w >>> 8).setWidth 8) (w.setWidth 8) = w := by
  unfold be32
  ext i hi
  simp only [BitVec.getElem_or, BitVec.getElem_shiftLeft, BitVec.getElem_setWidth, BitVec.getLsbD_setWidth,
    BitVec.getLsbD_ushiftRight, BitVec.getLsbD_eq_getElem hi]
  rcases (by omega : i < 8 ∨ (8 ≤ i ∧ i < 16) ∨ (16 ≤ i ∧ i < 24) ∨ 24 ≤ i) with h | h | h | h
  · simp [h, show i < 16 by omega, show i < 24 by omega]
  · simp [h, show ¬i < 8 by omega, show i < 24 by omega, show i - 8 < 8 by omega,
      show 8 + (i - 8) = i by omega, BitVec.getLsbD_eq_getElem hi]
  · simp [show ¬i < 8 by omega, show ¬i < 16 by omega, show i < 24 by omega, show ¬i - 8 < 8 by omega,
      show i - 16 < 8 by omega, show 16 + (i - 16) = i by omega, BitVec.getLsbD_eq_getElem hi]
  · simp [show ¬i < 8 by omega, show ¬i < 16 by omega, show ¬i < 24 by omega, show ¬i - 8 < 8 by omega,
      show ¬i - 16 < 8 by omega, show i - 24 < 8 by omega, show 24 + (i - 24) = i by omega,
      BitVec.getLsbD_eq_getElem hi]

/-- Four bytes are the bytes of some word. -/
theorem exists_word (b0 b1 b2 b3 : Byte) : ∃ w : Word,
    b0 = (w >>> 24).setWidth 8 ∧ b1 = (w >>> 16).setWidth 8 ∧ b2 = (w >>> 8).setWidth 8 ∧ b3 = w.setWidth 8 := by
  have h0 := b0.isLt
  have h1 := b1.isLt
  have h2 := b2.isLt
  have h3 := b3.isLt
  have h : (shiftIn (shiftIn (shiftIn (shiftIn 0#32 b0) b1) b2) b3).toNat =
      b0.toNat * 2 ^ 24 + b1.toNat * 2 ^ 16 + b2.toNat * 2 ^ 8 + b3.toNat := by
    simp only [shiftIn_toNat, BitVec.toNat_ofNat]
    omega
  refine ⟨shiftIn (shiftIn (shiftIn (shiftIn 0#32 b0) b1) b2) b3, ?_, ?_, ?_, ?_⟩ <;> apply BitVec.eq_of_toNat_eq
  · rw [byteOf_toNat, h]; omega
  · rw [byteOf_toNat, h]; omega
  · rw [byteOf_toNat, h]; omega
  · rw [BitVec.toNat_setWidth, h]; omega

/-- The bytes of a big-endian field in stream order are the four it was read from (30_encoding.md R62). -/
theorem bytesOfWord_be32 (b0 b1 b2 b3 : Byte) : bytesOfWord (be32 b0 b1 b2 b3) = [b0, b1, b2, b3] := by
  obtain ⟨w, rfl, rfl, rfl, rfl⟩ := exists_word b0 b1 b2 b3
  rw [be32_bytes]
  rfl

@[simp] theorem decodeFilter_encodeFilter (t : FilterType) : decodeFilter (encodeFilter t) = some t := by
  cases t <;> rfl

/-- The legal filter bytes are 0 to 4 (30_encoding.md R67, R68). -/
theorem decodeFilter_isSome_iff (f : Byte) : (decodeFilter f).isSome = true ↔ f.toNat ≤ 4 := by
  revert f; decide

theorem decodeFilter_eq_none_iff (f : Byte) : decodeFilter f = none ↔ 4 < f.toNat := by
  revert f; decide

/-- A legal filter byte is the encoding of its filter type. -/
theorem encodeFilter_of_decode {f : Byte} {t : FilterType} (h : decodeFilter f = some t) : f = encodeFilter t := by
  revert h; revert f; cases t <;> decide

@[simp] theorem decode_record (cfg : Config) (tag : Word) : decode cfg (.record tag) = .ok (decodeTag cfg tag) := rfl

theorem decode_row_some {f : Byte} {t : FilterType} (cfg : Config) (x : Byte) (h : decodeFilter f = some t) :
    decode cfg (.row f x) = .ok (filterInstr x t) := by
  simp [decode, h]

theorem decode_row_none {f : Byte} (cfg : Config) (x : Byte) (h : decodeFilter f = none) :
    decode cfg (.row f x) = .error (.unknownFilterType f) := by
  simp [decode, h]

@[simp] theorem decode_command (cfg : Config) (index : Nat) (v : Word) :
    decode cfg (.command index v) = decodeCmd index v := rfl

theorem decodeCtrl_clear {v : Word} (clear start : Instr) (index : Nat) (h : v.getLsbD 1 = true) :
    decodeCtrl clear start index v = .ok clear := by
  rw [decodeCtrl, if_pos h]

theorem decodeCtrl_start {v : Word} (clear start : Instr) (index : Nat) (h : v.getLsbD 1 = false)
    (h' : v.getLsbD 0 = true) : decodeCtrl clear start index v = .ok start := by
  rw [decodeCtrl, if_neg (by rw [h]; exact Bool.false_ne_true), if_pos h']

theorem decodeCtrl_neither {v : Word} (clear start : Instr) (index : Nat) (h : v.getLsbD 1 = false)
    (h' : v.getLsbD 0 = false) : decodeCtrl clear start index v = .error (.noOperation index) := by
  rw [decodeCtrl, if_neg (by rw [h]; exact Bool.false_ne_true), if_neg (by rw [h']; exact Bool.false_ne_true)]

theorem decodeTag_end {cfg : Config} {tag : Word} (h : tag = cfg.tagEnd) : decodeTag cfg tag = .recEnd := by
  simp [decodeTag, h]

theorem decodeTag_idat {cfg : Config} {tag : Word} (h : tag ≠ cfg.tagEnd) (h' : tag = cfg.tagIdat) :
    decodeTag cfg tag = .recIdat := by
  simp only [decodeTag, if_neg h, if_pos h']

theorem decodeTag_other {cfg : Config} {tag : Word} (h : tag ≠ cfg.tagEnd) (h' : tag ≠ cfg.tagIdat) :
    decodeTag cfg tag = .recOther tag := by
  simp only [decodeTag, if_neg h, if_neg h']

end Sys2Proof
end

