-- ==== Sys2Proof/Laws/Crc.lean ====
section
/-! SUPPORT. The checksum's algebra: the shift step is linear over XOR, and injective when the polynomial's top bit is 1. -/

namespace Sys2Proof.Machine

/-- One turn of the loop of R90 is linear over XOR. -/
theorem crcShift_xor (p x y : Word) : crcShift p (x ^^^ y) = crcShift p x ^^^ crcShift p y := by
  unfold crcShift
  rw [BitVec.getLsbD_xor, BitVec.ushiftRight_xor_distrib]
  cases hx : x.getLsbD 0 <;> cases hy : y.getLsbD 0 <;>
    simp only [Bool.false_bne, Bool.true_bne, Bool.not_true, Bool.not_false, if_true, if_false, Bool.false_eq_true]
  · ac_rfl
  · ac_rfl
  · have : p ^^^ x >>> 1 ^^^ (p ^^^ y >>> 1) = (p ^^^ p) ^^^ (x >>> 1 ^^^ y >>> 1) := by ac_rfl
    simp [this]

theorem crcShifts_xor (p : Word) (n : Nat) (x y : Word) :
    crcShifts p n (x ^^^ y) = crcShifts p n x ^^^ crcShifts p n y := by
  induction n generalizing x y with
  | zero => rfl
  | succ n ih => simp only [crcShifts, crcShift_xor, ih]

@[simp] theorem crcShift_zero (p : Word) : crcShift p 0#32 = 0#32 := by simp [crcShift]

@[simp] theorem crcShifts_zero (p : Word) (n : Nat) : crcShifts p n 0#32 = 0#32 := by
  induction n with
  | zero => rfl
  | succ n ih => simpa [crcShifts] using ih

/-- While only zeros are shifted out, the loop is a plain shift. -/
theorem crcShifts_low_zero (p : Word) (n : Nat) (x : Word) (h : ∀ i, i < n → x.getLsbD i = false) :
    crcShifts p n x = x >>> n := by
  induction n generalizing x with
  | zero => simp [crcShifts]
  | succ n ih =>
    have h0 : crcShift p x = x >>> 1 := by
      unfold crcShift
      rw [h 0 (Nat.succ_pos n), if_neg Bool.false_ne_true]
    rw [crcShifts, h0, ih, ← BitVec.shiftRight_add, Nat.add_comm]
    intro i hi
    rw [BitVec.getLsbD_ushiftRight, Nat.add_comm]
    exact h (i + 1) (by omega)

/-- With a polynomial whose top bit is 1 only 0 shifts to 0: the bit shifted out shows in the top bit. -/
theorem crcShift_eq_zero {p x : Word} (hp : p.getLsbD 31 = true) (h : crcShift p x = 0#32) : x = 0#32 := by
  unfold crcShift at h
  split at h
  · have := congrArg (fun w => w.getLsbD 31) h
    rw [BitVec.getLsbD_eq_getElem (by decide)] at hp
    simp [hp] at this
  · rename_i h0
    ext i hi
    rcases i with _ | j
    · rw [← BitVec.getLsbD_eq_getElem hi]
      simpa using h0
    · have := congrArg (fun w => w.getLsbD j) h
      rw [← BitVec.getLsbD_eq_getElem hi]
      simpa [BitVec.getLsbD_ushiftRight, Nat.add_comm] using this

theorem crcShifts_eq_zero {p : Word} (hp : p.getLsbD 31 = true) {n : Nat} {x : Word} (h : crcShifts p n x = 0#32) :
    x = 0#32 := by
  induction n generalizing x with
  | zero => exact h
  | succ n ih => exact crcShift_eq_zero hp (ih h)

/-- The shifts lose nothing. -/
theorem crcShifts_injective {p : Word} (hp : p.getLsbD 31 = true) {n : Nat} {x y : Word}
    (h : crcShifts p n x = crcShifts p n y) : x = y := by
  have : crcShifts p n (x ^^^ y) = 0#32 := by rw [crcShifts_xor, h, BitVec.xor_self]
  have := crcShifts_eq_zero hp this
  simpa using BitVec.xor_eq_zero_iff.mp this

/-- Running over two byte sequences in a row. -/
theorem crcRun_append (cfg : Config) (c : Word) (m n : List Byte) :
    crcRun cfg c (m ++ n) = crcRun cfg (crcRun cfg c m) n := by
  induction m generalizing c with
  | nil => rfl
  | cons b m ih => exact ih _

@[simp] theorem crcRun_nil (cfg : Config) (c : Word) : crcRun cfg c [] = c := rfl

@[simp] theorem crcRun_cons (cfg : Config) (c : Word) (b : Byte) (m : List Byte) :
    crcRun cfg c (b :: m) = crcRun cfg (crcUpdate cfg c b) m := rfl

end Sys2Proof.Machine
end

