-- ==== Sys2Proof/Laws/Memory.lean ====
section
/-! SUPPORT. The laws of the pixel memory: read after write, and the canonical form. -/

namespace Sys2Proof.Machine

@[simp] theorem Memory.read_nil (a : Nat) : Memory.read [] a = none := rfl

/-- A read after a write to the same address gives the byte written (20_memory.md R42). -/
@[simp] theorem Memory.read_write_same (m : Memory) (a : Nat) (v : Byte) : Memory.read (Memory.write m a v) a = some v := by
  induction m with
  | nil => simp [Memory.write, Memory.read]
  | cons e rest ih =>
    obtain ⟨b, w⟩ := e
    unfold Memory.write
    split
    · simp [Memory.read]
    · split
      · simp [Memory.read]
      · rename_i h
        simp [Memory.read, h, ih]

/-- A write leaves every other address alone. -/
theorem Memory.read_write_other (m : Memory) {a b : Nat} (v : Byte) (h : b ≠ a) :
    Memory.read (Memory.write m a v) b = Memory.read m b := by
  induction m with
  | nil => simp [Memory.write, Memory.read, h]
  | cons e rest ih =>
    obtain ⟨c, w⟩ := e
    unfold Memory.write
    split
    · simp [Memory.read, h]
    · split
      · rename_i hac
        subst hac
        simp [Memory.read, h]
      · simp [Memory.read, ih]

/-- Reading after a write, in one form. -/
theorem Memory.read_write (m : Memory) (a b : Nat) (v : Byte) :
    Memory.read (Memory.write m a v) b = if b = a then some v else Memory.read m b := by
  split
  · subst b; simp
  · exact Memory.read_write_other m v ‹_›

theorem Memory.risingFrom_mono {lo hi : Nat} (h : lo ≤ hi) {m : Memory} (w : Memory.risingFrom hi m = true) :
    Memory.risingFrom lo m = true := by
  cases m with
  | nil => rfl
  | cons e rest =>
    simp only [Memory.risingFrom, Bool.and_eq_true, decide_eq_true_eq] at w ⊢
    exact ⟨by omega, w.2⟩

/-- A write keeps the addresses rising from a bound it does not go below. -/
theorem Memory.risingFrom_write {lo a : Nat} (h : lo ≤ a) (v : Byte) {m : Memory} (w : Memory.risingFrom lo m = true) :
    Memory.risingFrom lo (Memory.write m a v) = true := by
  induction m generalizing lo with
  | nil => simp [Memory.write, Memory.risingFrom, h]
  | cons e rest ih =>
    obtain ⟨b, u⟩ := e
    simp only [Memory.risingFrom, Bool.and_eq_true, decide_eq_true_eq] at w
    unfold Memory.write
    split
    · simp only [Memory.risingFrom, Bool.and_eq_true, decide_eq_true_eq]
      exact ⟨h, by omega, w.2⟩
    · split
      · rename_i hab
        subst hab
        simp only [Memory.risingFrom, Bool.and_eq_true, decide_eq_true_eq]
        exact ⟨h, w.2⟩
      · simp only [Memory.risingFrom, Bool.and_eq_true, decide_eq_true_eq]
        exact ⟨w.1, ih (by omega) w.2⟩

/-- Every write keeps the canonical form. -/
theorem Memory.wf_write {m : Memory} (w : Memory.wf m = true) (a : Nat) (v : Byte) :
    Memory.wf (Memory.write m a v) = true :=
  Memory.risingFrom_write (Nat.zero_le a) v w

/-- Reset memory has the canonical form. -/
theorem Memory.wf_nil : Memory.wf [] = true := rfl

theorem Memory.wf_reset : Memory.wf State.reset.pix = true := rfl

/-- No address below the bound is listed. -/
theorem Memory.read_below {lo a : Nat} {m : Memory} (w : Memory.risingFrom lo m = true) (h : a < lo) :
    Memory.read m a = none := by
  induction m generalizing lo with
  | nil => rfl
  | cons e rest ih =>
    obtain ⟨b, u⟩ := e
    simp only [Memory.risingFrom, Bool.and_eq_true, decide_eq_true_eq] at w
    have : a ≠ b := by omega
    simp only [Memory.read, this, if_false]
    exact ih w.2 (by omega)

theorem Memory.ext_from {lo : Nat} {m n : Memory} (wm : Memory.risingFrom lo m = true) (wn : Memory.risingFrom lo n = true)
    (h : ∀ a, Memory.read m a = Memory.read n a) : m = n := by
  induction m generalizing lo n with
  | nil =>
    cases n with
    | nil => rfl
    | cons e rest => have := h e.1; simp [Memory.read] at this
  | cons e rest ih =>
    cases n with
    | nil => have := h e.1; simp [Memory.read] at this
    | cons f more =>
      obtain ⟨b, u⟩ := e
      obtain ⟨c, v⟩ := f
      simp only [Memory.risingFrom, Bool.and_eq_true, decide_eq_true_eq] at wm wn
      have hb := h b
      have hc := h c
      rcases Nat.lt_trichotomy b c with lt | eq | gt
      · have : Memory.read more b = none := Memory.read_below wn.2 (by omega)
        simp [Memory.read, this, Nat.ne_of_lt lt] at hb
      · subst eq
        simp only [Memory.read, if_true] at hb
        cases hb
        congr 1
        refine ih wm.2 wn.2 fun a => ?_
        by_cases hab : a = b
        · subst hab
          rw [Memory.read_below wm.2 (Nat.lt_succ_self _), Memory.read_below wn.2 (Nat.lt_succ_self _)]
        · have := h a
          simpa [Memory.read, hab] using this
      · have : Memory.read rest c = none := Memory.read_below wm.2 (by omega)
        simp [Memory.read, this, Nat.ne_of_lt gt] at hc

/-- Memories in canonical form that read alike are equal. -/
theorem Memory.ext {m n : Memory} (wm : Memory.wf m = true) (wn : Memory.wf n = true)
    (h : ∀ a, Memory.read m a = Memory.read n a) : m = n :=
  Memory.ext_from wm wn h

end Sys2Proof.Machine
end

