-- ==== Sys2Proof/Laws/State.lean ====
section
/-! SUPPORT. One lemma per field per update of State, each true by rfl, so that no proof unfolds a record update. -/

namespace Sys2Proof.Machine

@[simp] theorem State.setCrcv_cfg (s : State) (u : Crcv) : (s.setCrcv u).cfg = s.cfg := rfl
@[simp] theorem State.setCrcv_crcv (s : State) (u : Crcv) : (s.setCrcv u).crcv = u := rfl
@[simp] theorem State.setCrcv_recon (s : State) (u : Crcv) : (s.setCrcv u).recon = s.recon := rfl
@[simp] theorem State.setCrcv_pix (s : State) (u : Crcv) : (s.setCrcv u).pix = s.pix := rfl
@[simp] theorem State.setCrcv_crcvIn (s : State) (u : Crcv) : (s.setCrcv u).crcvIn = s.crcvIn := rfl
@[simp] theorem State.setCrcv_reconIn (s : State) (u : Crcv) : (s.setCrcv u).reconIn = s.reconIn := rfl
@[simp] theorem State.setCrcv_agenda (s : State) (u : Crcv) : (s.setCrcv u).agenda = s.agenda := rfl
@[simp] theorem State.setCrcv_seen (s : State) (u : Crcv) : (s.setCrcv u).seen = s.seen := rfl

@[simp] theorem State.setRecon_cfg (s : State) (u : Recon) : (s.setRecon u).cfg = s.cfg := rfl
@[simp] theorem State.setRecon_crcv (s : State) (u : Recon) : (s.setRecon u).crcv = s.crcv := rfl
@[simp] theorem State.setRecon_recon (s : State) (u : Recon) : (s.setRecon u).recon = u := rfl
@[simp] theorem State.setRecon_pix (s : State) (u : Recon) : (s.setRecon u).pix = s.pix := rfl
@[simp] theorem State.setRecon_crcvIn (s : State) (u : Recon) : (s.setRecon u).crcvIn = s.crcvIn := rfl
@[simp] theorem State.setRecon_reconIn (s : State) (u : Recon) : (s.setRecon u).reconIn = s.reconIn := rfl
@[simp] theorem State.setRecon_agenda (s : State) (u : Recon) : (s.setRecon u).agenda = s.agenda := rfl
@[simp] theorem State.setRecon_seen (s : State) (u : Recon) : (s.setRecon u).seen = s.seen := rfl

@[simp] theorem State.setPort_crcv_cfg (s : State) (p : Port) : (s.setPort .crcv p).cfg = s.cfg := rfl
@[simp] theorem State.setPort_crcv_crcv (s : State) (p : Port) : (s.setPort .crcv p).crcv = s.crcv := rfl
@[simp] theorem State.setPort_crcv_recon (s : State) (p : Port) : (s.setPort .crcv p).recon = s.recon := rfl
@[simp] theorem State.setPort_crcv_pix (s : State) (p : Port) : (s.setPort .crcv p).pix = s.pix := rfl
@[simp] theorem State.setPort_crcv_crcvIn (s : State) (p : Port) : (s.setPort .crcv p).crcvIn = p := rfl
@[simp] theorem State.setPort_crcv_reconIn (s : State) (p : Port) : (s.setPort .crcv p).reconIn = s.reconIn := rfl
@[simp] theorem State.setPort_crcv_agenda (s : State) (p : Port) : (s.setPort .crcv p).agenda = s.agenda := rfl
@[simp] theorem State.setPort_crcv_seen (s : State) (p : Port) : (s.setPort .crcv p).seen = s.seen := rfl

@[simp] theorem State.popItem_crcv_cfg (s : State) : (s.popItem .crcv).cfg = s.cfg := rfl
@[simp] theorem State.popItem_crcv_crcv (s : State) : (s.popItem .crcv).crcv = s.crcv := rfl
@[simp] theorem State.popItem_crcv_recon (s : State) : (s.popItem .crcv).recon = s.recon := rfl
@[simp] theorem State.popItem_crcv_pix (s : State) : (s.popItem .crcv).pix = s.pix := rfl
@[simp] theorem State.popItem_crcv_crcvIn (s : State) : (s.popItem .crcv).crcvIn = { s.crcvIn with items := s.crcvIn.items.tail } := rfl
@[simp] theorem State.popItem_crcv_reconIn (s : State) : (s.popItem .crcv).reconIn = s.reconIn := rfl
@[simp] theorem State.popItem_crcv_agenda (s : State) : (s.popItem .crcv).agenda = s.agenda := rfl
@[simp] theorem State.popItem_crcv_seen (s : State) : (s.popItem .crcv).seen = s.seen := rfl

@[simp] theorem State.drainPort_crcv_cfg (s : State) : (s.drainPort .crcv).cfg = s.cfg := rfl
@[simp] theorem State.drainPort_crcv_crcv (s : State) : (s.drainPort .crcv).crcv = s.crcv := rfl
@[simp] theorem State.drainPort_crcv_recon (s : State) : (s.drainPort .crcv).recon = s.recon := rfl
@[simp] theorem State.drainPort_crcv_pix (s : State) : (s.drainPort .crcv).pix = s.pix := rfl
@[simp] theorem State.drainPort_crcv_crcvIn (s : State) : (s.drainPort .crcv).crcvIn = { s.crcvIn with items := [] } := rfl
@[simp] theorem State.drainPort_crcv_reconIn (s : State) : (s.drainPort .crcv).reconIn = s.reconIn := rfl
@[simp] theorem State.drainPort_crcv_agenda (s : State) : (s.drainPort .crcv).agenda = s.agenda := rfl
@[simp] theorem State.drainPort_crcv_seen (s : State) : (s.drainPort .crcv).seen = s.seen := rfl

@[simp] theorem State.setPort_recon_cfg (s : State) (p : Port) : (s.setPort .recon p).cfg = s.cfg := rfl
@[simp] theorem State.setPort_recon_crcv (s : State) (p : Port) : (s.setPort .recon p).crcv = s.crcv := rfl
@[simp] theorem State.setPort_recon_recon (s : State) (p : Port) : (s.setPort .recon p).recon = s.recon := rfl
@[simp] theorem State.setPort_recon_pix (s : State) (p : Port) : (s.setPort .recon p).pix = s.pix := rfl
@[simp] theorem State.setPort_recon_crcvIn (s : State) (p : Port) : (s.setPort .recon p).crcvIn = s.crcvIn := rfl
@[simp] theorem State.setPort_recon_reconIn (s : State) (p : Port) : (s.setPort .recon p).reconIn = p := rfl
@[simp] theorem State.setPort_recon_agenda (s : State) (p : Port) : (s.setPort .recon p).agenda = s.agenda := rfl
@[simp] theorem State.setPort_recon_seen (s : State) (p : Port) : (s.setPort .recon p).seen = s.seen := rfl

@[simp] theorem State.popItem_recon_cfg (s : State) : (s.popItem .recon).cfg = s.cfg := rfl
@[simp] theorem State.popItem_recon_crcv (s : State) : (s.popItem .recon).crcv = s.crcv := rfl
@[simp] theorem State.popItem_recon_recon (s : State) : (s.popItem .recon).recon = s.recon := rfl
@[simp] theorem State.popItem_recon_pix (s : State) : (s.popItem .recon).pix = s.pix := rfl
@[simp] theorem State.popItem_recon_crcvIn (s : State) : (s.popItem .recon).crcvIn = s.crcvIn := rfl
@[simp] theorem State.popItem_recon_reconIn (s : State) : (s.popItem .recon).reconIn = { s.reconIn with items := s.reconIn.items.tail } := rfl
@[simp] theorem State.popItem_recon_agenda (s : State) : (s.popItem .recon).agenda = s.agenda := rfl
@[simp] theorem State.popItem_recon_seen (s : State) : (s.popItem .recon).seen = s.seen := rfl

@[simp] theorem State.drainPort_recon_cfg (s : State) : (s.drainPort .recon).cfg = s.cfg := rfl
@[simp] theorem State.drainPort_recon_crcv (s : State) : (s.drainPort .recon).crcv = s.crcv := rfl
@[simp] theorem State.drainPort_recon_recon (s : State) : (s.drainPort .recon).recon = s.recon := rfl
@[simp] theorem State.drainPort_recon_pix (s : State) : (s.drainPort .recon).pix = s.pix := rfl
@[simp] theorem State.drainPort_recon_crcvIn (s : State) : (s.drainPort .recon).crcvIn = s.crcvIn := rfl
@[simp] theorem State.drainPort_recon_reconIn (s : State) : (s.drainPort .recon).reconIn = { s.reconIn with items := [] } := rfl
@[simp] theorem State.drainPort_recon_agenda (s : State) : (s.drainPort .recon).agenda = s.agenda := rfl
@[simp] theorem State.drainPort_recon_seen (s : State) : (s.drainPort .recon).seen = s.seen := rfl

@[simp] theorem State.popMove_cfg (s : State) : (s.popMove).cfg = s.cfg := rfl
@[simp] theorem State.popMove_crcv (s : State) : (s.popMove).crcv = s.crcv := rfl
@[simp] theorem State.popMove_recon (s : State) : (s.popMove).recon = s.recon := rfl
@[simp] theorem State.popMove_pix (s : State) : (s.popMove).pix = s.pix := rfl
@[simp] theorem State.popMove_crcvIn (s : State) : (s.popMove).crcvIn = s.crcvIn := rfl
@[simp] theorem State.popMove_reconIn (s : State) : (s.popMove).reconIn = s.reconIn := rfl
@[simp] theorem State.popMove_agenda (s : State) : (s.popMove).agenda = s.agenda.tail := rfl
@[simp] theorem State.popMove_seen (s : State) : (s.popMove).seen = s.seen := rfl

@[simp] theorem State.observe_cfg (s : State) (o : Observation) : (s.observe o).cfg = s.cfg := rfl
@[simp] theorem State.observe_crcv (s : State) (o : Observation) : (s.observe o).crcv = s.crcv := rfl
@[simp] theorem State.observe_recon (s : State) (o : Observation) : (s.observe o).recon = s.recon := rfl
@[simp] theorem State.observe_pix (s : State) (o : Observation) : (s.observe o).pix = s.pix := rfl
@[simp] theorem State.observe_crcvIn (s : State) (o : Observation) : (s.observe o).crcvIn = s.crcvIn := rfl
@[simp] theorem State.observe_reconIn (s : State) (o : Observation) : (s.observe o).reconIn = s.reconIn := rfl
@[simp] theorem State.observe_agenda (s : State) (o : Observation) : (s.observe o).agenda = s.agenda := rfl
@[simp] theorem State.observe_seen (s : State) (o : Observation) : (s.observe o).seen = o :: s.seen := rfl

@[simp] theorem Port.push_items (p : Port) (item : Item) : (p.push item).items = p.items ++ [item] := rfl
@[simp] theorem Port.afterClear_items (p : Port) : p.afterClear.items = p.items := rfl

/-- A `CLEAR` or a reset leaves no gate shut. -/
theorem Port.afterClear_gate (p : Port) : p.afterClear.gate ≠ .shut := by
  unfold Port.afterClear
  split <;> simp

/-- When a port takes an item. -/
theorem Port.accepts_iff (p : Port) : p.accepts = true ↔ p.gate = .accepting ∨ (p.gate = .cleared ∧ p.items = []) := by
  unfold Port.accepts
  cases p.gate <;> simp

/-- A port whose gate is not shut takes an item once it is empty. -/
theorem Port.accepts_of_empty {p : Port} (hg : p.gate ≠ .shut) (hi : p.items = []) : p.accepts = true := by
  rw [Port.accepts_iff]
  cases h : p.gate <;> simp_all

@[simp] theorem State.resetUnits_cfg (s : State) : (s.resetUnits).cfg = s.cfg := rfl
@[simp] theorem State.resetUnits_crcv (s : State) : (s.resetUnits).crcv = Crcv.reset := rfl
@[simp] theorem State.resetUnits_recon (s : State) : (s.resetUnits).recon = Recon.reset := rfl
@[simp] theorem State.resetUnits_pix (s : State) : (s.resetUnits).pix = [] := rfl
@[simp] theorem State.resetUnits_crcvIn (s : State) : (s.resetUnits).crcvIn = s.crcvIn.afterClear := rfl
@[simp] theorem State.resetUnits_reconIn (s : State) : (s.resetUnits).reconIn = s.reconIn.afterClear := rfl
@[simp] theorem State.resetUnits_agenda (s : State) : (s.resetUnits).agenda = s.agenda := rfl
@[simp] theorem State.resetUnits_seen (s : State) : (s.resetUnits).seen = s.seen := rfl

@[simp] theorem State.clearCrcv_cfg (s : State) : (s.clearCrcv).cfg = s.cfg := rfl
@[simp] theorem State.clearCrcv_crcv (s : State) : (s.clearCrcv).crcv = Crcv.reset := rfl
@[simp] theorem State.clearCrcv_recon (s : State) : (s.clearCrcv).recon = s.recon := rfl
@[simp] theorem State.clearCrcv_pix (s : State) : (s.clearCrcv).pix = s.pix := rfl
@[simp] theorem State.clearCrcv_crcvIn (s : State) : (s.clearCrcv).crcvIn = s.crcvIn.afterClear := rfl
@[simp] theorem State.clearCrcv_reconIn (s : State) : (s.clearCrcv).reconIn = s.reconIn := rfl
@[simp] theorem State.clearCrcv_agenda (s : State) : (s.clearCrcv).agenda = s.agenda := rfl
@[simp] theorem State.clearCrcv_seen (s : State) : (s.clearCrcv).seen = s.seen := rfl

@[simp] theorem State.clearRecon_cfg (s : State) : (s.clearRecon).cfg = s.cfg := rfl
@[simp] theorem State.clearRecon_crcv (s : State) : (s.clearRecon).crcv = s.crcv := rfl
@[simp] theorem State.clearRecon_recon (s : State) : (s.clearRecon).recon = { Recon.reset with width := s.recon.width, height := s.recon.height } := rfl
@[simp] theorem State.clearRecon_pix (s : State) : (s.clearRecon).pix = s.pix := rfl
@[simp] theorem State.clearRecon_crcvIn (s : State) : (s.clearRecon).crcvIn = s.crcvIn := rfl
@[simp] theorem State.clearRecon_reconIn (s : State) : (s.clearRecon).reconIn = s.reconIn.afterClear := rfl
@[simp] theorem State.clearRecon_agenda (s : State) : (s.clearRecon).agenda = s.agenda := rfl
@[simp] theorem State.clearRecon_seen (s : State) : (s.clearRecon).seen = s.seen := rfl

@[simp] theorem advancePos_cfg (s : State) : (advancePos s).cfg = s.cfg := rfl
@[simp] theorem advancePos_crcv (s : State) : (advancePos s).crcv = { s.crcv with pos := s.crcv.pos + 1#64 } := rfl
@[simp] theorem advancePos_recon (s : State) : (advancePos s).recon = s.recon := rfl
@[simp] theorem advancePos_pix (s : State) : (advancePos s).pix = s.pix := rfl
@[simp] theorem advancePos_crcvIn (s : State) : (advancePos s).crcvIn = s.crcvIn := rfl
@[simp] theorem advancePos_reconIn (s : State) : (advancePos s).reconIn = s.reconIn := rfl
@[simp] theorem advancePos_agenda (s : State) : (advancePos s).agenda = s.agenda := rfl
@[simp] theorem advancePos_seen (s : State) : (advancePos s).seen = s.seen := rfl

@[simp] theorem State.setCrcv_setCrcv (s : State) (u v : Crcv) : (s.setCrcv u).setCrcv v = s.setCrcv v := rfl
@[simp] theorem State.setRecon_setRecon (s : State) (u v : Recon) : (s.setRecon u).setRecon v = s.setRecon v := rfl
@[simp] theorem State.port_crcv (s : State) : s.port .crcv = s.crcvIn := rfl
@[simp] theorem State.port_recon (s : State) : s.port .recon = s.reconIn := rfl

/-- A fault touches only the registers of the unit that raises it (60_exceptions.md R177). -/
@[simp] theorem State.raise_cfg (s : State) (e : UnitFault) : (s.raise e).cfg = s.cfg := by cases e <;> rfl
@[simp] theorem State.raise_pix (s : State) (e : UnitFault) : (s.raise e).pix = s.pix := by cases e <;> rfl
@[simp] theorem State.raise_crcvIn (s : State) (e : UnitFault) : (s.raise e).crcvIn = s.crcvIn := by cases e <;> rfl
@[simp] theorem State.raise_reconIn (s : State) (e : UnitFault) : (s.raise e).reconIn = s.reconIn := by cases e <;> rfl
@[simp] theorem State.raise_agenda (s : State) (e : UnitFault) : (s.raise e).agenda = s.agenda := by cases e <;> rfl
@[simp] theorem State.raise_seen (s : State) (e : UnitFault) : (s.raise e).seen = s.seen := by cases e <;> rfl
@[simp] theorem State.raise_crcvTruncated_crcv (s : State) :
    (s.raise .crcvTruncated).crcv = { s.crcv with phase := .fault, err := 2#4 } := rfl
@[simp] theorem State.raise_crcvTruncated_recon (s : State) : (s.raise .crcvTruncated).recon = s.recon := rfl
@[simp] theorem State.raise_checksumMismatch_crcv (s : State) (a b : Word) :
    (s.raise (.checksumMismatch a b)).crcv = { s.crcv with phase := .fault, err := 3#4, stored := a, computed := b } := rfl
@[simp] theorem State.raise_checksumMismatch_recon (s : State) (a b : Word) :
    (s.raise (.checksumMismatch a b)).recon = s.recon := rfl
@[simp] theorem State.raise_reconTruncated_crcv (s : State) : (s.raise .reconTruncated).crcv = s.crcv := rfl
@[simp] theorem State.raise_reconTruncated_recon (s : State) :
    (s.raise .reconTruncated).recon = { s.recon with phase := .fault, err := 2#4, errInfo := 0#8 } := rfl
@[simp] theorem State.raise_unknownFilterType_crcv (s : State) (f : Byte) :
    (s.raise (.unknownFilterType f)).crcv = s.crcv := rfl
@[simp] theorem State.raise_unknownFilterType_recon (s : State) (f : Byte) :
    (s.raise (.unknownFilterType f)).recon = { s.recon with phase := .fault, err := 9#4, errInfo := f, f := f } := rfl

end Sys2Proof.Machine
end

