-- ==== Sys2Proof/Laws/Operands.lean ====
section
/-! SUPPORT. What the operands and the write-back of a sample step do: when the accesses succeed, what a step that goes on
leaves, and the five operations as one operation over their predictors. -/

namespace Sys2Proof.Machine

theorem addMod256_eq_add (x p : Byte) : addMod256 x p = x + p := by
  apply BitVec.eq_of_toNat_eq
  simp [addMod256, BitVec.toNat_add]

/-- An address of a row above the height and a position below the stride is inside `PIX` (20_memory.md R47). -/
theorem Recon.addr_lt_pixBytes {u : Recon} {r c : Nat} (hr : r < u.height.toNat) (hc : c < u.stride) :
    u.addr r c < u.pixBytes := by
  have h : (r + 1) * u.stride ≤ u.height.toNat * u.stride := Nat.mul_le_mul_right _ hr
  rw [Nat.add_mul, Nat.one_mul] at h
  unfold Recon.addr Recon.pixBytes
  omega

/-- Addresses of one row lie in order. -/
theorem Recon.addr_lt_addr_same {u : Recon} {r c d : Nat} (h : c < d) : u.addr r c < u.addr r d := by
  unfold Recon.addr; omega

/-- Addresses of an earlier row lie below. -/
theorem Recon.addr_lt_addr_row {u : Recon} {q r c d : Nat} (h : q < r) (hc : c < u.stride) : u.addr q c < u.addr r d := by
  have h' : (q + 1) * u.stride ≤ r * u.stride := Nat.mul_le_mul_right _ h
  rw [Nat.add_mul, Nat.one_mul] at h'
  unfold Recon.addr
  omega

theorem State.pixLoad_of_read {s : State} {a : Nat} {b : Byte} (ha : a < s.recon.pixBytes)
    (h : Memory.read s.pix a = some b) : s.pixLoad a = .ok b := by
  simp [State.pixLoad, ha, h]

/-- A load that succeeds was of a listed byte inside the image. -/
theorem State.read_of_pixLoad {s : State} {a : Nat} {b : Byte} (h : s.pixLoad a = .ok b) :
    a < s.recon.pixBytes ∧ Memory.read s.pix a = some b := by
  unfold State.pixLoad at h
  split at h
  · split at h
    · cases h; exact ⟨‹_›, ‹_›⟩
    · cases h
  · cases h

theorem State.pixStore_of_lt {s : State} {a : Nat} (v : Byte) (ha : a < s.recon.pixBytes) :
    s.pixStore a v = .ok { s with pix := Memory.write s.pix a v } := by
  simp [State.pixStore, ha]

/-- The write-back inside the image. -/
theorem writeBack_of_lt {s : State} (v : Byte)
    (h : s.recon.addr s.recon.row.toNat s.recon.col.toNat < s.recon.pixBytes) :
    writeBack v s = .next { s with
      pix := Memory.write s.pix (s.recon.addr s.recon.row.toNat s.recon.col.toNat) v, recon := s.recon.advance } := by
  simp only [writeBack, State.pixStore_of_lt v h]
  rfl

/-- A write-back that goes on was inside the image. -/
theorem writeBack_next {s t : State} {v : Byte} (h : writeBack v s = .next t) :
    s.recon.addr s.recon.row.toNat s.recon.col.toNat < s.recon.pixBytes ∧
    t = { s with pix := Memory.write s.pix (s.recon.addr s.recon.row.toNat s.recon.col.toNat) v,
                 recon := s.recon.advance } := by
  by_cases hlt : s.recon.addr s.recon.row.toNat s.recon.col.toNat < s.recon.pixBytes
  · rw [writeBack_of_lt v hlt] at h
    cases h
    exact ⟨hlt, rfl⟩
  · simp [writeBack, State.pixStore, hlt] at h

/-- The predictor each filter type forms from the neighbours it reads (41_filter_reconstructor.md R124 to R128). -/
def State.predicted (s : State) : FilterType → Except Fault Byte
  | .none => .ok 0#8
  | .sub => s.neighbourA
  | .up => s.neighbourB
  | .avg => do return avgPredictor (← s.neighbourA) (← s.neighbourB)
  | .paeth => do return paeth (← s.neighbourA) (← s.neighbourB) (← s.neighbourC)

/-- The five filter operations are one, over their predictors. -/
theorem exec_filterInstr (x : Byte) (t : FilterType) (s : State) :
    exec (filterInstr x t) s = reconstruct (s.predicted t) x s := by
  cases t <;> rfl

theorem reconstruct_ok (p x : Byte) (s : State) : reconstruct (.ok p) x s = writeBack (addMod256 x p) s := rfl

/-- A sample step that goes on had its predictor, and wrote inside the image. -/
theorem reconstruct_next {pred : Except Fault Byte} {x : Byte} {s t : State} (h : reconstruct pred x s = .next t) :
    ∃ p, pred = .ok p ∧ s.recon.addr s.recon.row.toNat s.recon.col.toNat < s.recon.pixBytes ∧
      t = { s with
        pix := Memory.write s.pix (s.recon.addr s.recon.row.toNat s.recon.col.toNat) (addMod256 x p),
        recon := s.recon.advance } := by
  cases pred with
  | error e => cases h
  | ok p => exact ⟨p, rfl, writeBack_next h⟩

/-- The neighbours at hand give the predictor that `predictor` names. -/
theorem State.predicted_of_neighbours {s : State} {a b c : Byte} (ha : s.neighbourA = .ok a) (hb : s.neighbourB = .ok b)
    (hc : s.neighbourC = .ok c) (t : FilterType) : s.predicted t = .ok (predictor a b c t) := by
  cases t <;> simp [State.predicted, predictor, ha, hb, hc] <;> rfl

/-- Inside the image, with every earlier byte written, the three neighbours can be read (20_memory.md R48). -/
theorem State.neighbours_of_written {s : State} (hr : s.recon.row.toNat < s.recon.height.toNat)
    (hc : s.recon.col.toNat < s.recon.stride)
    (hw : ∀ a, a < s.recon.addr s.recon.row.toNat s.recon.col.toNat → (Memory.read s.pix a).isSome = true) :
    ∃ a b c, s.neighbourA = .ok a ∧ s.neighbourB = .ok b ∧ s.neighbourC = .ok c := by
  have load : ∀ a, a < s.recon.addr s.recon.row.toNat s.recon.col.toNat → ∃ v, s.pixLoad a = .ok v := fun a ha => by
    obtain ⟨v, hv⟩ := Option.isSome_iff_exists.mp (hw a ha)
    exact ⟨v, State.pixLoad_of_read (Nat.lt_trans ha (Recon.addr_lt_pixBytes hr hc)) hv⟩
  have hA : ∃ a, s.neighbourA = .ok a := by
    unfold State.neighbourA
    split
    · exact load _ (Recon.addr_lt_addr_same (by simp only [Config.bpp] at *; omega))
    · exact ⟨_, rfl⟩
  have hB : ∃ b, s.neighbourB = .ok b := by
    unfold State.neighbourB
    split
    · exact load _ (Recon.addr_lt_addr_row (by omega) hc)
    · exact ⟨_, rfl⟩
  have hC : ∃ c, s.neighbourC = .ok c := by
    unfold State.neighbourC
    split
    · exact load _ (Recon.addr_lt_addr_row (by omega) (by omega))
    · exact ⟨_, rfl⟩
  obtain ⟨a, ha⟩ := hA
  obtain ⟨b, hb⟩ := hB
  obtain ⟨c, hc⟩ := hC
  exact ⟨a, b, c, ha, hb, hc⟩

/-- Where the advance of R131 leaves RECON. -/
theorem Recon.advance_within {u : Recon} (h : u.col.toNat + 1 < u.stride) :
    u.advance = { u with col := u.col + 1#34 } := by
  simp [Recon.advance, h]

theorem Recon.advance_rowEnd {u : Recon} (h : ¬u.col.toNat + 1 < u.stride) : u.advance = u.rowEnd := by
  simp [Recon.advance, h]

@[simp] theorem Recon.advance_width (u : Recon) : u.advance.width = u.width := by unfold Recon.advance; split <;> rfl
@[simp] theorem Recon.advance_height (u : Recon) : u.advance.height = u.height := by unfold Recon.advance; split <;> rfl
@[simp] theorem Recon.advance_f (u : Recon) : u.advance.f = u.f := by unfold Recon.advance; split <;> rfl
@[simp] theorem Recon.advance_err (u : Recon) : u.advance.err = u.err := by unfold Recon.advance; split <;> rfl
@[simp] theorem Recon.advance_errInfo (u : Recon) : u.advance.errInfo = u.errInfo := by
  unfold Recon.advance; split <;> rfl

/-- The stride fits the 34 bits of `COL` (10_state.md R16, R19). -/
theorem Recon.stride_lt (u : Recon) : u.stride < 2 ^ 34 := by
  have := u.width.isLt
  simp only [Recon.stride, Config.bpp]
  omega

end Sys2Proof.Machine
end

