-- ==== Sys2Proof/Laws/Fetch.lean ====
section
/-! SUPPORT. What one move does, said once: the step's form for each agent, and what each agent's move can change. -/

namespace Sys2Proof.Machine

/-! ### The next move -/

theorem State.nextMove_cons {s : State} {m : Move} {moves : List Move} (h : s.agenda = m :: moves) :
    s.nextMove = some m := by
  simp [State.nextMove, h]

/-- With nothing listed, only a unit that has a step moves. -/
theorem State.nextMove_nil {s : State} (h : s.agenda = []) :
    s.nextMove = if s.crcvReady then some .crcv else if s.reconReady then some .recon else none := by
  simp [State.nextMove, h]

/-- When no move comes, nothing was listed. -/
theorem State.agenda_of_nextMove_none {s : State} (h : s.nextMove = none) : s.agenda = [] := by
  unfold State.nextMove at h
  split at h
  · cases h
  · assumption

/-! ### The form of a step -/

/-- What a step makes of a fetched move. -/
def finish : Host.Outcome (State × Option Encoded) Fault Refusal → Result
  | .next (t, some w) => runEncoded w t
  | .next (t, none) => .next t
  | .fault e => .fault e
  | .refused r => .refused r

theorem step_eq_finish (s : State) : step s = finish (fetch s) := by
  unfold step finish
  rcases fetch s with ⟨t, _ | w⟩ | e | r <;> rfl

theorem step_none {s : State} (h : s.nextMove = none) : step s = .next s := by
  simp [step, fetch, h]

theorem step_crcv {s : State} (h : s.nextMove = some .crcv) : step s = finish (.next (crcvFetch s.popMove)) := by
  rw [step_eq_finish, fetch, h]

theorem step_recon {s : State} (h : s.nextMove = some .recon) : step s = finish (.next (reconFetch s.popMove)) := by
  rw [step_eq_finish, fetch, h]

theorem step_host {s : State} {op : HostOp} (h : s.nextMove = some (.host op)) :
    step s = finish (hostMove op s.popMove) := by
  rw [step_eq_finish, fetch, h]

theorem runEncoded_record (tag : Word) (s : State) : runEncoded (.record tag) s = exec (decodeTag s.cfg tag) s := rfl

theorem runEncoded_row {f : Byte} {t : FilterType} (x : Byte) (s : State) (h : decodeFilter f = some t) :
    runEncoded (.row f x) s = exec (filterInstr x t) s := by
  simp [runEncoded, decode_row_some s.cfg x h]

theorem runEncoded_row_illegal {f : Byte} (x : Byte) (s : State) (h : decodeFilter f = none) :
    runEncoded (.row f x) s = .fault (.dataPhaseFilter f) := by
  simp [runEncoded, decode_row_none s.cfg x h, notAnOperation]

/-- Everything a register write can do (30_encoding.md R71; 10_state.md R23, R24). -/
theorem runEncoded_command_cases (index : Nat) (v : Word) (s : State) :
    (index = 0x00 ∧ v.getLsbD 1 = true ∧ runEncoded (.command index v) s = execCrcvClear s) ∨
    (index = 0x00 ∧ v.getLsbD 1 = false ∧ v.getLsbD 0 = true ∧ runEncoded (.command index v) s = execCrcvStart s) ∨
    (index = 0x10 ∧ v.getLsbD 1 = true ∧ runEncoded (.command index v) s = execReconClear s) ∨
    (index = 0x10 ∧ v.getLsbD 1 = false ∧ v.getLsbD 0 = true ∧ runEncoded (.command index v) s = execReconStart s) ∨
    (index = 0x14 ∧ runEncoded (.command index v) s = execCfgWidth v s) ∨
    (index = 0x15 ∧ runEncoded (.command index v) s = execCfgHeight v s) ∨
    ((index = 0x00 ∨ index = 0x10 → v.getLsbD 1 = false) ∧ runEncoded (.command index v) s = .next s) := by
  by_cases h0 : index = 0x00
  · subst h0
    have e : decode s.cfg (.command 0x00 v) = decodeCtrl .crcvClear .crcvStart 0x00 v := rfl
    cases h1 : v.getLsbD 1
    · cases h2 : v.getLsbD 0
      · exact .inr (.inr (.inr (.inr (.inr (.inr
          ⟨fun _ => rfl, by simp only [runEncoded, e, decodeCtrl_neither _ _ _ h1 h2, notAnOperation]⟩)))))
      · exact .inr (.inl ⟨rfl, rfl, rfl, by simp only [runEncoded, e, decodeCtrl_start _ _ _ h1 h2, exec]⟩)
    · exact .inl ⟨rfl, rfl, by simp only [runEncoded, e, decodeCtrl_clear _ _ _ h1, exec]⟩
  · by_cases h10 : index = 0x10
    · subst h10
      have e : decode s.cfg (.command 0x10 v) = decodeCtrl .reconClear .reconStart 0x10 v := rfl
      cases h1 : v.getLsbD 1
      · cases h2 : v.getLsbD 0
        · exact .inr (.inr (.inr (.inr (.inr (.inr
            ⟨fun _ => rfl, by simp only [runEncoded, e, decodeCtrl_neither _ _ _ h1 h2, notAnOperation]⟩)))))
        · exact .inr (.inr (.inr (.inl ⟨rfl, rfl, rfl, by simp only [runEncoded, e, decodeCtrl_start _ _ _ h1 h2, exec]⟩)))
      · exact .inr (.inr (.inl ⟨rfl, rfl, by simp only [runEncoded, e, decodeCtrl_clear _ _ _ h1, exec]⟩))
    · by_cases h14 : index = 0x14
      · subst h14; exact .inr (.inr (.inr (.inr (.inl ⟨rfl, rfl⟩))))
      · by_cases h15 : index = 0x15
        · subst h15; exact .inr (.inr (.inr (.inr (.inr (.inl ⟨rfl, rfl⟩)))))
        · cases h : readOnlyIndex index <;> simp [runEncoded, decodeCmd, h0, h10, h14, h15, h, notAnOperation]

/-! ### CRCV -/

/-- `Verify` of a record that passes (40_crc32_verifier.md R98). -/
theorem verify_pass {s : State} (h : s.crcv.crc ^^^ s.cfg.crcXorout = s.crcv.stored) :
    verify s = (s.setCrcv { s.crcv with computed := s.crcv.crc ^^^ s.cfg.crcXorout }, some (.record s.crcv.type)) :=
  if_pos h

/-- `Verify` of a record that does not (R98, R102). -/
theorem verify_fail {s : State} (h : s.crcv.crc ^^^ s.cfg.crcXorout ≠ s.crcv.stored) :
    verify s = ((s.setCrcv { s.crcv with computed := s.crcv.crc ^^^ s.cfg.crcXorout }).raise
      (.checksumMismatch s.crcv.stored (s.crcv.crc ^^^ s.cfg.crcXorout)), none) :=
  if_neg h

/-- CRCV's registers after the operation of a verified record. -/
def Crcv.completed (cfg : Config) (u : Crcv) : Crcv :=
  if u.type = cfg.tagEnd then u.complete .done
  else if u.type = cfg.tagIdat then { u.complete .len with nidat := u.nidat + 1#32 }
  else u.complete .len

/-- The operation of a verified record always goes on, and touches CRCV's registers alone (R99 to R101). -/
theorem runEncoded_record_type (s : State) :
    runEncoded (.record s.crcv.type) s = .next (s.setCrcv (s.crcv.completed s.cfg)) := by
  rw [runEncoded_record]
  unfold Crcv.completed
  by_cases h : s.crcv.type = s.cfg.tagEnd
  · rw [decodeTag_end h, if_pos h]; rfl
  · by_cases h' : s.crcv.type = s.cfg.tagIdat
    · rw [decodeTag_idat h h', if_neg h, if_pos h']; rfl
    · rw [decodeTag_other h h', if_neg h, if_neg h']; rfl

/-- CRCV's registers after `Verify` (R98) and, if the record passes, its operation. -/
def Crcv.verified (cfg : Config) (u : Crcv) : Crcv :=
  if u.crc ^^^ cfg.crcXorout = u.stored then
    Crcv.completed cfg { u with computed := u.crc ^^^ cfg.crcXorout }
  else { u with computed := u.crc ^^^ cfg.crcXorout, phase := .fault, err := 3#4 }

/-- CRCV's registers after a move that consumes a byte, the operation it completes included (R94 to R101, R104). -/
def Crcv.afterByte (cfg : Config) (b : Byte) (u : Crcv) : Crcv :=
  match u.phase with
  | .len =>
    if u.k.toNat < 3 then { u with len := shiftIn u.len b, k := u.k + 1#2, pos := u.pos + 1#64 }
    else { u with
      len := shiftIn u.len b, k := 0#2, rem := shiftIn u.len b, crc := cfg.crcInit, phase := .type,
      pos := u.pos + 1#64 }
  | .type =>
    if u.k.toNat < 3 then
      { u with type := shiftIn u.type b, crc := crcUpdate cfg u.crc b, k := u.k + 1#2, pos := u.pos + 1#64 }
    else { u with
      type := shiftIn u.type b, crc := crcUpdate cfg u.crc b, k := 0#2, paypos := u.pos + 1#64,
      phase := if u.len = 0#32 then .crc else .data, pos := u.pos + 1#64 }
  | .data =>
    if u.rem - 1#32 = 0#32 then
      { u with crc := crcUpdate cfg u.crc b, rem := u.rem - 1#32, phase := .crc, k := 0#2, pos := u.pos + 1#64 }
    else { u with crc := crcUpdate cfg u.crc b, rem := u.rem - 1#32, pos := u.pos + 1#64 }
  | .crc =>
    if u.k.toNat < 3 then { u with stored := shiftIn u.stored b, k := u.k + 1#2, pos := u.pos + 1#64 }
    else Crcv.verified cfg { u with stored := shiftIn u.stored b, k := 0#2, pos := u.pos + 1#64 }
  | .idle | .done | .fault => u

/-- CRCV's registers after a move that consumes an item. -/
def Crcv.afterItem (cfg : Config) (u : Crcv) : Item → Crcv
  | .byte b => u.afterByte cfg b
  | .eos => { u with phase := .fault, err := 2#4 }

/-- The whole effect of a CRCV move on registers and port items (R93). -/
def Crcv.move (cfg : Config) (u : Crcv) (items : List Item) : Crcv × List Item :=
  if u.phase.consuming then
    match items with
    | [] => (u, [])
    | i :: rest => (u.afterItem cfg i, rest)
  else (u, items)

theorem finish_verified (t : State) :
    finish (.next (advancePos t, some (.record t.crcv.type))) =
      .next ((advancePos t).setCrcv ((advancePos t).crcv.completed t.cfg)) :=
  runEncoded_record_type (advancePos t)

theorem finish_crcvByte {b : Byte} {s : State} (h : s.crcv.phase.consuming = true) :
    finish (.next (crcvByte b s)) = .next (s.setCrcv (s.crcv.afterByte s.cfg b)) := by
  cases hp : s.crcv.phase <;> simp only [hp, CrcvPhase.consuming, Bool.false_eq_true] at h
  · simp only [crcvByte, hp, finish, Crcv.afterByte, lenByte]
    split <;> rfl
  · simp only [crcvByte, hp, finish, Crcv.afterByte, typeByte]
    split <;> rfl
  · simp only [crcvByte, hp, finish, Crcv.afterByte, dataByte]
    split <;> simp [advancePos]
  · simp only [crcvByte, hp, Crcv.afterByte, crcByte]
    split
    · simp only [finish]
      rfl
    · simp only [verify, Crcv.verified]
      split
      · rename_i hk hv
        simp only [State.setCrcv_crcv, State.setCrcv_cfg] at hv
        rw [if_pos hv]
        exact finish_verified _
      · rename_i hk hv
        simp only [State.setCrcv_crcv, State.setCrcv_cfg] at hv
        rw [if_neg hv]
        rfl

/-- A CRCV move never stops the machine, and touches CRCV's registers and its port alone (10_state.md R10). -/
theorem step_crcv_eq {s : State} (h : s.nextMove = some .crcv) :
    step s = .next { s with
      agenda := s.agenda.tail, crcv := (s.crcv.move s.cfg s.crcvIn.items).1,
      crcvIn := { s.crcvIn with items := (s.crcv.move s.cfg s.crcvIn.items).2 } } := by
  rw [step_crcv h]
  unfold crcvFetch Crcv.move
  simp only [State.popMove_crcv, State.popMove_crcvIn]
  by_cases hc : s.crcv.phase.consuming = true
  · simp only [hc, if_true]
    cases hi : s.crcvIn.items with
    | nil =>
      have hport : ({ s.crcvIn with items := [] } : Port) = s.crcvIn := by rw [← hi]
      simp [finish, State.popMove, hport]
    | cons i rest =>
      cases i with
      | byte b =>
        simp only
        rw [finish_crcvByte (by simpa using hc)]
        simp [Crcv.afterItem, State.setCrcv, State.popItem, State.setPort, State.port, State.popMove, hi]
      | eos =>
        simp [finish, Crcv.afterItem, State.raise, State.setCrcv, State.popItem, State.setPort, State.port,
          State.popMove, hi, UnitFault.failure, Failure.code]
  · simp [hc, finish, State.popMove]

/-! ### RECON -/

/-- RECON's registers after the FTYPE step (41_filter_reconstructor.md R121). -/
def Recon.afterFilterByte (b : Byte) (u : Recon) : Recon :=
  if (decodeFilter b).isSome then { u with f := b, col := 0#34, phase := .data }
  else { u with f := b, phase := .fault, err := 9#4, errInfo := b }

/-- The state after a RECON move that is no sample step: RECON waits, takes a filter byte, or meets `EOS`. -/
def reconPlain (s : State) : State :=
  if s.recon.phase.consuming then
    match s.reconIn.items with
    | [] => s.popMove
    | .eos :: rest =>
      { s with
        agenda := s.agenda.tail, reconIn := { s.reconIn with items := rest },
        recon := { s.recon with phase := .fault, err := 2#4, errInfo := 0#8 } }
    | .byte b :: rest =>
      { s with
        agenda := s.agenda.tail, reconIn := { s.reconIn with items := rest }, recon := s.recon.afterFilterByte b }
  else s.popMove

/-- The state in which the operation of a sample step runs. -/
def reconSample (s : State) (rest : List Item) : State :=
  { s with agenda := s.agenda.tail, reconIn := { s.reconIn with items := rest } }

/-- A RECON move is a sample step under a filter byte, or is as `reconPlain` says. -/
theorem step_recon_plain {s : State} (h : s.nextMove = some .recon)
    (hp : ¬(s.recon.phase = .data ∧ ∃ x rest, s.reconIn.items = .byte x :: rest)) :
    step s = .next (reconPlain s) := by
  rw [step_recon h]
  unfold reconFetch reconPlain
  simp only [State.popMove_recon, State.popMove_reconIn]
  by_cases hc : s.recon.phase.consuming = true
  · simp only [hc, if_true]
    cases hi : s.reconIn.items with
    | nil => rfl
    | cons i rest =>
      cases i with
      | eos =>
        simp [finish, State.raise, State.setRecon, State.popItem, State.setPort, State.port, State.popMove, hi,
          UnitFault.failure, Failure.code]
      | byte b =>
        have hf : s.recon.phase = .ftype := by
          cases hq : s.recon.phase with
          | ftype => rfl
          | data => exact absurd ⟨hq, b, rest, hi⟩ hp
          | idle | done | fault => simp [hq, ReconPhase.consuming] at hc
        simp only [reconByte, State.popItem_recon_recon, State.popMove_recon, hf, finish, ftypeByte,
          Recon.afterFilterByte]
        cases hd : decodeFilter b <;>
          simp [State.raise, State.setRecon, State.popItem, State.setPort, State.port, State.popMove, hi,
            UnitFault.failure, Failure.code]
  · simp [hc, finish]

theorem step_recon_sample {s : State} {x : Byte} {rest : List Item} (h : s.nextMove = some .recon)
    (hp : s.recon.phase = .data) (hi : s.reconIn.items = .byte x :: rest) :
    step s = runEncoded (.row s.recon.f x) (reconSample s rest) := by
  rw [step_recon h]
  simp [reconFetch, reconByte, hp, hi, finish, ReconPhase.consuming, reconSample, State.popItem, State.setPort,
    State.port, State.popMove]

/-- What a RECON move leaves, and the one byte of `PIX` it can change (10_state.md R10; 20_memory.md R40, R42). -/
theorem step_recon_frame {s t : State} (hm : s.nextMove = some .recon) (h : step s = .next t) :
    t.cfg = s.cfg ∧ t.crcv = s.crcv ∧ t.crcvIn = s.crcvIn ∧ t.seen = s.seen ∧ t.agenda = s.agenda.tail ∧
    t.recon.width = s.recon.width ∧ t.recon.height = s.recon.height ∧
    (∀ a, Memory.read t.pix a ≠ Memory.read s.pix a →
      s.recon.phase = .data ∧ a = s.recon.addr s.recon.row.toNat s.recon.col.toNat) ∧
    (s.recon.phase.consuming = false → t.recon = s.recon) := by
  by_cases hp : s.recon.phase = .data ∧ ∃ x rest, s.reconIn.items = .byte x :: rest
  · obtain ⟨hd, x, rest, hi⟩ := hp
    rw [step_recon_sample hm hd hi] at h
    cases hf : decodeFilter s.recon.f with
    | none => rw [runEncoded_row_illegal _ _ hf] at h; cases h
    | some f =>
      rw [runEncoded_row _ _ hf, exec_filterInstr] at h
      obtain ⟨p, _, _, rfl⟩ := reconstruct_next h
      refine ⟨rfl, rfl, rfl, rfl, rfl, by simp [reconSample], by simp [reconSample], fun a ha => ⟨hd, ?_⟩,
        by simp [hd, ReconPhase.consuming]⟩
      by_contra hc
      exact ha (Memory.read_write_other _ _ hc)
  · rw [step_recon_plain hm hp] at h
    cases h
    unfold reconPlain Recon.afterFilterByte
    repeat' split
    all_goals
      refine ⟨rfl, rfl, rfl, rfl, rfl, rfl, rfl, fun a ha => absurd rfl ha, ?_⟩
      simp_all

/-! ### The host -/

theorem step_write {s : State} {index : Nat} {v : Word} (h : s.nextMove = some (.host (.write index v))) :
    step s = runEncoded (.command index v) s.popMove := by
  rw [step_host h]; rfl

theorem step_read {s : State} {index : Nat} (h : s.nextMove = some (.host (.read index))) :
    step s = .next (s.popMove.observe (.reg index (s.popMove.hostRead index))) := by
  rw [step_host h]; rfl

theorem step_pixRead {s : State} {a : Nat} (h : s.nextMove = some (.host (.pixRead a))) :
    step s = pixReadMove a s.popMove := by
  rw [step_host h]
  simp only [hostMove]
  cases pixReadMove a s.popMove <;> rfl

theorem step_push {s : State} {u : UnitId} {item : Item} (h : s.nextMove = some (.host (.push u item))) :
    step s = pushMove u item s.popMove := by
  rw [step_host h]
  simp only [hostMove]
  cases pushMove u item s.popMove <;> rfl

theorem step_push_accepted {s : State} {u : UnitId} {item : Item} (h : s.nextMove = some (.host (.push u item)))
    (ha : (s.port u).accepts = true) : step s = .next (s.popMove.setPort u ((s.port u).push item)) := by
  rw [step_push h]
  cases u <;> simp_all [pushMove, State.pushItem, State.port]

theorem step_push_refused {s : State} {u : UnitId} {item : Item} (h : s.nextMove = some (.host (.push u item)))
    (ha : (s.port u).accepts = false) : step s = .refused (.pushAfterEos u) := by
  rw [step_push h]
  cases u <;> simp_all [pushMove, State.pushItem, State.port]

/-- A push that goes on was accepted. -/
theorem step_push_next {s t : State} {u : UnitId} {item : Item} (h : s.nextMove = some (.host (.push u item)))
    (hs : step s = .next t) : (s.port u).accepts = true ∧ t = s.popMove.setPort u ((s.port u).push item) := by
  cases ha : (s.port u).accepts with
  | true =>
    rw [step_push_accepted h ha] at hs
    cases hs
    exact ⟨rfl, rfl⟩
  | false =>
    rw [step_push_refused h ha] at hs
    cases hs

theorem step_drain {s : State} {u : UnitId} (h : s.nextMove = some (.host (.drain u))) :
    step s = .next (s.popMove.drainPort u) := by
  rw [step_host h]; rfl

theorem step_reset {s : State} (h : s.nextMove = some (.host .reset)) : step s = .next s.popMove.resetUnits := by
  rw [step_host h]; rfl

/-! ### Runs -/

theorem run_zero (s : State) : Sys2Proof.core.run 0 s = .next s := rfl

theorem run_succ_next {s t : State} (n : Nat) (h : step s = .next t) :
    Sys2Proof.core.run (n + 1) s = Sys2Proof.core.run n t := by
  have h' : Sys2Proof.core.step s = .next t := h
  simp only [Host.Core.run, h']

theorem run_succ_fault {s : State} {e : Fault} (n : Nat) (h : step s = .fault e) :
    Sys2Proof.core.run (n + 1) s = .fault e := by
  have h' : Sys2Proof.core.step s = .fault e := h
  simp only [Host.Core.run, h']

theorem run_succ_refused {s : State} {r : Refusal} (n : Nat) (h : step s = .refused r) :
    Sys2Proof.core.run (n + 1) s = .refused r := by
  have h' : Sys2Proof.core.step s = .refused r := h
  simp only [Host.Core.run, h']

end Sys2Proof.Machine
end

