-- ==== Sys2Proof/Laws/Framing.lean ====
section
/-! SUPPORT. What framing a record off a byte sequence says: the bytes it took, and what is missing where it fails. -/

namespace Sys2Proof

theorem encodeRecord_length (r : Record) : (encodeRecord r).length = 12 + r.payload.length := by
  simp [encodeRecord]
  omega

/-- The four bytes after a stretch end it and begin what follows. -/
theorem take_of_drop {rest tail : List Byte} {n : Nat} {a b c d : Byte} (h : rest.drop n = a :: b :: c :: d :: tail) :
    (rest.take n).length = n ∧ rest = rest.take n ++ a :: b :: c :: d :: tail := by
  have := congrArg List.length h
  simp at this
  refine ⟨?_, ?_⟩
  · simp; omega
  · rw [← h, List.take_append_drop]

/-- A framed record is well-formed, and its bytes are those taken (30_encoding.md R61, R63). -/
theorem parseRecord_ok {bytes rest : List Byte} {r : Record} (h : parseRecord bytes = .ok (r, rest)) :
    bytes = encodeRecord r ++ rest ∧ r.wf = true := by
  unfold parseRecord at h
  split at h
  · simp only at h
    split at h
    · rename_i he
      cases h
      obtain ⟨h1, h2⟩ := take_of_drop he
      refine ⟨?_, ?_⟩
      · simp only [encodeRecord, h1, BitVec.ofNat_toNat, BitVec.setWidth_eq, bytesOfWord_be32]
        simpa using h2
      · simp only [Record.wf, h1, decide_eq_true_eq]
        exact BitVec.isLt _
    · cases h
  · cases h

/-- Fewer bytes than a payload and a checksum need can be completed to them. -/
theorem exists_completion {rest : List Byte} {n : Nat} (h : rest.length < n + 4) :
    ∃ (payload : List Byte) (checksum : Word) (missing : List Byte),
      payload.length = n ∧ missing ≠ [] ∧ rest ++ missing = payload ++ bytesOfWord checksum := by
  have complete : ∀ a b c d : Byte, ∃ w : Word, bytesOfWord w = [a, b, c, d] := fun a b c d =>
    ⟨be32 a b c d, bytesOfWord_be32 a b c d⟩
  by_cases hp : rest.length ≤ n
  · refine ⟨rest ++ List.replicate (n - rest.length) 0#8, 0#32,
      List.replicate (n - rest.length) 0#8 ++ bytesOfWord 0#32, ?_, ?_, ?_⟩
    · simp; omega
    · simp [bytesOfWord]
    · simp
  · have hlen : (rest.drop n).length < 4 := by simp; omega
    have hlt : (rest.take n).length = n := by simp; omega
    have split : rest = rest.take n ++ rest.drop n := (List.take_append_drop n rest).symm
    rcases hd : rest.drop n with _ | ⟨a, _ | ⟨b, _ | ⟨c, _ | ⟨d, q⟩⟩⟩⟩
    · obtain ⟨w, hw⟩ := complete 0#8 0#8 0#8 0#8
      exact ⟨rest.take n, w, [0#8, 0#8, 0#8, 0#8], hlt, by simp, by rw [hw]; nth_rw 1 [split]; simp [hd]⟩
    · obtain ⟨w, hw⟩ := complete a 0#8 0#8 0#8
      exact ⟨rest.take n, w, [0#8, 0#8, 0#8], hlt, by simp, by rw [hw]; nth_rw 1 [split]; simp [hd]⟩
    · obtain ⟨w, hw⟩ := complete a b 0#8 0#8
      exact ⟨rest.take n, w, [0#8, 0#8], hlt, by simp, by rw [hw]; nth_rw 1 [split]; simp [hd]⟩
    · obtain ⟨w, hw⟩ := complete a b c 0#8
      exact ⟨rest.take n, w, [0#8], hlt, by simp, by rw [hw]; nth_rw 1 [split]; simp [hd]⟩
    · rw [hd] at hlen
      simp only [List.length_cons] at hlen
      omega

/-- Bytes that hold no whole record are the beginning of one (30_encoding.md R69). -/
theorem parseRecord_error {bytes : List Byte} {e : FramingError} (h : parseRecord bytes = .error e) :
    ∃ (r : Record) (missing : List Byte), r.wf = true ∧ missing ≠ [] ∧ bytes ++ missing = encodeRecord r := by
  have whole : ∀ (l0 l1 l2 l3 t0 t1 t2 t3 : Byte) (rest : List Byte), rest.length < (be32 l0 l1 l2 l3).toNat + 4 →
      ∃ (r : Record) (missing : List Byte), r.wf = true ∧ missing ≠ [] ∧
        l0 :: l1 :: l2 :: l3 :: t0 :: t1 :: t2 :: t3 :: (rest ++ missing) = encodeRecord r := by
    intro l0 l1 l2 l3 t0 t1 t2 t3 rest hn
    obtain ⟨payload, checksum, missing, h1, h2, h3⟩ := exists_completion hn
    refine ⟨⟨be32 t0 t1 t2 t3, payload, checksum⟩, missing, ?_, h2, ?_⟩
    · simp only [Record.wf, h1, decide_eq_true_eq]
      exact BitVec.isLt _
    · simp only [encodeRecord, h1, BitVec.ofNat_toNat, BitVec.setWidth_eq, bytesOfWord_be32]
      simp [h3]
  have pad : ∀ (l0 l1 l2 l3 t0 t1 t2 t3 : Byte) (front back : List Byte), back ≠ [] →
      front ++ back = [l0, l1, l2, l3, t0, t1, t2, t3] →
      ∃ (r : Record) (missing : List Byte), r.wf = true ∧ missing ≠ [] ∧ front ++ missing = encodeRecord r := by
    intro l0 l1 l2 l3 t0 t1 t2 t3 front back hb hf
    obtain ⟨r, missing, h1, h2, h3⟩ := whole l0 l1 l2 l3 t0 t1 t2 t3 [] (by simp)
    refine ⟨r, back ++ missing, h1, by simp [hb], ?_⟩
    rw [← List.append_assoc, hf]
    simpa using h3
  rcases bytes with _ | ⟨a, _ | ⟨b, _ | ⟨c, _ | ⟨d, _ | ⟨a', _ | ⟨b', _ | ⟨c', _ | ⟨d', rest⟩⟩⟩⟩⟩⟩⟩⟩
  · exact pad 0 0 0 0 0 0 0 0 [] _ (by simp) rfl
  · exact pad a 0 0 0 0 0 0 0 [a] [0, 0, 0, 0, 0, 0, 0] (by simp) rfl
  · exact pad a b 0 0 0 0 0 0 [a, b] [0, 0, 0, 0, 0, 0] (by simp) rfl
  · exact pad a b c 0 0 0 0 0 [a, b, c] [0, 0, 0, 0, 0] (by simp) rfl
  · exact pad a b c d 0 0 0 0 [a, b, c, d] [0, 0, 0, 0] (by simp) rfl
  · exact pad a b c d a' 0 0 0 [a, b, c, d, a'] [0, 0, 0] (by simp) rfl
  · exact pad a b c d a' b' 0 0 [a, b, c, d, a', b'] [0, 0] (by simp) rfl
  · exact pad a b c d a' b' c' 0 [a, b, c, d, a', b', c'] [0] (by simp) rfl
  · have hn : rest.length < (be32 a b c d).toNat + 4 := by
      by_contra hc
      simp only [parseRecord] at h
      split at h
      · cases h
      · rename_i hne
        have hlen : 4 ≤ (rest.drop (be32 a b c d).toNat).length := by simp; omega
        rcases hd : rest.drop (be32 a b c d).toNat with _ | ⟨p, _ | ⟨q, _ | ⟨u, _ | ⟨v, w⟩⟩⟩⟩
        · rw [hd] at hlen; simp at hlen
        · rw [hd] at hlen; simp at hlen
        · rw [hd] at hlen; simp at hlen
        · rw [hd] at hlen; simp at hlen
        · exact hne _ _ _ _ _ hd
    obtain ⟨r, missing, h1, h2, h3⟩ := whole a b c d a' b' c' d' rest hn
    exact ⟨r, missing, h1, h2, by simpa using h3⟩

end Sys2Proof
end

