-- ==== Sys2Proof/Laws/Invariant.lean ====
section
/-! SUPPORT. What keeps the parts of the invariant: a move of CRCV, the two kinds of move of RECON, the ports. -/

namespace Sys2Proof.Machine

/-! ### CRCV -/

theorem Crcv.inv_reset (cfg : Config) : Crcv.Inv cfg Crcv.reset := by
  constructor <;> simp [Crcv.reset]

/-- The operation of a verified record keeps the invariant. -/
theorem Crcv.inv_completed {cfg : Config} {u : Crcv} (hk : u.k = 0#2) (he : u.err = 0#4)
    (hn : u.nrec = BitVec.ofNat 32 u.recOut.length)
    (hi : u.nidat = BitVec.ofNat 32 (u.recOut.countP fun d => d.type == cfg.tagIdat && d.type != cfg.tagEnd))
    (hno : ∀ d ∈ u.recOut, d.type ≠ cfg.tagEnd) : Crcv.Inv cfg (u.completed cfg) := by
  have count : ∀ n : Nat, BitVec.ofNat 32 n + 1#32 = BitVec.ofNat 32 (n + 1) := fun n => by rw [BitVec.ofNat_add]
  unfold Crcv.completed
  by_cases h1 : u.type = cfg.tagEnd
  · rw [if_pos h1]
    constructor <;> simp [Crcv.complete, Crcv.descriptor, hk, he, hn, hi, List.countP_append, h1, count]
    exact hno
  · rw [if_neg h1]
    by_cases h2 : u.type = cfg.tagIdat
    · rw [if_pos h2]
      have h1' : cfg.tagIdat ≠ cfg.tagEnd := h2 ▸ h1
      constructor <;> simp [Crcv.complete, Crcv.descriptor, hk, he, hn, hi, List.countP_append, h2, h1', count]
      rintro d (hd | rfl)
      · exact hno d hd
      · exact h1'
    · rw [if_neg h2]
      constructor <;> simp [Crcv.complete, Crcv.descriptor, hk, he, hn, hi, List.countP_append, h2, count]
      rintro d (hd | rfl)
      · exact hno d hd
      · exact h1

/-- A consumed byte keeps the invariant, in each of the four phases. -/
theorem Crcv.inv_afterByte {cfg : Config} {u : Crcv} (b : Byte) (hI : Crcv.Inv cfg u)
    (hc : u.phase.consuming = true) : Crcv.Inv cfg (u.afterByte cfg b) := by
  obtain ⟨_, hk, hr, _, h0, he, _, hn, hi, hno, _⟩ := hI
  unfold Crcv.afterByte
  cases hp : u.phase <;> simp only [hp, CrcvPhase.consuming, Bool.false_eq_true] at hc
  all_goals
    have he := he (by simp [hp])
    have hno := hno (by simp [hp])
    simp only
  · split <;> constructor <;> simp [he, hn, hi]
    all_goals exact hno
  · have hr := hr hp
    split
    · constructor <;> simp [he, hn, hi, hr]
      exact hno
    · split
      · constructor <;> simp [he, hn, hi, hr] <;> first | exact hno | assumption
      · constructor <;> simp [he, hn, hi, hr] <;> first | exact hno | assumption
  · have hk := hk (.inl hp)
    split
    · constructor <;> simp [he, hn, hi] <;> first | exact hno | assumption
    · constructor <;> simp [he, hn, hi, hk] <;> first | exact hno | assumption
  · have h0 := h0 hp
    split
    · constructor <;> simp [he, hn, hi, h0]
      exact hno
    · by_cases hv : u.crc ^^^ cfg.crcXorout = shiftIn u.stored b
      · rw [Crcv.verified, if_pos hv]
        exact Crcv.inv_completed rfl he hn hi hno
      · rw [Crcv.verified, if_neg hv]
        constructor <;> simp [hn, hi]
        · exact fun h => hv h.symm
        · exact hno

/-- A move of CRCV keeps the invariant. -/
theorem Crcv.inv_move {cfg : Config} {u : Crcv} (items : List Item) (hI : Crcv.Inv cfg u) :
    Crcv.Inv cfg (u.move cfg items).1 := by
  unfold Crcv.move
  split
  · rename_i hc
    cases items with
    | nil => exact hI
    | cons i rest =>
      cases i with
      | byte b => exact Crcv.inv_afterByte b hI hc
      | eos =>
        have hd : u.phase ≠ .done := by intro h; simp [h, CrcvPhase.consuming] at hc
        constructor <;> simp [Crcv.afterItem, hI.nrec_counts, hI.nidat_counts]
        exact hI.no_end hd
  · exact hI

/-! ### The ports -/

theorem Port.wf_empty (gate : PushGate) : Port.wf { items := [], gate := gate } = true := by simp [Port.wf]

/-- Consuming the head item keeps the form of a port. -/
theorem Port.wf_tail {p : Port} {i : Item} {rest : List Item} (h : p.wf = true) (hi : p.items = i :: rest) :
    Port.wf { p with items := rest } = true := by
  unfold Port.wf at *
  simp only [hi, Bool.and_eq_true, Bool.or_eq_true, List.all_eq_true, bne_iff_ne] at *
  refine ⟨fun x hx => h.1 x ?_, h.2.imp_right fun h x hx => h x (List.mem_cons_of_mem _ hx)⟩
  cases rest with
  | nil => simp at hx
  | cons a r =>
    rw [List.dropLast_cons_of_ne_nil (by simp)]
    exact List.mem_cons_of_mem _ hx

/-- Pushing on a port that accepts keeps the form of a port. -/
theorem Port.wf_push {p : Port} (h : p.wf = true) (item : Item) (hc : p.accepts = true) : (p.push item).wf = true := by
  rw [Port.accepts_iff] at hc
  unfold Port.wf Port.push at *
  simp only [Bool.and_eq_true, Bool.or_eq_true, List.all_eq_true, bne_iff_ne] at *
  have hall : ∀ x ∈ p.items, x ≠ .eos := by
    rcases hc with hc | hc
    · exact h.2.resolve_left (by simp [hc])
    · simp [hc.2]
  refine ⟨by simpa using hall, ?_⟩
  by_cases he : item = .eos
  · exact .inl (by simp [he])
  · refine .inr fun x hx => ?_
    simp only [List.mem_append, List.mem_singleton] at hx
    rcases hx with hx | rfl
    · exact hall x hx
    · exact he

/-- A `CLEAR` or a reset of the unit keeps the form of its port. -/
theorem Port.wf_afterClear {p : Port} (h : p.wf = true) : p.afterClear.wf = true := by
  unfold Port.wf Port.afterClear at *
  cases hg : p.gate <;> simp_all

/-- A move of CRCV keeps the form of its port. -/
theorem Crcv.move_port_wf {cfg : Config} {u : Crcv} {p : Port} (h : p.wf = true) :
    Port.wf { p with items := (u.move cfg p.items).2 } = true := by
  unfold Crcv.move
  split
  · cases hi : p.items with
    | nil => exact Port.wf_empty _
    | cons i rest => exact Port.wf_tail h hi
  · exact h

/-! ### RECON -/

/-- RECON's part depends on the parameters, RECON's registers and `PIX` alone. -/
theorem State.ReconInv.congr {s t : State} (h : s.ReconInv) (h1 : t.cfg = s.cfg) (h2 : t.recon = s.recon)
    (h3 : t.pix = s.pix) : t.ReconInv := by
  obtain ⟨i1, i2, i3, i4, i5, i6, i7, i8, i9, i10, i11⟩ := h
  constructor <;> simp only [h2, h3]
  all_goals first | assumption | skip
  intro h
  rw [← i11 h]
  unfold State.overCapacity
  rw [h1, h2]

/-- A sample step that goes on keeps RECON's part. -/
theorem State.ReconInv.sample {s t : State} {x : Byte} {pred : Except Fault Byte} (hI : s.ReconInv)
    (hp : s.recon.phase = .data) (h : reconstruct pred x s = .next t) : t.ReconInv := by
  obtain ⟨p, _, -, rfl⟩ := reconstruct_next h
  have hb : s.recon.busy = true := by simp [Recon.busy, hp, ReconPhase.consuming]
  have hrow := hI.row_inside hb
  have hcol := hI.data_col hp
  have hwidth := hI.width_pos (.inl hb)
  have herr := hI.err_none (by simp [hp])
  have hs := Recon.stride_lt s.recon
  have hhl := s.recon.height.isLt
  have hfits : ∀ t : State, t.cfg = s.cfg → t.recon.width = s.recon.width → t.recon.height = s.recon.height →
      t.overCapacity = false := fun t h1 h2 h3 => by
    rw [← hI.fits (.inl hb)]
    unfold State.overCapacity Recon.pixBytes Recon.stride
    rw [h1, h2, h3]
  have hw : ∀ v a, a < s.recon.addr s.recon.row.toNat s.recon.col.toNat + 1 →
      (Memory.read (Memory.write s.pix (s.recon.addr s.recon.row.toNat s.recon.col.toNat) v) a).isSome = true := by
    intro v a ha
    rw [Memory.read_write]
    split
    · rfl
    · exact hI.written (.inl hb) a (by omega)
  have hrow' : (s.recon.row + 1#32).toNat = s.recon.row.toNat + 1 := by
    rw [BitVec.toNat_add, BitVec.toNat_ofNat]; omega
  have hcol' : (s.recon.col + 1#34).toNat = s.recon.col.toNat + 1 := by
    rw [BitVec.toNat_add, BitVec.toNat_ofNat]; omega
  by_cases hc : s.recon.col.toNat + 1 < s.recon.stride
  · rw [Recon.advance_within hc]
    constructor <;> simp only [Recon.busy, hp, ReconPhase.consuming, reduceCtorEq, false_implies, true_or, forall_const,
      ne_eq, not_false_eq_true]
    · exact hrow
    · exact hwidth
    · show (s.recon.col + 1#34).toNat < s.recon.stride
      omega
    · exact hI.data_filter hp
    · exact herr
    · intro a ha
      refine hw _ a ?_
      simp only [Recon.addr, Recon.stride] at ha ⊢
      omega
    · exact hfits _ rfl rfl rfl
  · rw [Recon.advance_rowEnd hc]
    have hse : s.recon.col.toNat + 1 = s.recon.stride := by omega
    have hw' : ∀ v a, a < (s.recon.row.toNat + 1) * s.recon.stride →
        (Memory.read (Memory.write s.pix (s.recon.addr s.recon.row.toNat s.recon.col.toNat) v) a).isSome = true :=
      fun v a ha => hw v a (by rw [Nat.add_mul] at ha; unfold Recon.addr; omega)
    by_cases hr : s.recon.row.toNat + 1 = s.recon.height.toNat
    · constructor <;> simp only [Recon.busy, Recon.rowEnd, hr, if_true, ReconPhase.consuming, reduceCtorEq, false_implies,
        or_true, forall_const, ne_eq, not_false_eq_true, Bool.false_eq_true]
      · exact hwidth
      · exact ⟨BitVec.eq_of_toNat_eq (by omega), trivial⟩
      · exact herr
      · intro a ha
        refine hw' _ a ?_
        simp only [Recon.addr, Recon.stride, hrow'] at ha ⊢
        simpa using ha
      · exact hfits _ rfl rfl rfl
    · constructor <;> simp only [Recon.busy, Recon.rowEnd, hr, if_false, ReconPhase.consuming, reduceCtorEq,
        false_implies, true_or, forall_const, ne_eq, not_false_eq_true]
      · omega
      · exact hwidth
      · exact herr
      · intro a ha
        refine hw' _ a ?_
        simp only [Recon.addr, Recon.stride, hrow'] at ha ⊢
        simpa using ha
      · exact hfits _ rfl rfl rfl

/-- Every other move of RECON keeps its part. -/
theorem State.ReconInv.plain {s : State} (hI : s.ReconInv)
    (hp : ¬(s.recon.phase = .data ∧ ∃ x rest, s.reconIn.items = .byte x :: rest)) : (reconPlain s).ReconInv := by
  unfold reconPlain
  split
  · rename_i hc
    split
    · exact hI.congr rfl rfl rfl
    · constructor <;> simp [Recon.busy, ReconPhase.consuming]
    · rename_i b rest hi
      have hf : s.recon.phase = .ftype := by
        cases hq : s.recon.phase with
        | ftype => rfl
        | data => exact absurd ⟨hq, b, rest, hi⟩ hp
        | idle | done | fault => simp [hq, ReconPhase.consuming] at hc
      have hb : s.recon.busy = true := hc
      have hw := hI.width_pos (.inl hb)
      have hst : 0 < s.recon.stride := by
        have : s.recon.width.toNat ≠ 0 := fun h => hw (BitVec.eq_of_toNat_eq (by simpa using h))
        simp only [Recon.stride, Config.bpp]
        omega
      unfold Recon.afterFilterByte
      split
      · constructor <;> simp [Recon.busy, ReconPhase.consuming]
        · exact hI.row_inside hb
        · exact hw
        · simpa [Recon.stride] using hst
        · assumption
        · exact hI.err_none (by simp [hf])
        · have := hI.written (.inl hb)
          rw [hI.ftype_col hf] at this
          simpa [Recon.addr, Recon.stride] using this
        · exact hI.fits (.inl hb)
      · rename_i hd
        constructor <;> simp [Recon.busy, ReconPhase.consuming]
        exact ⟨by simpa using hd, hI.ftype_col hf⟩
  · exact hI.congr rfl rfl rfl

/-- Under its part of the invariant a move of RECON always goes on: the filter byte is legal, the neighbours have been
written, and the write is inside the image. -/
theorem State.ReconInv.exists_next {s : State} (hI : s.ReconInv) (h : s.nextMove = some .recon) :
    ∃ t, step s = .next t := by
  by_cases hp : s.recon.phase = .data ∧ ∃ x rest, s.reconIn.items = .byte x :: rest
  · obtain ⟨hd, x, rest, hi⟩ := hp
    rw [step_recon_sample h hd hi]
    obtain ⟨f, hf⟩ := Option.isSome_iff_exists.mp (hI.data_filter hd)
    rw [runEncoded_row _ _ hf, exec_filterInstr]
    have hb : s.recon.busy = true := by simp [Recon.busy, hd, ReconPhase.consuming]
    obtain ⟨a, b, c, ha, hb', hc⟩ := State.neighbours_of_written (s := reconSample s rest) (hI.row_inside hb)
      (hI.data_col hd) (hI.written (.inl hb))
    rw [State.predicted_of_neighbours ha hb' hc, reconstruct_ok]
    exact ⟨_, writeBack_of_lt _ (Recon.addr_lt_pixBytes (hI.row_inside hb) (hI.data_col hd))⟩
  · exact ⟨_, step_recon_plain h hp⟩

end Sys2Proof.Machine
end

