-- ==== Sys2Proof/Laws/PerInstr.lean ====
section
/-! SUPPORT. Statements about every operation, one lemma per constructor. -/

namespace Sys2Proof.Laws.TableRow

/-- The encoding of an operation has the format, the register index and the opcode bits of its row of opcode_table.json. -/
def Statement (i : Instr) : Prop := ∀ cfg : Config, (opcodeRow cfg i).fits (encode cfg i) = true

/-- A mask of all ones keeps the whole tag. -/
theorem and_all (tag : Word) : tag &&& 0xFFFFFFFF#32 = tag := BitVec.and_allOnes

theorem recEnd : Statement .recEnd := fun cfg => by simp [opcodeRow, encode, OpcodeRow.fits, and_all]
theorem recIdat : Statement .recIdat := fun cfg => by simp [opcodeRow, encode, OpcodeRow.fits, and_all]
theorem recOther (tag : Word) : Statement (.recOther tag) := fun _ => by simp [opcodeRow, encode, OpcodeRow.fits]
theorem fltNone (x : Byte) : Statement (.fltNone x) := fun _ => by
  simp [opcodeRow, encode, OpcodeRow.fits, encodeFilter]
theorem fltSub (x : Byte) : Statement (.fltSub x) := fun _ => by
  simp [opcodeRow, encode, OpcodeRow.fits, encodeFilter]
theorem fltUp (x : Byte) : Statement (.fltUp x) := fun _ => by
  simp [opcodeRow, encode, OpcodeRow.fits, encodeFilter]
theorem fltAvg (x : Byte) : Statement (.fltAvg x) := fun _ => by
  simp [opcodeRow, encode, OpcodeRow.fits, encodeFilter]
theorem fltPaeth (x : Byte) : Statement (.fltPaeth x) := fun _ => by
  simp [opcodeRow, encode, OpcodeRow.fits, encodeFilter]
theorem crcvClear : Statement .crcvClear := fun _ => by
  simp [opcodeRow, encode, OpcodeRow.fits]
theorem crcvStart : Statement .crcvStart := fun _ => by
  simp [opcodeRow, encode, OpcodeRow.fits]
theorem reconClear : Statement .reconClear := fun _ => by
  simp [opcodeRow, encode, OpcodeRow.fits]
theorem reconStart : Statement .reconStart := fun _ => by
  simp [opcodeRow, encode, OpcodeRow.fits]
theorem cfgWidth (v : Word) : Statement (.cfgWidth v) := fun _ => by simp [opcodeRow, encode, OpcodeRow.fits]
theorem cfgHeight (v : Word) : Statement (.cfgHeight v) := fun _ => by simp [opcodeRow, encode, OpcodeRow.fits]

end Sys2Proof.Laws.TableRow
end

