-- ==== Sys2Proof/Laws/Ports.lean ====
section
/-! SUPPORT. Everything a step can do to a port, said once (00_scope.md R9; 42_host_commands.md R152, R154, R158;
70_reset_and_hazards.md R200, R206). -/

namespace Sys2Proof.Machine

/-- The index of the unit's `CTRL` register (10_state.md R23). -/
def UnitId.ctrl : UnitId → Nat
  | .crcv => 0x00
  | .recon => 0x10

/-- The next move `CLEAR`s or resets the unit. -/
def State.clearsNext (s : State) (u : UnitId) : Prop :=
  (∃ v : Word, s.nextMove = some (.host (.write u.ctrl v)) ∧ v.getLsbD 1 = true) ∨ s.nextMove = some (.host .reset)

/-- A port after a move that neither clears its unit, nor pushes on it, nor empties it: as it was, or its head item
consumed. -/
def Port.Kept (p q : Port) : Prop := q = p ∨ ∃ item rest, p.items = item :: rest ∧ q = { p with items := rest }

theorem Port.Kept.gate {p q : Port} (h : p.Kept q) : q.gate = p.gate := by
  rcases h with rfl | ⟨_, _, _, rfl⟩ <;> rfl

theorem Port.Kept.empty {p q : Port} (h : p.Kept q) (hp : p.items = []) : q.items = [] := by
  rcases h with rfl | ⟨_, _, h, rfl⟩
  · exact hp
  · rw [hp] at h
    cases h

/-- A move of CRCV consumes at most the head item of `CRCV.IN`. -/
theorem Crcv.move_kept (cfg : Config) (u : Crcv) (p : Port) : p.Kept { p with items := (u.move cfg p.items).2 } := by
  unfold Crcv.move
  split
  · cases h : p.items with
    | nil => exact .inl (by simp [← h])
    | cons i rest => exact .inr ⟨i, rest, h, rfl⟩
  · exact .inl rfl

/-- A move of RECON consumes at most the head item of `RECON.IN`. -/
theorem step_recon_kept {s t : State} (hm : s.nextMove = some .recon) (h : step s = .next t) :
    s.reconIn.Kept t.reconIn := by
  by_cases hp : s.recon.phase = .data ∧ ∃ x rest, s.reconIn.items = .byte x :: rest
  · obtain ⟨hd, x, rest, hi⟩ := hp
    rw [step_recon_sample hm hd hi] at h
    cases hf : decodeFilter s.recon.f with
    | none => rw [runEncoded_row_illegal _ _ hf] at h; cases h
    | some f =>
      rw [runEncoded_row _ _ hf, exec_filterInstr] at h
      obtain ⟨_, _, _, rfl⟩ := reconstruct_next h
      exact .inr ⟨_, _, hi, rfl⟩
  · rw [step_recon_plain hm hp] at h
    cases h
    unfold reconPlain
    split
    · split
      · exact .inl rfl
      · exact .inr ⟨_, _, ‹_›, rfl⟩
      · exact .inr ⟨_, _, ‹_›, rfl⟩
    · exact .inl rfl

/-- A register write clears a unit, or leaves its port. -/
theorem runEncoded_command_port {s t : State} {index : Nat} {v : Word} (h : runEncoded (.command index v) s = .next t)
    (u : UnitId) :
    (index = u.ctrl ∧ v.getLsbD 1 = true ∧ t.port u = (s.port u).afterClear) ∨
    (¬(index = u.ctrl ∧ v.getLsbD 1 = true) ∧ t.port u = s.port u) := by
  rcases runEncoded_command_cases index v s with ⟨rfl, h1, e⟩ | ⟨rfl, h1, -, e⟩ | ⟨rfl, h1, e⟩ | ⟨rfl, h1, -, e⟩ | ⟨rfl, e⟩ |
    ⟨rfl, e⟩ | ⟨h1, e⟩ <;> rw [e] at h
  · cases h
    cases u
    · exact .inl ⟨rfl, h1, rfl⟩
    · exact .inr ⟨by simp [UnitId.ctrl], rfl⟩
  · unfold execCrcvStart at h
    split at h <;> cases h <;> cases u <;> exact .inr ⟨by simp only [h1]; simp, rfl⟩
  · cases h
    cases u
    · exact .inr ⟨by simp [UnitId.ctrl], rfl⟩
    · exact .inl ⟨rfl, h1, rfl⟩
  · unfold execReconStart at h
    repeat' split at h
    all_goals cases h
    all_goals cases u <;> exact .inr ⟨by simp only [h1]; simp, rfl⟩
  · unfold execCfgWidth at h
    split at h <;> cases h <;> cases u <;> exact .inr ⟨by simp [UnitId.ctrl], rfl⟩
  · unfold execCfgHeight at h
    split at h <;> cases h <;> cases u <;> exact .inr ⟨by simp [UnitId.ctrl], rfl⟩
  · cases h
    refine .inr ⟨fun hc => ?_, rfl⟩
    have := h1 (by cases u <;> simp [hc.1, UnitId.ctrl])
    rw [this] at hc
    exact absurd hc.2 (by decide)

/-- Everything a step can do to the port of a unit. -/
theorem step_port {s t : State} (h : step s = .next t) (u : UnitId) :
    (s.clearsNext u ∧ t.port u = (s.port u).afterClear) ∨
    (∃ item, s.nextMove = some (.host (.push u item)) ∧ (s.port u).accepts = true ∧ t.port u = (s.port u).push item) ∨
    (s.nextMove = some (.host (.drain u)) ∧ t.port u = { s.port u with items := [] }) ∨
    (¬s.clearsNext u ∧ (∀ item, s.nextMove ≠ some (.host (.push u item))) ∧ s.nextMove ≠ some (.host (.drain u)) ∧
      (s.port u).Kept (t.port u)) := by
  cases hm : s.nextMove with
  | none =>
    rw [step_none hm] at h
    cases h
    exact .inr (.inr (.inr ⟨by simp [State.clearsNext, hm], by simp, by simp, .inl rfl⟩))
  | some m =>
    cases m with
    | crcv =>
      rw [step_crcv_eq hm] at h
      cases h
      refine .inr (.inr (.inr ⟨by simp [State.clearsNext, hm], by simp, by simp, ?_⟩))
      cases u
      · exact Crcv.move_kept _ _ _
      · exact .inl rfl
    | recon =>
      refine .inr (.inr (.inr ⟨by simp [State.clearsNext, hm], by simp, by simp, ?_⟩))
      cases u
      · exact .inl (step_recon_frame hm h).2.2.1
      · exact step_recon_kept hm h
    | host op =>
      cases op with
      | write index v =>
        rw [step_write hm] at h
        rcases runEncoded_command_port h u with ⟨hi, hv, hp⟩ | ⟨hn, hp⟩
        · exact .inl ⟨.inl ⟨v, by rw [hm, hi], hv⟩, by cases u <;> exact hp⟩
        · refine .inr (.inr (.inr ⟨?_, by simp, by simp, .inl (by cases u <;> exact hp)⟩))
          rintro (⟨w, hw, hv⟩ | hr)
          · rw [hm] at hw
            cases hw
            exact hn ⟨rfl, hv⟩
          · rw [hm] at hr
            cases hr
      | read index =>
        rw [step_read hm] at h
        cases h
        exact .inr (.inr (.inr ⟨by simp [State.clearsNext, hm], by simp, by simp, .inl (by cases u <;> rfl)⟩))
      | pixRead a =>
        rw [step_pixRead hm, pixReadMove] at h
        repeat' split at h
        all_goals cases h
        exact .inr (.inr (.inr ⟨by simp [State.clearsNext, hm], by simp, by simp, .inl (by cases u <;> rfl)⟩))
      | push w item =>
        obtain ⟨ha, rfl⟩ := step_push_next hm h
        by_cases hw : w = u
        · subst hw
          exact .inr (.inl ⟨item, rfl, ha, by cases w <;> rfl⟩)
        · refine .inr (.inr (.inr ⟨by simp [State.clearsNext, hm], by simp [hw], by simp, .inl ?_⟩))
          cases w <;> cases u <;> first | rfl | exact absurd rfl hw
      | drain w =>
        rw [step_drain hm] at h
        cases h
        by_cases hw : w = u
        · subst hw
          exact .inr (.inr (.inl ⟨rfl, by cases w <;> rfl⟩))
        · refine .inr (.inr (.inr ⟨by simp [State.clearsNext, hm], by simp, by simp [hw], .inl ?_⟩))
          cases w <;> cases u <;> first | rfl | exact absurd rfl hw
      | reset =>
        rw [step_reset hm] at h
        cases h
        exact .inl ⟨.inr hm, by cases u <;> rfl⟩

end Sys2Proof.Machine
end

