-- ==== Sys2Proof/Laws/Runs.lean ====
section
/-! SUPPORT. Runs of one unit: so many moves of CRCV in a row as one function of its registers and its port, and what a
whole field, a whole payload and a whole record leave; and what a sample step of RECON writes, in terms of line buffers. -/

namespace Sys2Proof.Machine

/-! ### CRCV -/

/-- `n` moves of CRCV in a row. -/
def Crcv.moves (cfg : Config) : Nat → Crcv → List Item → Crcv × List Item
  | 0, u, items => (u, items)
  | n + 1, u, items => Crcv.moves cfg n (u.move cfg items).1 (u.move cfg items).2

theorem Crcv.moves_zero (cfg : Config) (u : Crcv) (items : List Item) : Crcv.moves cfg 0 u items = (u, items) := rfl

theorem Crcv.moves_add (cfg : Config) (m n : Nat) (u : Crcv) (items : List Item) :
    Crcv.moves cfg (m + n) u items = Crcv.moves cfg n (Crcv.moves cfg m u items).1 (Crcv.moves cfg m u items).2 := by
  induction m generalizing u items with
  | zero => simp [Crcv.moves]
  | succ m ih => rw [Nat.succ_add]; exact ih _ _

/-- A run of CRCV moves touches CRCV's registers and its port alone. -/
theorem run_crcv (n : Nat) {s : State} {rest : List Move} (h : s.agenda = List.replicate n .crcv ++ rest) :
    Sys2Proof.core.run n s = .next { s with
      agenda := rest, crcv := (s.crcv.moves s.cfg n s.crcvIn.items).1,
      crcvIn := { s.crcvIn with items := (s.crcv.moves s.cfg n s.crcvIn.items).2 } } := by
  induction n generalizing s with
  | zero => simp only [List.replicate_zero, List.nil_append] at h; subst h; rfl
  | succ n ih =>
    rw [List.replicate_succ, List.cons_append] at h
    have hs : Sys2Proof.core.step s = _ := step_crcv_eq (State.nextMove_cons h)
    simp only [Host.Core.run, hs]
    exact ih (by simp [h])

/-- A unit in a phase that consumes nothing is left as it is by any number of moves (00_scope.md R9). -/
theorem Crcv.moves_waiting (cfg : Config) (n : Nat) {u : Crcv} (items : List Item) (h : u.phase.consuming = false) :
    u.moves cfg n items = (u, items) := by
  induction n with
  | zero => rfl
  | succ n ih => rw [Crcv.moves]; simpa [Crcv.move, h] using ih

/-- One byte consumed. -/
theorem Crcv.move_byte (cfg : Config) {u : Crcv} (b : Byte) (items : List Item) (h : u.phase.consuming = true) :
    u.move cfg (.byte b :: items) = (u.afterByte cfg b, items) := by
  simp [Crcv.move, h, Crcv.afterItem]

/-- The first of so many moves takes the byte at the head of the port. -/
theorem Crcv.moves_byte (cfg : Config) (n : Nat) {u : Crcv} (b : Byte) (items : List Item)
    (h : u.phase.consuming = true) :
    u.moves cfg (n + 1) (.byte b :: items) = (u.afterByte cfg b).moves cfg n items := by
  rw [Crcv.moves, Crcv.move_byte cfg b items h]

/-- `EOS` ends the run, whatever moves follow (R103). -/
theorem Crcv.moves_eos (cfg : Config) (n : Nat) {u : Crcv} (items : List Item) (h : u.phase.consuming = true) :
    u.moves cfg (n + 1) (.eos :: items) = ({ u with phase := .fault, err := 2#4 }, items) := by
  rw [Crcv.moves]
  simp only [Crcv.move, h, if_true, Crcv.afterItem]
  exact Crcv.moves_waiting cfg n items rfl

theorem Crcv.verified_pass {cfg : Config} {u : Crcv} (h : u.crc ^^^ cfg.crcXorout = u.stored) :
    Crcv.verified cfg u = Crcv.completed cfg { u with computed := u.crc ^^^ cfg.crcXorout } := by
  rw [Crcv.verified, if_pos h]

theorem Crcv.verified_fail {cfg : Config} {u : Crcv} (h : u.crc ^^^ cfg.crcXorout ≠ u.stored) :
    Crcv.verified cfg u = { u with computed := u.crc ^^^ cfg.crcXorout, phase := .fault, err := 3#4 } := by
  rw [Crcv.verified, if_neg h]

/-- The four length bytes (40_crc32_verifier.md R94). -/
theorem Crcv.moves_length (cfg : Config) {u : Crcv} (l : Word) (items : List Item) (hp : u.phase = .len)
    (hk : u.k = 0#2) :
    u.moves cfg 4 (byteItems (bytesOfWord l) ++ items) =
      ({ u with len := l, rem := l, crc := cfg.crcInit, phase := .type, pos := u.pos + 4#64 }, items) := by
  simp only [Crcv.moves, byteItems, bytesOfWord, List.map_cons, List.map_nil, List.cons_append, List.nil_append]
  simp only [Crcv.move, Crcv.afterItem, Crcv.afterByte, hp, hk, CrcvPhase.consuming, if_true]
  simp [shiftIn_bytes, BitVec.add_assoc]

/-- The four bytes of the type tag (R95). -/
theorem Crcv.moves_type (cfg : Config) {u : Crcv} (t : Word) (items : List Item) (hp : u.phase = .type)
    (hk : u.k = 0#2) :
    u.moves cfg 4 (byteItems (bytesOfWord t) ++ items) =
      ({ u with
          type := t, crc := crcRun cfg u.crc (bytesOfWord t), paypos := u.pos + 4#64,
          phase := if u.len = 0#32 then .crc else .data, pos := u.pos + 4#64 }, items) := by
  simp only [Crcv.moves, byteItems, bytesOfWord, List.map_cons, List.map_nil, List.cons_append, List.nil_append]
  simp only [Crcv.move, Crcv.afterItem, Crcv.afterByte, hp, hk, CrcvPhase.consuming, if_true]
  simp [shiftIn_bytes, BitVec.add_assoc]

/-- A whole payload (R96). -/
theorem Crcv.moves_payload (cfg : Config) {u : Crcv} (b : Byte) (payload : List Byte) (items : List Item)
    (hp : u.phase = .data) (hk : u.k = 0#2) (hr : u.rem.toNat = payload.length + 1) :
    u.moves cfg (payload.length + 1) (byteItems (b :: payload) ++ items) =
      ({ u with
          rem := 0#32, crc := crcRun cfg u.crc (b :: payload), phase := .crc,
          pos := u.pos + BitVec.ofNat 64 (payload.length + 1) }, items) := by
  have hlt := u.rem.isLt
  induction payload generalizing u b with
  | nil =>
    have : u.rem = 1#32 := BitVec.eq_of_toNat_eq (by simpa using hr)
    simp [Crcv.moves, Crcv.move, byteItems, Crcv.afterItem, Crcv.afterByte, hp, hk, CrcvPhase.consuming, this]
  | cons b' payload ih =>
    have hn : u.rem - 1#32 ≠ 0#32 := by
      intro e
      have := congrArg BitVec.toNat e
      simp only [List.length_cons, BitVec.toNat_sub, BitVec.toNat_ofNat] at this hr
      omega
    have hr' : (u.rem - 1#32).toNat = payload.length + 1 := by
      simp only [List.length_cons, BitVec.toNat_sub, BitVec.toNat_ofNat] at hr ⊢
      omega
    rw [List.length_cons, Crcv.moves, byteItems, List.map_cons, List.cons_append,
      Crcv.move_byte cfg b _ (by simp [hp, CrcvPhase.consuming])]
    have hb : u.afterByte cfg b =
        { u with crc := crcUpdate cfg u.crc b, rem := u.rem - 1#32, pos := u.pos + 1#64 } := by
      simp [Crcv.afterByte, hp, hn]
    rw [hb]
    have := ih (u := { u with crc := crcUpdate cfg u.crc b, rem := u.rem - 1#32, pos := u.pos + 1#64 }) b' hp hk hr'
      (BitVec.isLt _)
    rw [byteItems, List.map_cons] at this
    rw [List.map_cons, this]
    have hpos : u.pos + 1#64 + BitVec.ofNat 64 (payload.length + 1) = u.pos + BitVec.ofNat 64 (payload.length + 1 + 1) := by
      apply BitVec.eq_of_toNat_eq
      simp only [BitVec.toNat_add, BitVec.toNat_ofNat]
      omega
    simp only [hpos, crcRun_cons]

/-- The four checksum bytes, and what `Verify` makes of them (R97, R98). -/
theorem Crcv.moves_checksum (cfg : Config) {u : Crcv} (c : Word) (items : List Item) (hp : u.phase = .crc)
    (hk : u.k = 0#2) :
    u.moves cfg 4 (byteItems (bytesOfWord c) ++ items) =
      (Crcv.verified cfg { u with stored := c, pos := u.pos + 4#64 }, items) := by
  simp only [Crcv.moves, byteItems, bytesOfWord, List.map_cons, List.map_nil, List.cons_append, List.nil_append]
  simp only [Crcv.move, Crcv.afterItem, Crcv.afterByte, hp, hk, CrcvPhase.consuming, if_true]
  simp [shiftIn_bytes, BitVec.add_assoc]

/-- CRCV's registers when a whole record has been read and `Verify` is next. -/
def Crcv.framed (cfg : Config) (u : Crcv) (r : Record) : Crcv :=
  { u with
    phase := .crc
    len := BitVec.ofNat 32 r.payload.length
    rem := 0#32
    type := r.tag
    crc := crcRun cfg cfg.crcInit (bytesOfWord r.tag ++ r.payload)
    stored := r.checksum
    pos := u.pos + BitVec.ofNat 64 (12 + r.payload.length)
    paypos := u.pos + 8#64 }

theorem byteItems_append (a b : List Byte) : byteItems (a ++ b) = byteItems a ++ byteItems b := List.map_append

/-- A whole record, from a record boundary (R94 to R98, R106). -/
theorem Crcv.moves_record (cfg : Config) {u : Crcv} {r : Record} (items : List Item) (hr : r.wf = true)
    (hp : u.phase = .len) (hk : u.k = 0#2) :
    u.moves cfg (12 + r.payload.length) (byteItems (encodeRecord r) ++ items) =
      (Crcv.verified cfg (u.framed cfg r), items) := by
  have hlen : r.payload.length < 2 ^ 32 := by simpa [Record.wf] using hr
  have e : 12 + r.payload.length = 4 + (4 + (r.payload.length + 4)) := by omega
  rw [e, encodeRecord, byteItems_append, byteItems_append, byteItems_append, List.append_assoc, List.append_assoc,
    List.append_assoc, Crcv.moves_add, Crcv.moves_length cfg _ _ hp hk]
  simp only
  rw [Crcv.moves_add, Crcv.moves_type cfg _ _ (by rfl) (by exact hk)]
  simp only
  rw [Crcv.moves_add]
  have hpay : u.pos + 4#64 + 4#64 = u.pos + 8#64 := by rw [BitVec.add_assoc]; rfl
  have hpos : ∀ n : Nat, u.pos + 8#64 + BitVec.ofNat 64 n + 4#64 = u.pos + BitVec.ofNat 64 (12 + n) := fun n => by
    apply BitVec.eq_of_toNat_eq
    simp only [BitVec.toNat_add, BitVec.toNat_ofNat]
    omega
  cases hpl : r.payload with
  | nil =>
    simp only [List.length_nil, byteItems, List.map_nil, List.nil_append, Crcv.moves_zero]
    rw [← byteItems, Crcv.moves_checksum cfg _ _ (by rfl) (by exact hk)]
    simp [Crcv.framed, hpl, hpay, BitVec.add_assoc, hk]
  | cons b payload =>
    rw [hpl, List.length_cons] at hlen
    have hne : BitVec.ofNat 32 (payload.length + 1) ≠ 0#32 := by
      intro h
      have := congrArg BitVec.toNat h
      simp only [BitVec.toNat_ofNat] at this
      omega
    rw [List.length_cons, Crcv.moves_payload cfg b payload _ (by simp only [hne, if_false]) (by exact hk)
      (by simp only [BitVec.toNat_ofNat]; omega)]
    simp only
    rw [Crcv.moves_checksum cfg _ _ (by rfl) (by exact hk)]
    simp only [Crcv.framed, hpl, List.length_cons, crcRun_append, hpos, hpay]

/-- Every consumed byte advances `POS` (R104). -/
theorem Crcv.afterByte_pos {cfg : Config} {u : Crcv} (b : Byte) (h : u.phase.consuming = true) :
    (u.afterByte cfg b).pos = u.pos + 1#64 := by
  unfold Crcv.afterByte Crcv.verified Crcv.completed Crcv.complete
  cases hp : u.phase <;> simp only [hp, CrcvPhase.consuming, Bool.false_eq_true] at h ⊢ <;> repeat' split
  all_goals rfl

/-- No byte takes CRCV back to IDLE. -/
theorem Crcv.afterByte_phase {cfg : Config} {u : Crcv} (b : Byte) (h : u.phase.consuming = true) :
    (u.afterByte cfg b).phase ≠ .idle := by
  unfold Crcv.afterByte Crcv.verified Crcv.completed Crcv.complete
  cases hp : u.phase <;> simp only [hp, CrcvPhase.consuming, Bool.false_eq_true] at h ⊢ <;> repeat' split
  all_goals simp

/-- If so many moves consume a stretch of bytes and at least one item more, then the stretch is consumed whatever follows it,
and CRCV consumes on after it. -/
theorem Crcv.moves_stretch (cfg : Config) (bytes : List Byte) (u : Crcv) (x y : List Item) (n : Nat)
    (h : (u.moves cfg (bytes.length + 1 + n) (byteItems bytes ++ x)).2.length + (bytes.length + 1 + n) =
      (byteItems bytes ++ x).length) :
    (u.moves cfg bytes.length (byteItems bytes ++ y)).2 = y ∧
    (u.moves cfg bytes.length (byteItems bytes ++ y)).1.phase.consuming = true ∧
    (u.moves cfg bytes.length (byteItems bytes ++ y)).1.pos = u.pos + BitVec.ofNat 64 bytes.length := by
  have hc : u.phase.consuming = true := by
    by_contra hc
    rw [Crcv.moves_waiting _ _ _ (by simpa using hc)] at h
    dsimp only at h
    omega
  induction bytes generalizing u with
  | nil => simp [byteItems, Crcv.moves, hc]
  | cons b bytes ih =>
    have e : (b :: bytes).length + 1 + n = (bytes.length + 1 + n) + 1 := by simp only [List.length_cons]; omega
    rw [e, byteItems, List.map_cons, List.cons_append, Crcv.moves_byte _ _ _ _ hc, List.length_cons] at h
    have h' : ((u.afterByte cfg b).moves cfg (bytes.length + 1 + n) (byteItems bytes ++ x)).2.length +
        (bytes.length + 1 + n) = (byteItems bytes ++ x).length := by
      rw [byteItems]; omega
    have hc' : (u.afterByte cfg b).phase.consuming = true := by
      by_contra hc'
      rw [Crcv.moves_waiting _ _ _ (by simpa using hc')] at h'
      dsimp only at h'
      omega
    have this := ih (u.afterByte cfg b) h' hc'
    rw [List.length_cons, byteItems, List.map_cons, List.cons_append, Crcv.moves_byte _ _ _ _ hc]
    refine ⟨this.1, this.2.1, ?_⟩
    rw [← byteItems, this.2.2, Crcv.afterByte_pos b hc]
    apply BitVec.eq_of_toNat_eq
    simp only [BitVec.toNat_add, BitVec.toNat_ofNat]
    omega

/-! ### RECON -/

/-- RECON waiting is left as it is by any number of its moves (00_scope.md R9). -/
theorem run_recon_waiting (n : Nat) {s : State} {rest : List Move} (h : s.agenda = List.replicate n .recon ++ rest)
    (hp : s.recon.phase.consuming = false) : Sys2Proof.core.run n s = .next { s with agenda := rest } := by
  induction n generalizing s with
  | zero => simp only [List.replicate_zero, List.nil_append] at h; subst h; rfl
  | succ n ih =>
    rw [List.replicate_succ, List.cons_append] at h
    have hs := step_recon_plain (State.nextMove_cons h) (by intro e; simp [e.1, ReconPhase.consuming] at hp)
    rw [run_succ_next n hs, reconPlain, if_neg (by simp [hp])]
    exact ih (s := s.popMove) (by simp [h]) hp

/-- The bytes reconstructed so far, as lists: `image` the rows above, `cur` this row up to the position, `prev` the row above
in the line-buffer form (41_filter_reconstructor.md R138). -/
structure State.Reconstructing (s : State) (t : FilterType) (prev image cur : List Byte) : Prop where
  phase : s.recon.phase = .data
  filter : decodeFilter s.recon.f = some t
  row : s.recon.row.toNat < s.recon.height.toNat
  col : s.recon.col.toNat = cur.length
  inside : cur.length < s.recon.stride
  above : image.length = s.recon.row.toNat * s.recon.stride
  previous : prev = if s.recon.row.toNat = 0 then [] else image.drop ((s.recon.row.toNat - 1) * s.recon.stride)
  pix : ∀ a, a < (image ++ cur).length → Memory.read s.pix a = (image ++ cur)[a]?

/-- A sample step computes from `PIX` the byte that the line buffers give (R138), and writes it after those before. -/
theorem State.Reconstructing.exec {s : State} {t : FilterType} {prev image cur : List Byte}
    (h : s.Reconstructing t prev image cur) (x : Byte) :
    exec (filterInstr x t) s = .next { s with
      pix := Memory.write s.pix (image.length + cur.length) (lineByte t prev cur x), recon := s.recon.advance } := by
  have hin := h.inside
  have hlt : s.recon.addr s.recon.row.toNat s.recon.col.toNat < s.recon.pixBytes :=
    Recon.addr_lt_pixBytes h.row (by rw [h.col]; exact hin)
  have hA : s.neighbourA =
      .ok (if Config.bpp ≤ cur.length then cur.getD (cur.length - Config.bpp) 0#8 else 0#8) := by
    unfold State.neighbourA
    rw [h.col]
    split
    · rename_i hc
      simp only [Config.bpp] at *
      have e : s.recon.addr s.recon.row.toNat (cur.length - 4) = image.length + (cur.length - 4) := by
        rw [Recon.addr, h.above]
      refine State.pixLoad_of_read (Recon.addr_lt_pixBytes h.row (by omega)) ?_
      rw [e, h.pix _ (by rw [List.length_append]; omega), List.getElem?_append_right (by omega), Nat.add_sub_cancel_left,
        List.getD_eq_getElem _ _ (by omega), List.getElem?_eq_getElem (by omega)]
    · rfl
  have hload : ∀ c, c < s.recon.stride → 0 < s.recon.row.toNat →
      s.pixLoad (s.recon.addr (s.recon.row.toNat - 1) c) = .ok (prev.getD c 0#8) := by
    intro c hc hr
    refine State.pixLoad_of_read (Recon.addr_lt_pixBytes (by have := h.row; omega) hc) ?_
    have e : s.recon.row.toNat = (s.recon.row.toNat - 1) + 1 := by omega
    have hl := h.above
    rw [e, Nat.add_mul] at hl
    have hal : (s.recon.row.toNat - 1) * s.recon.stride + c < image.length := by omega
    rw [h.pix _ (by rw [List.length_append, Recon.addr]; omega), Recon.addr, List.getElem?_append_left hal, h.previous,
      if_neg (by omega), List.getD_eq_getElem?_getD, List.getElem?_drop, List.getElem?_eq_getElem hal]
    rfl
  have hB : s.neighbourB = .ok (prev.getD cur.length 0#8) := by
    unfold State.neighbourB
    rw [h.col]
    split
    · exact hload _ hin ‹_›
    · rw [h.previous, if_pos (by omega)]; rfl
  have hC : s.neighbourC =
      .ok (if Config.bpp ≤ cur.length then prev.getD (cur.length - Config.bpp) 0#8 else 0#8) := by
    unfold State.neighbourC
    rw [h.col]
    by_cases h1 : 0 < s.recon.row.toNat ∧ Config.bpp ≤ cur.length
    · rw [if_pos h1, if_pos h1.2]
      exact hload _ (by omega) h1.1
    · rw [if_neg h1]
      split
      · rw [h.previous, if_pos (by omega)]; rfl
      · rfl
  rw [exec_filterInstr, State.predicted_of_neighbours hA hB hC, reconstruct_ok, writeBack_of_lt _ hlt, Recon.addr, h.col,
    ← h.above]
  rfl

end Sys2Proof.Machine
end

