-- ==== Sys2Proof/Tests/Slice0.lean ====
section
/-! SUPPORT. Tests of one step or one decoding each, expected values from the spec (95_test_vectors.md unless said), and for
every statement that has hypotheses a witness that meets them. -/

namespace Sys2Proof.Tests

open Sys2Proof.Machine Sys2Proof.Statements

/-- A state with these CRCV registers and port items, CRCV to move. -/
def crcvAt (u : Crcv) (items : List Item) : State :=
  { State.reset with crcv := u, crcvIn := { items := items, gate := .accepting }, agenda := [.crcv] }

/-- A state with these RECON registers, `PIX` and port items, RECON to move. -/
def reconAt (u : Recon) (pix : Memory) (items : List Item) : State :=
  { State.reset with recon := u, pix := pix, reconIn := { items := items, gate := .accepting }, agenda := [.recon] }

/-- The state of a machine in which the host does `op` next. -/
def hostAt (s : State) (op : HostOp) : State := { s with agenda := [.host op] }

/-- The next state of an answer, if there is one. -/
def nextOf : Result → Option State
  | .next t => some t
  | .fault _ => none
  | .refused _ => none

/-- RECON in a 2 by 5 image, as in program P5, at a position. -/
def p5 (f : Byte) (r c : Nat) : Recon :=
  { Recon.reset with
    phase := .data, width := 2#32, height := 5#32, row := BitVec.ofNat 32 r, col := BitVec.ofNat 34 c, f := f }

/-! ### Well-formedness: each check refuses an ill-formed term -/

theorem test_wf_refuses_other_end : (Instr.recOther 0x49454E44#32).wf Config.default = false := by decide
theorem test_wf_refuses_other_idat : (Instr.recOther 0x49444154#32).wf Config.default = false := by decide
theorem test_wf_refuses_idat_shadowed : Instr.recIdat.wf { Config.default with tagIdat := 0x49454E44#32 } = false := by
  decide
theorem test_wf_accepts_other : (Instr.recOther 0x69656E64#32).wf Config.default = true := by decide
theorem test_wf_refuses_short_row : Row.wf 1#32 { filter := .sub, samples := [1#8, 2#8, 3#8] } = false := by decide
theorem test_wf_refuses_long_row : Row.wf 1#32 { filter := .sub, samples := [1#8, 2#8, 3#8, 4#8, 5#8] } = false := by decide
/-- A payload of 2^32 bytes has no length field (30_encoding.md R63); said of the length, which no test can write out. -/
theorem test_wf_refuses_long_payload (r : Record) (h : r.payload.length = 2 ^ 32) : r.wf = false := by
  simp [Record.wf, h]

/-! ### Decoding: words written out from 30_encoding.md R64, R67, R71 -/

theorem test_decode_rec_end : decode Config.default (.record 0x49454E44#32) = .ok .recEnd := by decide
theorem test_decode_rec_idat : decode Config.default (.record 0x49444154#32) = .ok .recIdat := by decide
theorem test_decode_rec_other : decode Config.default (.record 0x49484452#32) = .ok (.recOther 0x49484452#32) := by decide
/-- V-REC-6: all 32 bits are compared. -/
theorem test_decode_rec_lower_case : decode Config.default (.record 0x69656E64#32) = .ok (.recOther 0x69656E64#32) := by
  decide
theorem test_decode_flt_none : decode Config.default (.row 0b00000000#8 0xDE#8) = .ok (.fltNone 0xDE#8) := by decide
theorem test_decode_flt_sub : decode Config.default (.row 0b00000001#8 0xF8#8) = .ok (.fltSub 0xF8#8) := by decide
theorem test_decode_flt_up : decode Config.default (.row 0b00000010#8 0x01#8) = .ok (.fltUp 0x01#8) := by decide
theorem test_decode_flt_avg : decode Config.default (.row 0b00000011#8 0x0A#8) = .ok (.fltAvg 0x0A#8) := by decide
theorem test_decode_flt_paeth : decode Config.default (.row 0b00000100#8 0x05#8) = .ok (.fltPaeth 0x05#8) := by decide
theorem test_decode_flt_illegal : decode Config.default (.row 0b00000101#8 0#8) = .error (.unknownFilterType 5#8) := by decide
theorem test_decode_crcv_clear : decode Config.default (.command 0x00 0b10#32) = .ok .crcvClear := by decide
/-- R159: both bits. -/
theorem test_decode_crcv_both : decode Config.default (.command 0x00 0b11#32) = .ok .crcvClear := by decide
theorem test_decode_crcv_start : decode Config.default (.command 0x00 0b01#32) = .ok .crcvStart := by decide
theorem test_decode_recon_clear : decode Config.default (.command 0x10 0b10#32) = .ok .reconClear := by decide
theorem test_decode_recon_start : decode Config.default (.command 0x10 0xFFFFFFFD#32) = .ok .reconStart := by decide
theorem test_decode_cfg_width : decode Config.default (.command 0x14 0x7#32) = .ok (.cfgWidth 7#32) := by decide
theorem test_decode_cfg_height : decode Config.default (.command 0x15 0x0#32) = .ok (.cfgHeight 0#32) := by decide
theorem test_decode_no_command : decode Config.default (.command 0x10 0xFFFFFFFC#32) = .error (.noOperation 0x10) := by decide
theorem test_decode_read_only : decode Config.default (.command 0x16 1#32) = .error (.readOnlyRegister 0x16) := by decide
theorem test_decode_reserved : decode Config.default (.command 0x0F 1#32) = .error (.reservedRegister 0x0F) := by decide

/-- R72: `REC.END` on the port. -/
theorem test_encode_end_record : Line.items Config.default .endMarker = byteItems
    [0x00#8, 0x00#8, 0x00#8, 0x00#8, 0x49#8, 0x45#8, 0x4E#8, 0x44#8, 0xAE#8, 0x42#8, 0x60#8, 0x82#8] := by decide +kernel

/-- V-STEP-1's record. -/
theorem test_encode_record : encodeRecord { tag := 0x49444154#32, payload := [0xAA#8, 0xBB#8, 0xCC#8], checksum := 0xB8C66FFC#32 } =
    [0x00#8, 0x00#8, 0x00#8, 0x03#8, 0x49#8, 0x44#8, 0x41#8, 0x54#8, 0xAA#8, 0xBB#8, 0xCC#8, 0xB8#8, 0xC6#8, 0x6F#8,
     0xFC#8] := by decide

theorem test_parse_truncated : parseRecord [0x00#8, 0x00#8, 0x00#8, 0x01#8, 0x49#8, 0x44#8, 0x41#8, 0x54#8, 0xAA#8, 0xBB#8,
    0xCC#8, 0xB8#8] = .error .truncated := by decide

theorem test_table_word_rec_end : decodeTableWord 32 0x49454E44 = some .recEnd := by decide
theorem test_table_word_rec_other : decodeTableWord 32 0 = some (.recOther 0#32) := by decide
theorem test_table_word_paeth : decodeTableWord 8 4 = some (.fltPaeth 0#8) := by decide
theorem test_table_word_illegal : decodeTableWord 8 5 = none := by decide
theorem test_table_word_start : decodeTableWord 32 1 = some .crcvStart := by decide

/-- The very next step runs the placed word: here `REC.IDAT`, after which CRCV is at a record boundary. -/
theorem test_fetch_word_idat : (nextOf (step (State.reset.withFetchWord 32 0x49444154))).map
    (fun t => (t.crcv.phase, t.crcv.nrec, t.crcv.nidat)) = some (.len, 1#32, 1#32) := by decide +kernel
/-- Here `FLT.UP`, in row 0 of a 1 by 1 image. -/
theorem test_fetch_word_up : (nextOf (step (State.reset.withFetchWord 8 2))).map
    (fun t => (t.recon.col, Memory.read t.pix 0)) = some (1#34, some 0#8) := by decide +kernel

/-! ### The checksum -/

/-- R90's listing, rows 0 to 3. -/
theorem test_crctab_rows_0 : (List.range 32).map (fun i => crcTabEntry Config.default (BitVec.ofNat 8 (0 + i))) = [
   0x00000000#32, 0x77073096#32, 0xEE0E612C#32, 0x990951BA#32, 0x076DC419#32, 0x706AF48F#32, 0xE963A535#32, 0x9E6495A3#32,
   0x0EDB8832#32, 0x79DCB8A4#32, 0xE0D5E91E#32, 0x97D2D988#32, 0x09B64C2B#32, 0x7EB17CBD#32, 0xE7B82D07#32, 0x90BF1D91#32,
   0x1DB71064#32, 0x6AB020F2#32, 0xF3B97148#32, 0x84BE41DE#32, 0x1ADAD47D#32, 0x6DDDE4EB#32, 0xF4D4B551#32, 0x83D385C7#32,
   0x136C9856#32, 0x646BA8C0#32, 0xFD62F97A#32, 0x8A65C9EC#32, 0x14015C4F#32, 0x63066CD9#32, 0xFA0F3D63#32, 0x8D080DF5#32] := by decide +kernel

/-- R90's listing, rows 4 to 7. -/
theorem test_crctab_rows_4 : (List.range 32).map (fun i => crcTabEntry Config.default (BitVec.ofNat 8 (32 + i))) = [
   0x3B6E20C8#32, 0x4C69105E#32, 0xD56041E4#32, 0xA2677172#32, 0x3C03E4D1#32, 0x4B04D447#32, 0xD20D85FD#32, 0xA50AB56B#32,
   0x35B5A8FA#32, 0x42B2986C#32, 0xDBBBC9D6#32, 0xACBCF940#32, 0x32D86CE3#32, 0x45DF5C75#32, 0xDCD60DCF#32, 0xABD13D59#32,
   0x26D930AC#32, 0x51DE003A#32, 0xC8D75180#32, 0xBFD06116#32, 0x21B4F4B5#32, 0x56B3C423#32, 0xCFBA9599#32, 0xB8BDA50F#32,
   0x2802B89E#32, 0x5F058808#32, 0xC60CD9B2#32, 0xB10BE924#32, 0x2F6F7C87#32, 0x58684C11#32, 0xC1611DAB#32, 0xB6662D3D#32] := by decide +kernel

/-- R90's listing, rows 8 to 11. -/
theorem test_crctab_rows_8 : (List.range 32).map (fun i => crcTabEntry Config.default (BitVec.ofNat 8 (64 + i))) = [
   0x76DC4190#32, 0x01DB7106#32, 0x98D220BC#32, 0xEFD5102A#32, 0x71B18589#32, 0x06B6B51F#32, 0x9FBFE4A5#32, 0xE8B8D433#32,
   0x7807C9A2#32, 0x0F00F934#32, 0x9609A88E#32, 0xE10E9818#32, 0x7F6A0DBB#32, 0x086D3D2D#32, 0x91646C97#32, 0xE6635C01#32,
   0x6B6B51F4#32, 0x1C6C6162#32, 0x856530D8#32, 0xF262004E#32, 0x6C0695ED#32, 0x1B01A57B#32, 0x8208F4C1#32, 0xF50FC457#32,
   0x65B0D9C6#32, 0x12B7E950#32, 0x8BBEB8EA#32, 0xFCB9887C#32, 0x62DD1DDF#32, 0x15DA2D49#32, 0x8CD37CF3#32, 0xFBD44C65#32] := by decide +kernel

/-- R90's listing, rows 12 to 15. -/
theorem test_crctab_rows_12 : (List.range 32).map (fun i => crcTabEntry Config.default (BitVec.ofNat 8 (96 + i))) = [
   0x4DB26158#32, 0x3AB551CE#32, 0xA3BC0074#32, 0xD4BB30E2#32, 0x4ADFA541#32, 0x3DD895D7#32, 0xA4D1C46D#32, 0xD3D6F4FB#32,
   0x4369E96A#32, 0x346ED9FC#32, 0xAD678846#32, 0xDA60B8D0#32, 0x44042D73#32, 0x33031DE5#32, 0xAA0A4C5F#32, 0xDD0D7CC9#32,
   0x5005713C#32, 0x270241AA#32, 0xBE0B1010#32, 0xC90C2086#32, 0x5768B525#32, 0x206F85B3#32, 0xB966D409#32, 0xCE61E49F#32,
   0x5EDEF90E#32, 0x29D9C998#32, 0xB0D09822#32, 0xC7D7A8B4#32, 0x59B33D17#32, 0x2EB40D81#32, 0xB7BD5C3B#32, 0xC0BA6CAD#32] := by decide +kernel

/-- R90's listing, rows 16 to 19. -/
theorem test_crctab_rows_16 : (List.range 32).map (fun i => crcTabEntry Config.default (BitVec.ofNat 8 (128 + i))) = [
   0xEDB88320#32, 0x9ABFB3B6#32, 0x03B6E20C#32, 0x74B1D29A#32, 0xEAD54739#32, 0x9DD277AF#32, 0x04DB2615#32, 0x73DC1683#32,
   0xE3630B12#32, 0x94643B84#32, 0x0D6D6A3E#32, 0x7A6A5AA8#32, 0xE40ECF0B#32, 0x9309FF9D#32, 0x0A00AE27#32, 0x7D079EB1#32,
   0xF00F9344#32, 0x8708A3D2#32, 0x1E01F268#32, 0x6906C2FE#32, 0xF762575D#32, 0x806567CB#32, 0x196C3671#32, 0x6E6B06E7#32,
   0xFED41B76#32, 0x89D32BE0#32, 0x10DA7A5A#32, 0x67DD4ACC#32, 0xF9B9DF6F#32, 0x8EBEEFF9#32, 0x17B7BE43#32, 0x60B08ED5#32] := by decide +kernel

/-- R90's listing, rows 20 to 23. -/
theorem test_crctab_rows_20 : (List.range 32).map (fun i => crcTabEntry Config.default (BitVec.ofNat 8 (160 + i))) = [
   0xD6D6A3E8#32, 0xA1D1937E#32, 0x38D8C2C4#32, 0x4FDFF252#32, 0xD1BB67F1#32, 0xA6BC5767#32, 0x3FB506DD#32, 0x48B2364B#32,
   0xD80D2BDA#32, 0xAF0A1B4C#32, 0x36034AF6#32, 0x41047A60#32, 0xDF60EFC3#32, 0xA867DF55#32, 0x316E8EEF#32, 0x4669BE79#32,
   0xCB61B38C#32, 0xBC66831A#32, 0x256FD2A0#32, 0x5268E236#32, 0xCC0C7795#32, 0xBB0B4703#32, 0x220216B9#32, 0x5505262F#32,
   0xC5BA3BBE#32, 0xB2BD0B28#32, 0x2BB45A92#32, 0x5CB36A04#32, 0xC2D7FFA7#32, 0xB5D0CF31#32, 0x2CD99E8B#32, 0x5BDEAE1D#32] := by decide +kernel

/-- R90's listing, rows 24 to 27. -/
theorem test_crctab_rows_24 : (List.range 32).map (fun i => crcTabEntry Config.default (BitVec.ofNat 8 (192 + i))) = [
   0x9B64C2B0#32, 0xEC63F226#32, 0x756AA39C#32, 0x026D930A#32, 0x9C0906A9#32, 0xEB0E363F#32, 0x72076785#32, 0x05005713#32,
   0x95BF4A82#32, 0xE2B87A14#32, 0x7BB12BAE#32, 0x0CB61B38#32, 0x92D28E9B#32, 0xE5D5BE0D#32, 0x7CDCEFB7#32, 0x0BDBDF21#32,
   0x86D3D2D4#32, 0xF1D4E242#32, 0x68DDB3F8#32, 0x1FDA836E#32, 0x81BE16CD#32, 0xF6B9265B#32, 0x6FB077E1#32, 0x18B74777#32,
   0x88085AE6#32, 0xFF0F6A70#32, 0x66063BCA#32, 0x11010B5C#32, 0x8F659EFF#32, 0xF862AE69#32, 0x616BFFD3#32, 0x166CCF45#32] := by decide +kernel

/-- R90's listing, rows 28 to 31. -/
theorem test_crctab_rows_28 : (List.range 32).map (fun i => crcTabEntry Config.default (BitVec.ofNat 8 (224 + i))) = [
   0xA00AE278#32, 0xD70DD2EE#32, 0x4E048354#32, 0x3903B3C2#32, 0xA7672661#32, 0xD06016F7#32, 0x4969474D#32, 0x3E6E77DB#32,
   0xAED16A4A#32, 0xD9D65ADC#32, 0x40DF0B66#32, 0x37D83BF0#32, 0xA9BCAE53#32, 0xDEBB9EC5#32, 0x47B2CF7F#32, 0x30B5FFE9#32,
   0xBDBDF21C#32, 0xCABAC28A#32, 0x53B39330#32, 0x24B4A3A6#32, 0xBAD03605#32, 0xCDD70693#32, 0x54DE5729#32, 0x23D967BF#32,
   0xB3667A2E#32, 0xC4614AB8#32, 0x5D681B02#32, 0x2A6F2B94#32, 0xB40BBE37#32, 0xC30C8EA1#32, 0x5A05DF1B#32, 0x2D02EF8D#32] := by decide +kernel

/-- V-UPD-5, V-UPD-7, V-UPD-9. -/
theorem test_crc_update : crcUpdate Config.default 0xFFFFFFFF#32 0x00#8 = 0x2DFD1072#32 ∧
    crcUpdate Config.default 0x12345678#32 0x9A#8 = 0x4E16B702#32 ∧
    crcUpdate Config.default 0x80000000#32 0x00#8 = 0x00800000#32 := by decide +kernel
/-- V-CRC-5, V-CRC-13, V-CRC-14. -/
theorem test_crc32 : crc32 Config.default [0xFF#8] = 0xFF000000#32 ∧
    crc32 Config.default [0x49#8, 0x44#8, 0x41#8, 0x54#8, 0xAA#8, 0xBB#8, 0xCC#8] = 0xB8C66FFC#32 ∧
    crc32 Config.default [0x49#8, 0x44#8, 0x41#8, 0x54#8, 0xAB#8, 0xBB#8, 0xCC#8] = 0xB90405CB#32 := by decide +kernel

/-! ### CRCV: rows of V-STEP-1 and V-STEP-2 -/

/-- CRCV after row 3 of V-STEP-1. -/
def step3 : Crcv := { Crcv.reset with phase := .len, k := 3#2, pos := 3#64 }
/-- After row 4. -/
def step4 : Crcv := { step3 with phase := .type, k := 0#2, len := 3#32, rem := 3#32, crc := 0xFFFFFFFF#32, pos := 4#64 }
/-- After row 7. -/
def step7 : Crcv := { step4 with k := 3#2, type := 0x00494441#32, crc := 0xEA3B6BA5#32, pos := 7#64 }
/-- After row 8. -/
def step8 : Crcv :=
  { step7 with phase := .data, k := 0#2, type := 0x49444154#32, crc := 0xCA50F9E1#32, pos := 8#64, paypos := 8#64 }
/-- After row 10. -/
def step10 : Crcv := { step8 with rem := 1#32, crc := 0x8B5F7C22#32, pos := 10#64 }
/-- After row 11. -/
def step11 : Crcv := { step10 with phase := .crc, rem := 0#32, crc := 0x47399003#32, pos := 11#64 }
/-- After row 14. -/
def step14 : Crcv := { step11 with k := 3#2, stored := 0x00B8C66F#32, pos := 14#64 }

theorem test_len_fourth_byte : (nextOf (step (crcvAt step3 [.byte 0x03#8]))).map (·.crcv) = some step4 := by decide +kernel
theorem test_type_first_byte : (nextOf (step (crcvAt step4 [.byte 0x49#8]))).map (fun t => (t.crcv.type, t.crcv.crc, t.crcv.k)) =
    some (0x49#32, 0x22FDE946#32, 1#2) := by decide +kernel
theorem test_type_fourth_byte : (nextOf (step (crcvAt step7 [.byte 0x54#8]))).map (·.crcv) = some step8 := by decide +kernel
/-- V-STEP-2: with `LEN = 0` the phase after the tag is CRC. -/
theorem test_type_zero_length : (nextOf (step (crcvAt { step7 with len := 0#32, rem := 0#32 } [.byte 0x44#8]))).map (·.crcv.phase) =
    some .crc := by decide +kernel
theorem test_data_byte : (nextOf (step (crcvAt step8 [.byte 0xAA#8]))).map (fun t => (t.crcv.crc, t.crcv.rem, t.crcv.phase)) =
    some (0xE1C4C8E1#32, 2#32, .data) := by decide +kernel
theorem test_data_last_byte : (nextOf (step (crcvAt step10 [.byte 0xCC#8]))).map (·.crcv) = some step11 := by decide +kernel
theorem test_crc_first_byte : (nextOf (step (crcvAt step11 [.byte 0xB8#8]))).map (fun t => (t.crcv.stored, t.crcv.k, t.crcv.crc)) =
    some (0xB8#32, 1#2, 0x47399003#32) := by decide +kernel
/-- Row 15: `REC.IDAT`. -/
theorem test_rec_idat : (nextOf (step (crcvAt step14 [.byte 0xFC#8]))).map (·.crcv) = some
    { step14 with
      phase := .len, k := 0#2, stored := 0xB8C66FFC#32, computed := 0xB8C66FFC#32, nrec := 1#32, nidat := 1#32, pos := 15#64,
      recOut := [{ type := 0x49444154#32, length := 3#32, paypos := 8#64, checksum := 0xB8C66FFC#32 }] } := by decide +kernel
/-- V-STEP-2, byte 12: `REC.END`. -/
theorem test_rec_end : (nextOf (step (crcvAt
      { step14 with type := 0x49454E44#32, len := 0#32, crc := 0x51BD9F7D#32, stored := 0x00AE4260#32, pos := 11#64 } [.byte 0x82#8]))).map
    (fun t => (t.crcv.phase, t.crcv.computed, t.crcv.nrec, t.crcv.nidat, t.crcv.pos, t.crcv.status)) =
    some (.done, 0xAE426082#32, 1#32, 0#32, 12#64, 0x15#32) := by decide +kernel
/-- V-REC-3: `REC.OTHER`, the running register being the checksum before the final XOR. -/
theorem test_rec_other : (nextOf (step (crcvAt
      { step14 with type := 0x74455874#32, len := 2#32, crc := 0x7569E6DF#32 ^^^ 0xFFFFFFFF#32, stored := 0x007569E6#32, pos := 13#64 }
      [.byte 0xDF#8]))).map (fun t => (t.crcv.phase, t.crcv.nrec, t.crcv.nidat, t.crcv.recOut)) =
    some (.len, 1#32, 0#32, [{ type := 0x74455874#32, length := 2#32, paypos := 8#64, checksum := 0x7569E6DF#32 }]) := by decide +kernel
/-- P2's last step. -/
theorem test_checksum_mismatch : (nextOf (step (crcvAt { step14 with crc := 0x46FBFA34#32 } [.byte 0xFC#8]))).map
    (fun t => (t.crcv.phase, t.crcv.err, t.crcv.stored, t.crcv.computed)) = some (.fault, 3#4, 0xB8C66FFC#32, 0xB90405CB#32) := by
  decide +kernel
/-- V-REC-8's last step. -/
theorem test_crcv_truncated : (nextOf (step (crcvAt { Crcv.reset with phase := .len, k := 2#2, pos := 2#64 } [.eos]))).map
    (fun t => (t.crcv.status, t.crcv.err, t.crcv.pos)) = some (0xA6#32, 2#4, 2#64) := by decide +kernel
/-- V-REC-14: after DONE nothing is consumed. -/
theorem test_crcv_trailing : (nextOf (step (crcvAt { step14 with phase := .done } [.byte 0xDE#8]))).map (·.crcvIn.items) =
    some [.byte 0xDE#8] := by decide +kernel

/-! ### RECON: steps of program P5 and of 95_test_vectors.md 2.5 to 2.8 -/

/-- The value a sample step writes at an address. -/
def written (s : State) (i : Instr) (a : Nat) : Option Byte := (nextOf (exec i s)).bind fun t => Memory.read t.pix a

theorem test_flt_none : written (reconAt (p5 0#8 4 0) [] []) (.fltNone 0xDE#8) 32 = some 0xDE#8 := by decide
/-- The last step of P5. -/
theorem test_recon_done : (nextOf (exec (.fltNone 0x03#8) (reconAt (p5 0#8 4 7) [] []))).map
    (fun t => (t.recon.phase, t.recon.row, t.recon.col, t.recon.status)) = some (.done, 5#32, 0#34, 0x15#32) := by decide
theorem test_flt_sub : written (reconAt (p5 1#8 0 4) [(0, 0x10#8)] []) (.fltSub 0xF8#8) 4 = some 0x08#8 := by decide
/-- V-SUB-2: the first pixel of a row. -/
theorem test_flt_sub_left_edge : written (reconAt (p5 1#8 0 3) [] []) (.fltSub 0x01#8) 3 = some 0x01#8 := by decide
theorem test_flt_up : written (reconAt (p5 2#8 1 5) [(5, 0x21#8)] []) (.fltUp 0xE0#8) 13 = some 0x01#8 := by decide
/-- V-UP-6: row 0. -/
theorem test_flt_up_top_edge : written (reconAt (p5 2#8 0 5) [] []) (.fltUp 0x37#8) 5 = some 0x37#8 := by decide
/-- P5, row 2, byte 6. -/
theorem test_flt_avg : written (reconAt (p5 3#8 2 6) [(14, 0xFF#8), (18, 0x38#8)] []) (.fltAvg 0x01#8) 22 = some 0x9C#8 := by decide
/-- V-AVG-2: the sum is not wrapped before it is halved (90_conflicts.md C1). -/
theorem test_flt_avg_exact_sum : written (reconAt (p5 3#8 1 4) [(4, 0xFF#8), (8, 0xFF#8)] []) (.fltAvg 0x01#8) 12 = some 0x00#8 := by
  decide
/-- P5, row 3, byte 4. -/
theorem test_flt_paeth : written (reconAt (p5 4#8 3 4) [(16, 0x12#8), (20, 0x79#8), (24, 0x13#8)] []) (.fltPaeth 0x05#8) 28 =
    some 0x7E#8 := by decide
/-- V-PAETH-2, 6, 15, 29, 30. -/
theorem test_paeth_ties : paeth 10#8 20#8 5#8 = 20#8 ∧ paeth 0#8 0#8 255#8 = 0#8 ∧ paeth 50#8 60#8 55#8 = 55#8 ∧
    paeth 3#8 0#8 1#8 = 3#8 ∧ paeth 0#8 3#8 1#8 = 3#8 := by decide
/-- V-RILL-2. -/
theorem test_illegal_filter : (nextOf (step (reconAt { p5 0#8 0 0 with phase := .ftype } [] [.byte 5#8]))).map
    (fun t => (t.recon.status, t.recon.err, t.recon.errInfo, t.recon.f)) = some (0x26#32, 9#4, 5#8, 5#8) := by decide
/-- V-RTRUNC-2's last step. -/
theorem test_recon_truncated : (nextOf (step (reconAt (p5 0#8 0 3) [] [.eos]))).map
    (fun t => (t.recon.phase, t.recon.err, t.recon.errInfo, t.recon.col)) = some (.fault, 2#4, 0#8, 3#34) := by decide

/-! ### The host: 95_test_vectors.md 2.9 -/

/-- V-HOST-2. -/
theorem test_crcv_start : (nextOf (exec .crcvStart State.reset)).map (·.crcv.status) = some 0x09#32 := by decide
/-- V-HOST-3. -/
theorem test_crcv_start_running : (nextOf (exec .crcvStart (crcvAt step3 []))).map (·.crcv) = some step3 := by decide
/-- V-HOST-6. -/
theorem test_crcv_clear : (nextOf (step (hostAt (crcvAt step8 []) (.write 0x00 0x3#32)))).map (·.crcv) = some Crcv.reset := by decide
/-- V-HOST-7. -/
theorem test_reserved_bits : (nextOf (step (hostAt (crcvAt step8 []) (.write 0x00 0xFFFFFFFC#32)))).map (·.crcv) = some step8 := by
  decide
/-- V-HOST-8. -/
theorem test_recon_start : (nextOf (exec .reconStart
      (reconAt { Recon.reset with width := 2#32, height := 2#32 } [] []))).map (·.recon.status) = some 0x09#32 := by decide
/-- V-HOST-11. -/
theorem test_recon_start_refused : nextOf (exec .reconStart State.reset) = none := by decide
/-- V-HOST-10. -/
theorem test_recon_clear : (nextOf (exec .reconClear (reconAt { p5 4#8 5 0 with phase := .done } [] []))).map (·.recon) =
    some { Recon.reset with width := 2#32, height := 5#32 } := by decide
/-- V-HOST-8. -/
theorem test_cfg_width : (nextOf (exec (.cfgWidth 2#32) State.reset)).map (fun t => t.hostRead 0x14) = some 2#32 := by decide
/-- V-HOST-9. -/
theorem test_cfg_width_running : (nextOf (exec (.cfgWidth 7#32) (reconAt (p5 0#8 0 0) [] []))).map (·.recon.width) = some 2#32 := by
  decide
theorem test_cfg_height : (nextOf (exec (.cfgHeight 2#32) State.reset)).map (fun t => t.hostRead 0x15) = some 2#32 := by decide
/-- V-HOST-12. -/
theorem test_pix_read : (nextOf (step (hostAt (reconAt { p5 0#8 5 0 with phase := .done } [(0, 0x10#8)] []) (.pixRead 0)))).map
    (·.seen) = some [.pix 0 0x10#8] := by decide

/-- R158 and R202: after `EOS`, `CRCV.CLEAR`, emptying and `CRCV.START`, an item can be pushed again. -/
theorem test_push_after_clear_drain_start :
    let s : State := { State.reset with
      crcvIn := { items := [.eos], gate := .shut }
      agenda := [.host (.write 0x00 0x2#32), .host (.drain .crcv), .host (.write 0x00 0x1#32), .host (.push .crcv (.byte 7#8))] }
    (nextOf (Sys2Proof.core.run 4 s)).map (fun t => (t.crcvIn.items, t.crcv.phase)) = some ([.byte 7#8], .len) := by decide
/-- R158: emptying the port of a unit that was never cleared does not end the ban. -/
theorem test_push_after_drain_alone :
    let s : State := { State.reset with
      crcvIn := { items := [.eos], gate := .shut }
      agenda := [.host (.drain .crcv), .host (.push .crcv (.byte 7#8))] }
    Sys2Proof.core.run 2 s = .refused (.pushAfterEos .crcv) := rfl

/-! ### Witnesses: states and operands that meet the hypotheses of each statement -/

theorem witness_InstructionEncodingRoundTrip : (Instr.recOther 0x49484452#32).wf Config.default = true := by decide
theorem witness_RecordWireRoundTrip : Record.wf { tag := 0#32, payload := [], checksum := 0#32 } = true := by decide
theorem witness_ScanlineWireRoundTrip : Row.wf 1#32 { filter := .up, samples := [1#8, 2#8, 3#8, 4#8] } = true ∧
    Row.wf 0#32 { filter := .up, samples := [] } = true := by decide
theorem witness_DecodedOperationFitsItsTableRow : decode Config.default (.command 0x00 0xFFFFFFFD#32) = .ok .crcvStart := by decide
theorem witness_ChecksumDetectsOneChangedByte : Config.default.crcPoly.getLsbD 31 = true ∧ (0xAA#8 : Byte) ≠ 0xAB#8 := by decide

theorem witness_LengthFieldByte : ∀ k, k = 0#2 ∨ k = 2#2 ∨ k = 3#2 →
    let s := crcvAt { step3 with k := k } [.byte 3#8]
    s.nextMove = some .crcv ∧ s.crcvIn.items = .byte 3#8 :: [] ∧ s.crcv.phase = .len ∧ (k.toNat < 3 ∨ k = 3#2) := by decide
theorem witness_TypeFieldByte_first : let s := crcvAt step4 [.byte 0x49#8]
    s.nextMove = some .crcv ∧ s.crcvIn.items = .byte 0x49#8 :: [] ∧ s.crcv.phase = .type ∧ s.crcv.k.toNat < 3 := by decide
theorem witness_TypeFieldByte_empty : let s := crcvAt { step7 with len := 0#32 } [.byte 0x54#8]
    s.nextMove = some .crcv ∧ s.crcvIn.items = .byte 0x54#8 :: [] ∧ s.crcv.phase = .type ∧ s.crcv.k = 3#2 ∧ s.crcv.len = 0#32 := by decide
theorem witness_TypeFieldByte_payload : let s := crcvAt { step7 with len := 1#32 } [.byte 0x54#8]
    s.nextMove = some .crcv ∧ s.crcvIn.items = .byte 0x54#8 :: [] ∧ s.crcv.phase = .type ∧ s.crcv.k = 3#2 ∧ s.crcv.len ≠ 0#32 := by decide
theorem witness_PayloadByte_last : let s := crcvAt step10 [.byte 0xCC#8]
    s.nextMove = some .crcv ∧ s.crcvIn.items = .byte 0xCC#8 :: [] ∧ s.crcv.phase = .data ∧ s.crcv.rem = 1#32 := by decide
theorem witness_PayloadByte_more : let s := crcvAt { step10 with rem := 2#32 } [.byte 0xCC#8]
    s.nextMove = some .crcv ∧ s.crcvIn.items = .byte 0xCC#8 :: [] ∧ s.crcv.phase = .data ∧ s.crcv.rem ≠ 1#32 := by decide
theorem witness_ChecksumFieldByte_first : let s := crcvAt step11 [.byte 0xB8#8]
    s.nextMove = some .crcv ∧ s.crcvIn.items = .byte 0xB8#8 :: [] ∧ s.crcv.phase = .crc ∧ s.crcv.k.toNat < 3 := by decide
theorem witness_ChecksumFieldByte_idat : let s := crcvAt step14 [.byte 0xFC#8]
    s.nextMove = some .crcv ∧ s.crcvIn.items = .byte 0xFC#8 :: [] ∧ s.crcv.phase = .crc ∧
    s.crcv.k = 3#2 ∧ s.crcv.crc ^^^ s.cfg.crcXorout = (s.crcv.stored <<< 8) ||| (0xFC#8).setWidth 32 ∧
    s.crcv.type ≠ s.cfg.tagEnd ∧ s.crcv.type = s.cfg.tagIdat := by decide
theorem witness_ChecksumFieldByte_end : let s := crcvAt { step14 with type := 0x49454E44#32 } [.byte 0xFC#8]
    s.nextMove = some .crcv ∧ s.crcvIn.items = .byte 0xFC#8 :: [] ∧ s.crcv.phase = .crc ∧
    s.crcv.k = 3#2 ∧ s.crcv.crc ^^^ s.cfg.crcXorout = (s.crcv.stored <<< 8) ||| (0xFC#8).setWidth 32 ∧
    s.crcv.type = s.cfg.tagEnd := by decide
theorem witness_ChecksumFieldByte_other : let s := crcvAt { step14 with type := 0x49454E45#32 } [.byte 0xFC#8]
    s.nextMove = some .crcv ∧ s.crcvIn.items = .byte 0xFC#8 :: [] ∧ s.crcv.phase = .crc ∧
    s.crcv.k = 3#2 ∧ s.crcv.crc ^^^ s.cfg.crcXorout = (s.crcv.stored <<< 8) ||| (0xFC#8).setWidth 32 ∧
    s.crcv.type ≠ s.cfg.tagEnd ∧ s.crcv.type ≠ s.cfg.tagIdat := by decide
theorem witness_ChecksumFieldByte_mismatch : let s := crcvAt step14 [.byte 0xFD#8]
    s.nextMove = some .crcv ∧ s.crcvIn.items = .byte 0xFD#8 :: [] ∧ s.crcv.phase = .crc ∧
    s.crcv.k = 3#2 ∧ s.crcv.crc ^^^ s.cfg.crcXorout ≠ (s.crcv.stored <<< 8) ||| (0xFD#8).setWidth 32 := by decide
theorem witness_CrcvEndOfStreamFaults : ∀ u, u = step3 ∨ u = step4 ∨ u = step10 ∨ u = step14 →
    (crcvAt u [.eos]).nextMove = some .crcv ∧ (crcvAt u [.eos]).crcvIn.items = .eos :: [] ∧
    (u.phase = .len ∨ u.phase = .type ∨ u.phase = .data ∨ u.phase = .crc) := by
  rintro u (rfl | rfl | rfl | rfl) <;> decide
theorem witness_UnitWithoutStepWaits : (crcvAt { step3 with phase := .done } [.eos]).nextMove = some .crcv ∧
    (crcvAt step3 []).crcvIn.items = [] ∧ (crcvAt step3 []).nextMove = some .crcv ∧
    (reconAt { p5 0#8 0 0 with phase := .fault } [] [.eos]).nextMove = some .recon ∧
    (reconAt (p5 0#8 0 0) [] []).reconIn.items = [] := by decide
theorem witness_PositionCountsConsumedBytes : ∃ t, step (crcvAt { step3 with pos := 0xFFFFFFFFFFFFFFFF#64 } [.byte 3#8]) = .next t ∧
    t.crcv.pos = 0#64 := ⟨_, rfl, by decide⟩

/-- A machine at a record boundary, about to read V-STEP-1's record and nothing else. -/
def recordAt (payload : List Byte) : State :=
  { State.reset with
    crcv := { Crcv.reset with phase := .len }
    crcvIn := { items := byteItems (encodeRecord { tag := 0x49444154#32, payload := payload, checksum := 0xB8C66FFC#32 }), gate := .accepting }
    agenda := List.replicate (12 + payload.length) .crcv }
theorem witness_VerifiedRecordRun : let r : Record := { tag := 0x49444154#32, payload := [0xAA#8, 0xBB#8, 0xCC#8], checksum := 0xB8C66FFC#32 }
    let s := recordAt r.payload
    r.wf = true ∧ r.checksum = recordChecksum s.cfg r.tag r.payload ∧ s.crcv.phase = .len ∧ s.crcv.k = 0#2 ∧
    s.crcvIn.items = byteItems (encodeRecord r) ++ [] ∧ s.agenda = List.replicate (12 + r.payload.length) .crcv ++ [] := by
  decide +kernel
theorem witness_ChangedPayloadByteFaults : let s := recordAt [0xAB#8, 0xBB#8, 0xCC#8]
    let good := checkedRecord s.cfg 0x49444154#32 ([] ++ 0xAA#8 :: [0xBB#8, 0xCC#8])
    let bad : Record := { good with payload := [] ++ 0xAB#8 :: [0xBB#8, 0xCC#8] }
    s.cfg.crcPoly.getLsbD 31 = true ∧ good.wf = true ∧ s.crcv.phase = .len ∧ s.crcv.k = 0#2 ∧
    s.crcvIn.items = byteItems (encodeRecord bad) ++ [] ∧ s.agenda = List.replicate (12 + bad.payload.length) .crcv ++ [] := by
  decide +kernel
/-- CRCV just started, on a short stream. -/
def startedCrcv : State :=
  { State.reset with
    crcv := { Crcv.reset with phase := .len }
    crcvIn := { items := [.byte 0#8, .byte 0#8, .eos], gate := .shut }
    agenda := [.crcv, .crcv, .crcv] }
theorem witness_CrcvRunIsChunkRead : startedCrcv.cfg.tagIdat ≠ startedCrcv.cfg.tagEnd ∧
    startedCrcv.crcv = { Crcv.reset with phase := .len } ∧ startedCrcv.crcvIn.items = byteItems [0#8, 0#8] ++ [.eos] ∧
    startedCrcv.agenda = List.replicate 3 .crcv ++ [] := by decide
/-- CRCV just started, on a whole stream. -/
def startedCrcvOn (stream : List Byte) : State :=
  { startedCrcv with
    crcvIn := { items := byteItems stream ++ [.eos], gate := .shut }
    agenda := List.replicate (stream.length + 1) .crcv }
/-- R72's `REC.END`, and a byte after it. -/
def endStream : List Byte :=
  [0x00#8, 0x00#8, 0x00#8, 0x00#8, 0x49#8, 0x45#8, 0x4E#8, 0x44#8, 0xAE#8, 0x42#8, 0x60#8, 0x82#8, 0xFF#8]
theorem witness_CrcvRunIsChunkRead_ok : let s := startedCrcvOn endStream
    s.cfg.tagIdat ≠ s.cfg.tagEnd ∧ s.crcv = { Crcv.reset with phase := .len } ∧
    s.crcvIn.items = byteItems endStream ++ [.eos] ∧ s.agenda = List.replicate (endStream.length + 1) .crcv ++ [] ∧
    chunkRead s.cfg endStream =
      .ok [{ type := 0x49454E44#32, length := 0#32, paypos := 8#64, checksum := 0xAE426082#32 }] 1 0 12 := by
  decide +kernel
/-- `REC.END` with the last checksum byte changed. -/
theorem witness_CrcvRunIsChunkRead_mismatch : let stream := endStream.take 11 ++ [0x83#8]
    let s := startedCrcvOn stream
    s.cfg.tagIdat ≠ s.cfg.tagEnd ∧ s.crcv = { Crcv.reset with phase := .len } ∧
    s.crcvIn.items = byteItems stream ++ [.eos] ∧ s.agenda = List.replicate (stream.length + 1) .crcv ++ [] ∧
    chunkRead s.cfg stream = .mismatch 0xAE426083#32 0xAE426082#32 := by
  decide +kernel
theorem witness_CrcvRunTerminates : startedCrcv.crcv.busy = true ∧ startedCrcv.crcvIn.items = byteItems [0#8, 0#8] ++ [.eos] ∧
    startedCrcv.agenda = List.replicate 3 .crcv ++ [] := by decide

theorem witness_FilterTypeByte : ∀ b, b = 0#8 ∨ b = 4#8 ∨ b = 5#8 ∨ b = 255#8 →
    let s := reconAt { p5 0#8 0 0 with phase := .ftype } [] [.byte b]
    s.nextMove = some .recon ∧ s.reconIn.items = .byte b :: [] ∧ s.recon.phase = .ftype ∧ (b.toNat ≤ 4 ∨ 4 < b.toNat) := by
  rintro b (rfl | rfl | rfl | rfl) <;> decide
/-- RECON inside the image, with the three neighbours written. -/
def insideAt (r c : Nat) : State := reconAt (p5 4#8 r c) [(16, 0x12#8), (20, 0x79#8), (24, 0x13#8)] []
theorem witness_filter_operations : InsideImage (insideAt 3 4) ∧ IsNeighbourA (insideAt 3 4) 0x13#8 ∧
    IsNeighbourB (insideAt 3 4) 0x79#8 ∧ IsNeighbourC (insideAt 3 4) 0x12#8 ∧ IsPaeth 0x13#8 0x79#8 0x12#8 0x79#8 := by
  unfold InsideImage IsNeighbourA IsNeighbourB IsNeighbourC IsPaeth pixAddr
  decide
/-- At the corner no neighbour is read, and the last position of an image is inside it. -/
theorem witness_filter_operations_corner : InsideImage (insideAt 0 0) ∧ IsNeighbourA (insideAt 0 3) 0#8 ∧
    IsNeighbourB (insideAt 0 7) 0#8 ∧ IsNeighbourC (insideAt 0 0) 0#8 ∧ InsideImage (insideAt 4 7) := by
  unfold InsideImage IsNeighbourA IsNeighbourB IsNeighbourC
  decide
theorem witness_ReconEndOfStreamFaults : (reconAt (p5 0#8 0 3) [] [.eos]).nextMove = some .recon ∧
    (reconAt (p5 0#8 0 3) [] [.eos]).reconIn.items = .eos :: [] ∧ (reconAt (p5 0#8 0 3) [] [.eos]).recon.phase = .data := by decide

/-- RECON just started on a 1 by 1 image. -/
def startedRecon : State :=
  { State.reset with
    recon := { Recon.reset with phase := .ftype, width := 1#32, height := 1#32 }
    reconIn := { items := [.byte 0#8, .eos], gate := .shut }
    agenda := [.recon, .recon] }
theorem witness_ReconRunIsReconstruct :
    startedRecon.recon = { Recon.reset with width := startedRecon.recon.width, height := startedRecon.recon.height, phase := .ftype } ∧
    startedRecon.recon.width ≠ 0#32 ∧ startedRecon.recon.height ≠ 0#32 ∧
    startedRecon.reconIn.items = byteItems [0#8] ++ [.eos] ∧ startedRecon.agenda = List.replicate 2 .recon ++ [] := by decide
/-- RECON just started on a 1 by 1 image, on a whole raw stream. -/
def startedReconOn (stream : List Byte) : State :=
  { startedRecon with
    reconIn := { items := byteItems stream ++ [.eos], gate := .shut }
    agenda := List.replicate (stream.length + 1) .recon }
/-- One row of `FLT.SUB`, which at the first pixel leaves the bytes as they are (R125), and a byte after it. -/
theorem witness_ReconRunIsReconstruct_ok : let stream := [0x01#8, 0x10#8, 0x20#8, 0x30#8, 0xFF#8, 0x77#8]
    let s := startedReconOn stream
    s.recon = { Recon.reset with width := s.recon.width, height := s.recon.height, phase := .ftype } ∧
    s.recon.width ≠ 0#32 ∧ s.recon.height ≠ 0#32 ∧ s.reconIn.items = byteItems stream ++ [.eos] ∧
    s.agenda = List.replicate (stream.length + 1) .recon ++ [] ∧
    reconstructImage s.recon.width s.recon.height stream = .ok [0x10#8, 0x20#8, 0x30#8, 0xFF#8] [0x77#8] := by
  decide
theorem witness_ReconRunIsReconstruct_filter : let stream := [0x05#8, 0x10#8]
    let s := startedReconOn stream
    s.recon = { Recon.reset with width := s.recon.width, height := s.recon.height, phase := .ftype } ∧
    s.recon.width ≠ 0#32 ∧ s.recon.height ≠ 0#32 ∧ s.reconIn.items = byteItems stream ++ [.eos] ∧
    s.agenda = List.replicate (stream.length + 1) .recon ++ [] ∧
    reconstructImage s.recon.width s.recon.height stream = .unknownFilterType 0x05#8 := by
  decide
theorem startedRecon_inv : startedRecon.Inv := by
  refine ⟨?_, ?_, by decide, by decide, by decide⟩
  · constructor <;> simp [startedRecon, State.reset, Crcv.reset]
  · constructor <;> simp [startedRecon, State.reset, Recon.reset, Recon.busy, ReconPhase.consuming, Recon.addr, State.overCapacity,
      Config.default]
theorem witness_ReconRunTerminates : startedRecon.ReconInv ∧ startedRecon.recon.busy = true ∧
    startedRecon.reconIn.items = byteItems [0#8] ++ [.eos] ∧ startedRecon.agenda = List.replicate 2 .recon ++ [] :=
  ⟨startedRecon_inv.recon, by decide⟩
theorem witness_ChannelsAreIndependent : ∃ t t',
    exec (filterInstr 1#8 .none) (insideAt 3 4) = .next t ∧ exec (filterInstr 2#8 .none) (insideAt 3 4) = .next t' ∧
    ((insideAt 3 4).recon.col.toNat % 4 = 1 → (1#8 : Byte) = 2#8) := ⟨_, _, rfl, rfl, by decide⟩
theorem witness_PixAccessStops_write : let s := insideAt 5 0
    s.recon.height.toNat * (4 * s.recon.width.toNat) ≤ pixAddr s s.recon.row.toNat s.recon.col.toNat := by
  unfold pixAddr; decide
theorem witness_PixAccessStops_read : let s := insideAt 0 4
    4 ≤ s.recon.col.toNat ∧ pixAddr s s.recon.row.toNat (s.recon.col.toNat - 4) < s.recon.height.toNat * (4 * s.recon.width.toNat) ∧
    Memory.read s.pix (pixAddr s s.recon.row.toNat (s.recon.col.toNat - 4)) = none := by
  unfold pixAddr; decide
theorem witness_PixAccessStops_neighbours : let s := insideAt 1 4
    0 < s.recon.row.toNat ∧ 4 ≤ s.recon.col.toNat ∧
    Memory.read s.pix (pixAddr s (s.recon.row.toNat - 1) s.recon.col.toNat) = none ∧
    Memory.read s.pix (pixAddr s (s.recon.row.toNat - 1) (s.recon.col.toNat - 4)) = none ∧ IsFilterOp (.fltUp 1#8) := by
  refine ⟨by decide, by decide, ?_, ?_, ⟨1#8, by simp⟩⟩ <;> unfold pixAddr <;> decide
theorem witness_PixAccessStops_host :
    let s := hostAt (reconAt { p5 0#8 5 0 with phase := .done } [(0, 0x10#8)] []) (.pixRead 39)
    s.nextMove = some (.host (.pixRead 39)) ∧ s.recon.phase = .done ∧
    39 < s.recon.height.toNat * (4 * s.recon.width.toNat) ∧ Memory.read s.pix 39 = none := by decide
theorem witness_PixAccessStops_filter : let s := reconAt (p5 5#8 0 0) [] [.byte 0#8]
    s.nextMove = some .recon ∧ s.reconIn.items = .byte 0#8 :: [] ∧ s.recon.phase = .data ∧ 4 < s.recon.f.toNat := by decide

theorem witness_CrcvStartCommand : State.reset.crcv.phase = .idle ∧ (crcvAt step3 []).crcv.phase ≠ .idle := by decide
theorem witness_ReconStartCommand : let m : State := { State.reset with
      cfg := { Config.default with pixBytesMax := some 4 }, recon := { Recon.reset with width := 1#32, height := 1#32 } }
    m.recon.phase = .idle ∧ m.recon.width ≠ 0#32 ∧ m.recon.height ≠ 0#32 ∧ m.recon.height.toNat * (4 * m.recon.width.toNat) ≤ 4 := by decide
theorem witness_ReconStartCommand_refused : State.reset.recon.phase = .idle ∧ State.reset.recon.width = 0#32 := by decide
theorem witness_ReconStartCommand_capacity : let r : Recon := { Recon.reset with width := 1#32, height := 2#32 }
    r.phase = .idle ∧ r.width ≠ 0#32 ∧ r.height ≠ 0#32 ∧ ¬r.height.toNat * (4 * r.width.toNat) ≤ 7 := by decide
theorem witness_ConfigurationCommands : State.reset.recon.phase = .idle ∧ startedRecon.recon.phase ≠ .idle := by decide
theorem witness_HostWriteSelectsCommand :
    (hostAt State.reset (.write 0x00 0x3#32)).nextMove = some (.host (.write 0x00 0x3#32)) ∧ (0x3#32 : Word).getLsbD 1 = true ∧
    (0xFFFFFFFD#32 : Word).getLsbD 1 = false ∧ (0xFFFFFFFD#32 : Word).getLsbD 0 = true ∧
    (0xFFFFFFFC#32 : Word).getLsbD 1 = false ∧ (0xFFFFFFFC#32 : Word).getLsbD 0 = false := by decide
theorem witness_StepRunsTheDecodedOperation_record : let s := crcvAt step14 [.byte 0xFC#8]
    s.nextMove = some .crcv ∧ s.crcv.phase = .crc ∧ s.crcv.k = 3#2 ∧
    s.crcv.crc ^^^ s.cfg.crcXorout = shiftIn s.crcv.stored 0xFC#8 ∧ decode s.cfg (.record s.crcv.type) = .ok .recIdat := by decide
theorem witness_StepRunsTheDecodedOperation_row : let s := reconAt (p5 4#8 0 0) [] [.byte 9#8]
    s.nextMove = some .recon ∧ s.recon.phase = .data ∧ decode s.cfg (.row s.recon.f 9#8) = .ok (.fltPaeth 9#8) := by decide
theorem witness_StepRunsTheDecodedOperation_command : let s := hostAt State.reset (.write 0x15 5#32)
    s.nextMove = some (.host (.write 0x15 5#32)) ∧ decode s.cfg (.command 0x15 5#32) = .ok (.cfgHeight 5#32) := by decide
theorem witness_RegisterReads : (hostAt State.reset (.read 0x14)).nextMove = some (.host (.read 0x14)) := by decide
theorem witness_PixReadAtDoneOnly : let s := hostAt (reconAt { p5 0#8 5 0 with phase := .done } [(39, 0x10#8)] []) (.pixRead 39)
    s.nextMove = some (.host (.pixRead 39)) ∧ s.recon.phase = .done ∧ 39 < s.recon.height.toNat * (4 * s.recon.width.toNat) ∧
    Memory.read s.pix 39 = some 0x10#8 := by decide
theorem witness_PixReadAtDoneOnly_refused : let s := hostAt (reconAt { p5 0#8 5 0 with phase := .done } [] []) (.pixRead 40)
    s.nextMove = some (.host (.pixRead 40)) ∧ s.recon.phase = .done ∧
    s.recon.height.toNat * (4 * s.recon.width.toNat) ≤ 40 := by decide
theorem witness_PixReadAtDoneOnly_phase : let s := hostAt startedRecon (.pixRead 0)
    s.nextMove = some (.host (.pixRead 0)) ∧ s.recon.phase ≠ .done := by decide
theorem witness_PushAppendsToThePort : let s := hostAt startedRecon (.push .recon (.byte 1#8))
    s.nextMove = some (.host (.push .recon (.byte 1#8))) ∧
    ¬((s.port .recon).gate = .accepting ∨ ((s.port .recon).gate = .cleared ∧ (s.port .recon).items = [])) ∧
    (hostAt s (.push .crcv .eos)).nextMove = some (.host (.push .crcv .eos)) ∧ (s.port .crcv).gate = .accepting ∧
    (hostAt { s with reconIn := { items := [], gate := .cleared } } (.push .recon .eos)).nextMove =
      some (.host (.push .recon .eos)) ∧
    (hostAt s (.drain .recon)).nextMove = some (.host (.drain .recon)) := by decide
theorem witness_PushBanEndsWithClearAndEmptyPort :
    let s := hostAt startedRecon (.write 0x10 0x2#32)
    (∃ t, step s = .next t ∧ (s.port .recon).gate = .shut ∧ (t.port .recon).gate ≠ .shut) ∧
    ClearsRecon s.nextMove ∧ ∀ item, s.nextMove ≠ some (.host (.push .recon item)) :=
  ⟨⟨_, rfl, by decide⟩, .inl ⟨0x2#32, rfl, by decide⟩, by intro item; simp [hostAt, State.nextMove]⟩
theorem witness_PushBanEndsWithClearAndEmptyPort_reset : ClearsCrcv (hostAt startedCrcv .reset).nextMove ∧
    (∃ t, step (hostAt startedCrcv .reset) = .next t) ∧ ∃ t, step (hostAt startedCrcv (.push .recon .eos)) = .next t :=
  ⟨.inr rfl, ⟨_, rfl⟩, _, rfl⟩
theorem witness_ResetClearsBothUnits : (hostAt startedRecon .reset).nextMove = some (.host .reset) := by decide

theorem witness_InvariantKeptByEveryStep : startedRecon.Inv ∧ ∃ t, step startedRecon = .next t := ⟨startedRecon_inv, _, rfl⟩
theorem witness_InvariantRulesOutMachineFaults : startedRecon.Inv := startedRecon_inv
theorem witness_FinishedUnitHoldsUntilCleared : ∃ t,
    step { crcvAt { step3 with phase := .done } [.eos] with recon := { p5 0#8 0 0 with phase := .fault } } = .next t := ⟨_, rfl⟩
theorem witness_ConfigurationFixedOutsideIdle : (∃ t, step (hostAt startedRecon (.write 0x14 7#32)) = .next t) ∧
    startedRecon.recon.phase ≠ .idle ∧ (hostAt startedRecon (.write 0x14 7#32)).nextMove ≠ some (.host .reset) :=
  ⟨⟨_, rfl⟩, by decide⟩
theorem witness_UnitsShareNoState : (∃ t, step startedCrcv = .next t) ∧ startedCrcv.nextMove = some .crcv ∧
    (∃ t, step startedRecon = .next t) ∧ startedRecon.nextMove = some .recon := ⟨⟨_, rfl⟩, by decide, ⟨_, rfl⟩, by decide⟩
theorem witness_OnlySampleStepsWritePix : let s := reconAt (p5 0#8 0 0) [] [.byte 9#8]
    (∃ t, step s = .next t ∧ Memory.read t.pix 0 ≠ Memory.read s.pix 0) ∧ s.nextMove ≠ some (.host .reset) :=
  ⟨⟨_, rfl, by decide⟩, by decide⟩
theorem witness_RecordOperationsFrame : IsRecordOp .recEnd ∧ (∃ t, exec .recEnd (crcvAt step14 []) = .next t) := ⟨.inl rfl, _, rfl⟩
theorem witness_FilterOperationsFrame : IsFilterOp (.fltPaeth 5#8) ∧ (∃ t, exec (.fltPaeth 5#8) (insideAt 3 4) = .next t) :=
  ⟨⟨5#8, by simp⟩, _, rfl⟩
theorem witness_HostCommandsFrame : (∃ t, exec .crcvStart State.reset = .next t) ∧ (∃ t, exec .reconClear startedRecon = .next t) ∧
    (∃ t, exec (.cfgWidth 7#32) State.reset = .next t) ∧ (∃ t, exec (.cfgHeight 7#32) State.reset = .next t) :=
  ⟨⟨_, rfl⟩, ⟨_, rfl⟩, ⟨_, rfl⟩, ⟨_, rfl⟩⟩

end Sys2Proof.Tests
end

section
/-! SUPPORT. The whole machine under its invariant: what every step keeps, a unit that waits, and runs that end. -/

namespace Sys2Proof.Machine

/-! ### Ports -/

theorem Port.Kept.wf {p q : Port} (h : p.Kept q) (hp : p.wf = true) : q.wf = true := by
  obtain rfl | ⟨_, _, hi, rfl⟩ := h
  · exact hp
  · exact Port.wf_tail hp hi

/-- Every step keeps the form of both ports, whatever agent moves. -/
theorem step_keeps_port_wf {s t : State} (h : step s = .next t) (u : UnitId) (hp : (s.port u).wf = true) :
    (t.port u).wf = true := by
  obtain ⟨-, e⟩ | ⟨item, -, ha, e⟩ | ⟨-, e⟩ | ⟨-, -, -, hk⟩ := step_port h u
  · rw [e]; exact Port.wf_afterClear hp
  · rw [e]; exact Port.wf_push hp item ha
  · rw [e]; exact Port.wf_empty _
  · exact hk.wf hp

/-! ### Registers after a command -/

/-- CRCV's registers after START (42_host_commands.md R151). -/
theorem Crcv.inv_started (cfg : Config) : Crcv.Inv cfg { Crcv.reset with phase := .len } := by
  constructor <;> simp [Crcv.reset]

/-- RECON's part holds when the unit is cleared, whatever the dimensions and `PIX` (42_host_commands.md R154, R155). -/
theorem State.ReconInv.of_cleared {s : State}
    (h : s.recon = { Recon.reset with width := s.recon.width, height := s.recon.height }) : s.ReconInv := by
  have hp : s.recon.phase = .idle := by rw [h]; rfl
  have he : s.recon.err = 0#4 ∧ s.recon.errInfo = 0#8 := by rw [h]; exact ⟨rfl, rfl⟩
  constructor <;> simp [Recon.busy, ReconPhase.consuming, hp, he]
  exact h

/-- RECON's part holds at the first filter byte of an image that is not empty and fits (42_host_commands.md R153). -/
theorem State.ReconInv.of_started {s : State}
    (h : s.recon = { Recon.reset with width := s.recon.width, height := s.recon.height, phase := .ftype })
    (hw : s.recon.width ≠ 0#32) (hh : s.recon.height ≠ 0#32) (hf : s.overCapacity = false) : s.ReconInv := by
  have hp : s.recon.phase = .ftype := by rw [h]
  have hr : s.recon.row = 0#32 := by rw [h]; rfl
  have hc : s.recon.col = 0#34 := by rw [h]; rfl
  have he : s.recon.err = 0#4 ∧ s.recon.errInfo = 0#8 := by rw [h]; exact ⟨rfl, rfl⟩
  have hh' : 0 < s.recon.height.toNat := Nat.pos_of_ne_zero fun e => hh (BitVec.eq_of_toNat_eq (by simpa using e))
  constructor <;> simp [Recon.busy, ReconPhase.consuming, Recon.addr, hp, hr, hc, he, hw, hf, hh']

/-! ### The invariant without the ports -/

/-- The part of the invariant that speaks of the units' registers and of `PIX`; `State.Inv` adds the ports. -/
structure State.UnitsInv (s : State) : Prop where
  crcv : Crcv.Inv s.cfg s.crcv
  recon : s.ReconInv
  pix : Memory.wf s.pix = true

theorem State.Inv.units {s : State} (h : s.Inv) : s.UnitsInv := ⟨h.crcv, h.recon, h.pix⟩

theorem State.UnitsInv.congr {s t : State} (h : s.UnitsInv) (h1 : t.cfg = s.cfg) (h2 : t.crcv = s.crcv)
    (h3 : t.recon = s.recon) (h4 : t.pix = s.pix) : t.UnitsInv :=
  ⟨by rw [h1, h2]; exact h.crcv, h.recon.congr h1 h3 h4, by rw [h4]; exact h.pix⟩

/-- New CRCV registers that meet their part keep the whole. -/
theorem State.UnitsInv.with_crcv {s t : State} (h : s.UnitsInv) (hc : Crcv.Inv t.cfg t.crcv) (h1 : t.cfg = s.cfg)
    (h2 : t.recon = s.recon) (h3 : t.pix = s.pix) : t.UnitsInv :=
  ⟨hc, h.recon.congr h1 h2 h3, by rw [h3]; exact h.pix⟩

/-- New RECON registers that meet their part keep the whole. -/
theorem State.UnitsInv.with_recon {s t : State} (h : s.UnitsInv) (hr : t.ReconInv) (h1 : t.cfg = s.cfg)
    (h2 : t.crcv = s.crcv) (h3 : t.pix = s.pix) : t.UnitsInv :=
  ⟨by rw [h1, h2]; exact h.crcv, hr, by rw [h3]; exact h.pix⟩

/-- RECON's registers in IDLE, whatever dimensions are written to them. -/
theorem State.ReconInv.idle_with {s : State} (h : s.ReconInv) (hp : s.recon.phase = .idle) (w k : Word) :
    { s.recon with width := w, height := k } = { Recon.reset with width := w, height := k } := by
  rw [h.idle_is_clear hp]

/-- A `RECON.START` that goes on has no effect, or starts an image that is not empty and fits (R153). -/
theorem execReconStart_next {s t : State} (h : execReconStart s = .next t) :
    t = s ∨ (s.recon.width ≠ 0#32 ∧ s.recon.height ≠ 0#32 ∧ s.overCapacity = false ∧
      t = s.setRecon { s.clearRecon.recon with phase := .ftype }) := by
  unfold execReconStart at h
  split at h
  · cases h
    exact .inl rfl
  · split at h
    · cases h
    · rename_i hd
      obtain ⟨hw, hh⟩ := not_or.mp hd
      split at h <;> cases h
      rename_i hf
      exact .inr ⟨hw, hh, by simpa using hf, rfl⟩

/-- A register write that goes on keeps the units' part (R151 to R155). -/
theorem State.UnitsInv.of_command {s t : State} {index : Nat} {v : Word} (hI : s.UnitsInv)
    (h : runEncoded (.command index v) s = .next t) : t.UnitsInv := by
  obtain ⟨-, -, e⟩ | ⟨-, -, -, e⟩ | ⟨-, -, e⟩ | ⟨-, -, -, e⟩ | ⟨-, e⟩ | ⟨-, e⟩ | ⟨-, e⟩ :=
    runEncoded_command_cases index v s <;> rw [e] at h
  · -- `CRCV.CLEAR`
    cases h
    exact hI.with_crcv (Crcv.inv_reset _) rfl rfl rfl
  · -- `CRCV.START`
    unfold execCrcvStart at h
    split at h <;> cases h
    · exact hI.with_crcv (Crcv.inv_started _) rfl rfl rfl
    · exact hI
  · -- `RECON.CLEAR`
    cases h
    exact hI.with_recon (.of_cleared rfl) rfl rfl rfl
  · -- `RECON.START`
    obtain rfl | ⟨hw, hh, hf, rfl⟩ := execReconStart_next h
    · exact hI
    · exact hI.with_recon (.of_started rfl hw hh hf) rfl rfl rfl
  · -- `CFG.WIDTH`
    unfold execCfgWidth at h
    split at h <;> cases h
    · exact hI.with_recon (.of_cleared (hI.recon.idle_with ‹_› _ _)) rfl rfl rfl
    · exact hI
  · -- `CFG.HEIGHT`
    unfold execCfgHeight at h
    split at h <;> cases h
    · exact hI.with_recon (.of_cleared (hI.recon.idle_with ‹_› _ _)) rfl rfl rfl
    · exact hI
  · -- no command
    cases h
    exact hI

/-- A move of RECON that goes on is a sample step in phase DATA, or is as `reconPlain` says. -/
theorem step_recon_cases {s t : State} (hm : s.nextMove = some .recon) (h : step s = .next t) :
    (∃ x rest f, s.recon.phase = .data ∧ s.reconIn.items = .byte x :: rest ∧
      reconstruct ((reconSample s rest).predicted f) x (reconSample s rest) = .next t) ∨
    (¬(s.recon.phase = .data ∧ ∃ x rest, s.reconIn.items = .byte x :: rest) ∧ t = reconPlain s) := by
  by_cases hp : s.recon.phase = .data ∧ ∃ x rest, s.reconIn.items = .byte x :: rest
  · obtain ⟨hd, x, rest, hi⟩ := hp
    rw [step_recon_sample hm hd hi] at h
    cases hf : decodeFilter s.recon.f with
    | none => rw [runEncoded_row_illegal _ _ hf] at h; cases h
    | some f =>
      rw [runEncoded_row _ _ hf, exec_filterInstr] at h
      exact .inl ⟨x, rest, f, hd, hi, h⟩
  · rw [step_recon_plain hm hp] at h
    cases h
    exact .inr ⟨hp, rfl⟩

/-- A move of RECON keeps RECON's part, be it a sample step or any other. -/
theorem State.ReconInv.of_step_recon {s t : State} (hI : s.ReconInv) (hm : s.nextMove = some .recon)
    (h : step s = .next t) : t.ReconInv := by
  obtain ⟨x, rest, f, hd, -, h⟩ | ⟨hp, rfl⟩ := step_recon_cases hm h
  · exact State.ReconInv.sample (s := reconSample s rest) (hI.congr rfl rfl rfl) hd h
  · exact hI.plain hp

@[simp] theorem reconPlain_pix (s : State) : (reconPlain s).pix = s.pix := by
  unfold reconPlain
  repeat' split
  all_goals rfl

/-- A move of RECON keeps the canonical form of `PIX`: it writes one byte or none (20_memory.md R42). -/
theorem step_recon_keeps_pix_wf {s t : State} (hm : s.nextMove = some .recon) (h : step s = .next t)
    (hw : Memory.wf s.pix = true) : Memory.wf t.pix = true := by
  obtain ⟨x, rest, f, -, -, h⟩ | ⟨-, rfl⟩ := step_recon_cases hm h
  · obtain ⟨p, -, -, rfl⟩ := reconstruct_next h
    exact Memory.wf_write hw _ _
  · rwa [reconPlain_pix]

theorem State.UnitsInv.of_step_recon {s t : State} (hI : s.UnitsInv) (hm : s.nextMove = some .recon)
    (h : step s = .next t) : t.UnitsInv := by
  obtain ⟨hcfg, hcrcv, -⟩ := step_recon_frame hm h
  exact ⟨by rw [hcfg, hcrcv]; exact hI.crcv, hI.recon.of_step_recon hm h, step_recon_keeps_pix_wf hm h hI.pix⟩

/-- A host primitive that goes on keeps the units' part. -/
theorem State.UnitsInv.of_step_host {s t : State} {op : HostOp} (hI : s.UnitsInv)
    (hm : s.nextMove = some (.host op)) (h : step s = .next t) : t.UnitsInv := by
  cases op with
  | write index v =>
    rw [step_write hm] at h
    exact State.UnitsInv.of_command (s := s.popMove) (hI.congr rfl rfl rfl rfl) h
  | read index =>
    rw [step_read hm] at h
    cases h
    exact hI.congr rfl rfl rfl rfl
  | pixRead a =>
    rw [step_pixRead hm, pixReadMove] at h
    repeat' split at h
    all_goals cases h
    exact hI.congr rfl rfl rfl rfl
  | push u item =>
    obtain ⟨-, rfl⟩ := step_push_next hm h
    cases u <;> exact hI.congr rfl rfl rfl rfl
  | drain u =>
    rw [step_drain hm] at h
    cases h
    cases u <;> exact hI.congr rfl rfl rfl rfl
  | reset =>
    rw [step_reset hm] at h
    cases h
    exact ⟨Crcv.inv_reset _, .of_cleared rfl, Memory.wf_nil⟩

/-- Every step keeps the units' part of the invariant, whatever agent moves. -/
theorem State.UnitsInv.of_step {s t : State} (hI : s.UnitsInv) (h : step s = .next t) : t.UnitsInv := by
  cases hm : s.nextMove with
  | none =>
    rw [step_none hm] at h
    cases h
    exact hI
  | some m =>
    cases m with
    | crcv =>
      rw [step_crcv_eq hm] at h
      cases h
      exact hI.with_crcv (Crcv.inv_move _ hI.crcv) rfl rfl rfl
    | recon => exact hI.of_step_recon hm h
    | host op => exact hI.of_step_host hm h

/-- Settles O50: the units' part by the agent that moves, the form of the ports by what a step can do to a port. -/
theorem invariantKeptByEveryStep : Obligations.InvariantKeptByEveryStep := by
  intro s t hI h
  obtain ⟨hcrcv, hrecon, hpix⟩ := hI.units.of_step h
  exact ⟨hcrcv, hrecon, hpix, step_keeps_port_wf h .crcv hI.crcvIn, step_keeps_port_wf h .recon hI.reconIn⟩

/-! ### Runs that end -/

/-- The phases of CRCV that consume nothing (10_state.md R12). -/
theorem CrcvPhase.consuming_eq_false_iff {p : CrcvPhase} :
    p.consuming = false ↔ p = .idle ∨ p = .done ∨ p = .fault := by
  cases p <;> simp [CrcvPhase.consuming]

/-- The phases of RECON that consume nothing (10_state.md R17). -/
theorem ReconPhase.consuming_eq_false_iff {p : ReconPhase} :
    p.consuming = false ↔ p = .idle ∨ p = .done ∨ p = .fault := by
  cases p <;> simp [ReconPhase.consuming]

/-- Moves of CRCV through bytes and `EOS` end in DONE or FAULT: each byte leaves CRCV consuming or finished, and `EOS`
ends what still consumes. -/
theorem Crcv.moves_finish (cfg : Config) (bytes : List Byte) {u : Crcv} (hc : u.phase.consuming = true) :
    (u.moves cfg (bytes.length + 1) (byteItems bytes ++ [.eos])).1.phase = .done ∨
    (u.moves cfg (bytes.length + 1) (byteItems bytes ++ [.eos])).1.phase = .fault := by
  induction bytes generalizing u with
  | nil =>
    right
    exact congrArg (·.1.phase) (Crcv.moves_eos cfg 0 [] hc)
  | cons b bytes ih =>
    have e : u.moves cfg ((b :: bytes).length + 1) (byteItems (b :: bytes) ++ [.eos]) =
        (u.afterByte cfg b).moves cfg (bytes.length + 1) (byteItems bytes ++ [.eos]) :=
      Crcv.moves_byte cfg (bytes.length + 1) b _ hc
    rw [e]
    cases hb : (u.afterByte cfg b).phase.consuming with
    | true => exact ih hb
    | false =>
      rw [Crcv.moves_waiting cfg _ _ hb]
      exact (CrcvPhase.consuming_eq_false_iff.mp hb).resolve_left (Crcv.afterByte_phase b hc)

/-- Settles O21: a run of CRCV moves is `Crcv.moves`, which finishes. -/
theorem crcvRunTerminates : Obligations.CrcvRunTerminates := by
  intro s bytes moves hb hi ha
  refine ⟨_, run_crcv (bytes.length + 1) ha, ?_⟩
  rw [hi]
  exact Crcv.moves_finish s.cfg bytes hb

/-- The advance of R131 never enters IDLE. -/
theorem Recon.advance_phase_ne_idle {u : Recon} (h : u.phase ≠ .idle) : u.advance.phase ≠ .idle := by
  unfold Recon.advance Recon.rowEnd
  split
  · exact h
  · split <;> simp

/-- A filter byte, legal or not, never takes RECON to IDLE (41_filter_reconstructor.md R121). -/
theorem Recon.afterFilterByte_phase_ne_idle (b : Byte) (u : Recon) : (u.afterFilterByte b).phase ≠ .idle := by
  unfold Recon.afterFilterByte
  split <;> simp

/-- A move of a running RECON that goes on consumes the head item, never enters IDLE, and takes `EOS` to FAULT. -/
theorem step_recon_item {s t : State} {i : Item} {rest : List Item} (hm : s.nextMove = some .recon)
    (hb : s.recon.phase.consuming = true) (hi : s.reconIn.items = i :: rest) (h : step s = .next t) :
    t.reconIn.items = rest ∧ t.recon.phase ≠ .idle ∧ (i = .eos → t.recon.phase = .fault) := by
  obtain ⟨x, rest', f, hd, hi', h⟩ | ⟨-, rfl⟩ := step_recon_cases hm h
  · obtain ⟨rfl, rfl⟩ : i = .byte x ∧ rest = rest' := by simpa [hi] using hi'
    obtain ⟨p, -, -, rfl⟩ := reconstruct_next h
    exact ⟨rfl, Recon.advance_phase_ne_idle (by simp [reconSample, hd]), nofun⟩
  · rw [reconPlain, if_pos hb, hi]
    cases i with
    | eos => exact ⟨rfl, nofun, fun _ => rfl⟩
    | byte b => exact ⟨rfl, Recon.afterFilterByte_phase_ne_idle b _, nofun⟩

/-- Settles O33, by induction on the bytes: under the invariant each move goes on and keeps it, and leaves RECON running
on the rest of the stream, or finished and waiting. -/
theorem reconRunTerminates : Obligations.ReconRunTerminates := by
  intro s bytes moves hI hb hi ha
  induction bytes generalizing s with
  | nil =>
    have hm := State.nextMove_cons ha
    obtain ⟨t, h⟩ := hI.exists_next hm
    obtain ⟨-, -, hf⟩ := step_recon_item hm hb hi h
    exact ⟨t, run_succ_next 0 h, .inr (hf rfl)⟩
  | cons b bytes ih =>
    have hm := State.nextMove_cons ha
    obtain ⟨t, h⟩ := hI.exists_next hm
    obtain ⟨hi', hne, -⟩ := step_recon_item hm hb hi h
    obtain ⟨-, -, -, -, ha', -⟩ := step_recon_frame hm h
    rw [ha] at ha'
    rw [List.length_cons, run_succ_next _ h]
    cases hc : t.recon.phase.consuming with
    | true => exact ih t (hI.of_step_recon hm h) hc hi' ha'
    | false => exact ⟨_, run_recon_waiting _ ha' hc, (ReconPhase.consuming_eq_false_iff.mp hc).resolve_left hne⟩

/-! ### A unit without a step -/

/-- CRCV without a step keeps its registers and its port. -/
theorem Crcv.move_waiting {cfg : Config} {u : Crcv} {items : List Item}
    (h : u.phase.consuming = false ∨ items = []) : u.move cfg items = (u, items) := by
  obtain h | rfl := h
  · simp [Crcv.move, h]
  · unfold Crcv.move
    split <;> rfl

/-- RECON without a step leaves all but the agenda. -/
theorem reconPlain_waiting {s : State} (h : s.recon.phase.consuming = false ∨ s.reconIn.items = []) :
    reconPlain s = s.popMove := by
  unfold reconPlain
  obtain h | h := h
  · rw [if_neg (by simp [h])]
  · rw [h]
    split <;> rfl

/-- Settles O16: IDLE, DONE and FAULT consume nothing, and a move without a step changes the agenda alone. -/
theorem unitWithoutStepWaits : Obligations.UnitWithoutStepWaits := by
  intro s
  constructor
  · intro hm hw
    have hw' : s.crcv.phase.consuming = false ∨ s.crcvIn.items = [] := by
      rw [CrcvPhase.consuming_eq_false_iff]
      simpa only [or_assoc] using hw
    rw [step_crcv_eq hm, Crcv.move_waiting hw']
  · intro hm hw
    have hw' : s.recon.phase.consuming = false ∨ s.reconIn.items = [] := by
      rw [ReconPhase.consuming_eq_false_iff]
      simpa only [or_assoc] using hw
    have hp : ¬(s.recon.phase = .data ∧ ∃ x rest, s.reconIn.items = .byte x :: rest) := by
      rintro ⟨hd, x, rest, hi⟩
      simp [hd, hi, ReconPhase.consuming] at hw'
    rw [step_recon_plain hm hp, reconPlain_waiting hw']
    rfl

end Sys2Proof.Machine
end

section
/-! SUPPORT. The state and its registers: what the six commands leave, what no step changes, and what the register file
reads as. -/

namespace Sys2Proof.Machine

/-! ### The state after reset -/

/-- Settles O49: each unit is as its `CLEAR` leaves it, nothing is listed in `PIX`, and both ports are empty. -/
theorem invariantHoldsAtReset : Obligations.InvariantHoldsAtReset :=
  ⟨Crcv.inv_reset _, .of_cleared rfl, Memory.wf_reset, Port.wf_empty _, Port.wf_empty _⟩

/-! ### The commands -/

/-- A `CRCV.START` that goes on has no effect, or starts the unit (42_host_commands.md R151). -/
theorem execCrcvStart_next {s t : State} (h : execCrcvStart s = .next t) :
    t = s ∨ t = s.setCrcv { Crcv.reset with phase := .len } := by
  unfold execCrcvStart at h
  split at h <;> cases h
  · exact .inr rfl
  · exact .inl rfl

/-- A `CFG.WIDTH` that goes on has no effect, or writes `WIDTH` (42_host_commands.md R155). -/
theorem execCfgWidth_next {s t : State} {v : Word} (h : execCfgWidth v s = .next t) :
    t = s ∨ t = s.setRecon { s.recon with width := v } := by
  unfold execCfgWidth at h
  split at h <;> cases h
  · exact .inr rfl
  · exact .inl rfl

/-- A `CFG.HEIGHT` that goes on has no effect, or writes `HEIGHT` (42_host_commands.md R155). -/
theorem execCfgHeight_next {s t : State} {v : Word} (h : execCfgHeight v s = .next t) :
    t = s ∨ t = s.setRecon { s.recon with height := v } := by
  unfold execCfgHeight at h
  split at h <;> cases h
  · exact .inr rfl
  · exact .inl rfl

/-- Settles O59, command by command, from what each can answer; `PIX` is the same list. -/
theorem hostCommandsFrame : Obligations.HostCommandsFrame := by
  intro s t v
  refine ⟨fun h => ?_, fun h => ?_, fun h => ?_, fun h => ?_, fun h => ?_, fun h => ?_⟩
  · -- `CRCV.START`
    obtain rfl | rfl := execCrcvStart_next h <;> exact ⟨rfl, fun _ => rfl⟩
  · -- `CRCV.CLEAR`
    cases h
    exact ⟨rfl, fun _ => rfl⟩
  · -- `RECON.START`
    obtain rfl | ⟨-, -, -, rfl⟩ := execReconStart_next h <;> exact ⟨rfl, rfl, rfl, fun _ => rfl⟩
  · -- `RECON.CLEAR`
    cases h
    exact ⟨rfl, rfl, rfl, fun _ => rfl⟩
  · -- `CFG.WIDTH`
    obtain rfl | rfl := execCfgWidth_next h <;> exact ⟨rfl, fun _ => rfl⟩
  · -- `CFG.HEIGHT`
    obtain rfl | rfl := execCfgHeight_next h <;> exact ⟨rfl, fun _ => rfl⟩

/-! ### What no step changes -/

/-- A register write that goes on keeps the parameters. -/
theorem runEncoded_command_cfg {s t : State} {index : Nat} {v : Word}
    (h : runEncoded (.command index v) s = .next t) : t.cfg = s.cfg := by
  obtain ⟨-, -, e⟩ | ⟨-, -, -, e⟩ | ⟨-, -, e⟩ | ⟨-, -, -, e⟩ | ⟨-, e⟩ | ⟨-, e⟩ | ⟨-, e⟩ :=
    runEncoded_command_cases index v s <;> rw [e] at h
  · -- `CRCV.CLEAR`
    cases h
    rfl
  · -- `CRCV.START`
    obtain rfl | rfl := execCrcvStart_next h <;> rfl
  · -- `RECON.CLEAR`
    cases h
    rfl
  · -- `RECON.START`
    obtain rfl | ⟨-, -, -, rfl⟩ := execReconStart_next h <;> rfl
  · -- `CFG.WIDTH`
    obtain rfl | rfl := execCfgWidth_next h <;> rfl
  · -- `CFG.HEIGHT`
    obtain rfl | rfl := execCfgHeight_next h <;> rfl
  · -- no command
    cases h
    rfl

/-- A `PixRead` that goes on only notes a byte (42_host_commands.md R157). -/
theorem pixReadMove_next {s t : State} {a : Nat} (h : pixReadMove a s = .next t) :
    ∃ b, t = s.observe (.pix a b) := by
  unfold pixReadMove at h
  repeat' split at h
  all_goals cases h
  exact ⟨_, rfl⟩

/-- A host primitive that goes on keeps the parameters. -/
theorem step_host_cfg {s t : State} {op : HostOp} (hm : s.nextMove = some (.host op)) (h : step s = .next t) :
    t.cfg = s.cfg := by
  cases op with
  | write index v =>
    rw [step_write hm] at h
    exact runEncoded_command_cfg (s := s.popMove) h
  | read index =>
    rw [step_read hm] at h
    cases h
    rfl
  | pixRead a =>
    rw [step_pixRead hm] at h
    obtain ⟨b, rfl⟩ := pixReadMove_next h
    rfl
  | push u item =>
    obtain ⟨-, rfl⟩ := step_push_next hm h
    cases u <;> rfl
  | drain u =>
    rw [step_drain hm] at h
    cases h
    cases u <;> rfl
  | reset =>
    rw [step_reset hm] at h
    cases h
    rfl

/-- A move of CRCV leaves everything that is not CRCV's own (10_state.md R10). -/
theorem step_crcv_frame {s t : State} (hm : s.nextMove = some .crcv) (h : step s = .next t) :
    t.cfg = s.cfg ∧ t.recon = s.recon ∧ t.pix = s.pix ∧ t.reconIn = s.reconIn := by
  rw [step_crcv_eq hm] at h
  cases h
  exact ⟨rfl, rfl, rfl, rfl⟩

/-- No step changes the parameters (00_scope.md R6), whatever agent moves. -/
theorem step_cfg {s t : State} (h : step s = .next t) : t.cfg = s.cfg := by
  cases hm : s.nextMove with
  | none =>
    rw [step_none hm] at h
    cases h
    rfl
  | some m =>
    cases m with
    | crcv => exact (step_crcv_frame hm h).1
    | recon => exact (step_recon_frame hm h).1
    | host op => exact step_host_cfg hm h

/-- Settles O54, from the frame of each unit's move. -/
theorem unitsShareNoState : Obligations.UnitsShareNoState := by
  intro s t h
  refine ⟨fun hm => ?_, fun hm => ?_, step_cfg h⟩
  · exact (step_crcv_frame hm h).2
  · obtain ⟨-, hcrcv, hport, -⟩ := step_recon_frame hm h
    exact ⟨hcrcv, hport⟩

/-! ### The register file -/

/-- The two words of a register of at most 64 bits compose it (10_state.md R23). -/
theorem halves_toNat {n : Nat} (hn : n ≤ 64) (x : BitVec n) :
    ((x >>> 32).setWidth 32).toNat * 2 ^ 32 + (x.setWidth 32).toNat = x.toNat := by
  have hx : x.toNat < 2 ^ 64 := Nat.lt_of_lt_of_le x.isLt (Nat.pow_le_pow_right (by decide) hn)
  simp only [BitVec.toNat_setWidth, BitVec.toNat_ushiftRight, Nat.shiftRight_eq_div_pow]
  omega

/-- The indices with no register read 0 (10_state.md R23). -/
theorem State.hostRead_reserved (s : State) {index : Nat} (h : index = 0x0F ∨ 0x19 < index) :
    s.hostRead index = 0#32 := by
  obtain rfl | h := h
  · rfl
  · obtain ⟨n, rfl⟩ := Nat.exists_eq_add_of_le' h
    rfl

/-- Settles O43: a read is noted and changes nothing else, the two words of a wide register compose it, and the other
registers are read as they stand. -/
theorem registerReads : Obligations.RegisterReads := by
  refine ⟨fun s index h => step_read h, fun s => ?_⟩
  have hpos := halves_toNat (by decide) s.crcv.pos
  have hpaypos := halves_toNat (by decide) s.crcv.paypos
  have hcol := halves_toNat (by decide) s.recon.col
  exact ⟨rfl, rfl, rfl, rfl, rfl, rfl, rfl, rfl, rfl, hpos, rfl, rfl, hpaypos, rfl, rfl, rfl, rfl, rfl, rfl, rfl, hcol, rfl,
    fun _ => s.hostRead_reserved⟩

/-! ### The `STATUS` registers -/

/-- Where a `STATUS` word holds its fields (10_state.md R25). -/
theorem statusBits_fields (phase : BitVec 3) (busy done fault : Bool) (k : BitVec 2) :
    let w := statusBits phase busy done fault ||| (k.setWidth 32 <<< 6)
    w.extractLsb' 0 3 = phase ∧ w.getLsbD 3 = busy ∧ w.getLsbD 4 = done ∧ w.getLsbD 5 = fault ∧
    w.extractLsb' 6 2 = k ∧ w.extractLsb' 8 24 = 0#24 := by
  revert phase busy done fault k
  decide

/-- A `STATUS` word with no `K` field is 0 above the flags (10_state.md R26). -/
theorem statusBits_high (phase : BitVec 3) (busy done fault : Bool) :
    (statusBits phase busy done fault).extractLsb' 6 26 = 0#26 := by
  revert phase busy done fault
  decide

/-- CRCV is busy in the four phases that consume (10_state.md R22). -/
theorem Crcv.busy_iff (u : Crcv) :
    u.busy = true ↔ u.phase = .len ∨ u.phase = .type ∨ u.phase = .data ∨ u.phase = .crc := by
  unfold Crcv.busy
  cases u.phase <;> simp [CrcvPhase.consuming]

/-- RECON is busy in the two phases that consume (10_state.md R22). -/
theorem Recon.busy_iff (u : Recon) : u.busy = true ↔ u.phase = .ftype ∨ u.phase = .data := by
  unfold Recon.busy
  cases u.phase <;> simp [ReconPhase.consuming]

/-- The fields of `CRCV_STATUS` (10_state.md R25). -/
theorem Crcv.status_fields (u : Crcv) :
    u.status.extractLsb' 0 3 = u.phase.code ∧ u.status.getLsbD 3 = u.busy ∧ u.status.getLsbD 4 = u.isDone ∧
    u.status.getLsbD 5 = u.isFault ∧ u.status.extractLsb' 6 2 = u.k ∧ u.status.extractLsb' 8 24 = 0#24 :=
  statusBits_fields u.phase.code u.busy u.isDone u.isFault u.k

/-- The fields of `RECON_STATUS` (10_state.md R26). -/
theorem Recon.status_fields (u : Recon) :
    u.status.extractLsb' 0 3 = u.phase.code ∧ u.status.getLsbD 3 = u.busy ∧ u.status.getLsbD 4 = u.isDone ∧
    u.status.getLsbD 5 = u.isFault ∧ u.status.extractLsb' 6 26 = 0#26 := by
  obtain ⟨hphase, hbusy, hdone, hfault, -⟩ := statusBits_fields u.phase.code u.busy u.isDone u.isFault 0#2
  simp only [BitVec.setWidth_zero, BitVec.zero_shiftLeft, BitVec.or_zero] at hphase hbusy hdone hfault
  exact ⟨hphase, hbusy, hdone, hfault, statusBits_high ..⟩

/-- Settles O44: the fields of the two words, the number of each phase, and the phase each flag names. -/
theorem statusRegisterFields : Obligations.StatusRegisterFields := by
  refine ⟨fun u => ?_, fun u => ?_⟩
  · obtain ⟨hphase, hbusy, hdone, hfault, hk, hhigh⟩ := u.status_fields
    have code : ∀ p, u.phase = p → u.status.extractLsb' 0 3 = p.code := fun _ h => h ▸ hphase
    refine ⟨code .idle, code .len, code .type, code .data, code .crc, code .done, code .fault, ?_, ?_, ?_, hk, hhigh⟩
    · rw [hbusy, u.busy_iff]
    · rw [hdone, Crcv.isDone, beq_iff_eq]
    · rw [hfault, Crcv.isFault, beq_iff_eq]
  · obtain ⟨hphase, hbusy, hdone, hfault, hhigh⟩ := u.status_fields
    have code : ∀ p, u.phase = p → u.status.extractLsb' 0 3 = p.code := fun _ h => h ▸ hphase
    refine ⟨code .idle, code .ftype, code .data, code .done, code .fault, ?_, ?_, ?_, hhigh⟩
    · rw [hbusy, u.busy_iff]
    · rw [hdone, Recon.isDone, beq_iff_eq]
    · rw [hfault, Recon.isFault, beq_iff_eq]

end Sys2Proof.Machine
end

section
/-! SUPPORT. The pixel memory: where an access to it stops the machine, why no step does so under the invariant, which steps
write it, and that the moves of the two units commute. -/

namespace Sys2Proof.Machine

/-! ### Accesses that stop -/

/-- A load outside the image stops (20_memory.md R47). -/
theorem State.pixLoad_outOfRange {s : State} {a : Nat} (h : s.recon.pixBytes ≤ a) :
    s.pixLoad a = .error (.pixOutOfRange a) := by
  rw [State.pixLoad, if_neg (Nat.not_lt.mpr h)]

/-- A load of a byte that nothing has written stops (log 4). -/
theorem State.pixLoad_unwritten {s : State} {a : Nat} (ha : a < s.recon.pixBytes) (h : Memory.read s.pix a = none) :
    s.pixLoad a = .error (.pixUnwritten a) := by
  simp [State.pixLoad, ha, h]

/-- The two ways in which a load stops. -/
theorem State.pixLoad_stops {s : State} {a : Nat} (h : s.recon.pixBytes ≤ a ∨ Memory.read s.pix a = none) :
    ∃ e, s.pixLoad a = .error e := by
  by_cases ha : s.recon.pixBytes ≤ a
  · exact ⟨_, State.pixLoad_outOfRange ha⟩
  · exact ⟨_, State.pixLoad_unwritten (Nat.lt_of_not_le ha) (h.resolve_left ha)⟩

theorem State.neighbourA_of_bpp_le {s : State} (h : Config.bpp ≤ s.recon.col.toNat) :
    s.neighbourA = s.pixLoad (s.recon.addr s.recon.row.toNat (s.recon.col.toNat - Config.bpp)) := if_pos h

theorem State.neighbourB_of_row_pos {s : State} (h : 0 < s.recon.row.toNat) :
    s.neighbourB = s.pixLoad (s.recon.addr (s.recon.row.toNat - 1) s.recon.col.toNat) := if_pos h

theorem State.neighbourC_of_inside {s : State} (h : 0 < s.recon.row.toNat ∧ Config.bpp ≤ s.recon.col.toNat) :
    s.neighbourC = s.pixLoad (s.recon.addr (s.recon.row.toNat - 1) (s.recon.col.toNat - Config.bpp)) := if_pos h

/-- `FLT.AVG` has no predictor without both of its neighbours (41_filter_reconstructor.md R127). -/
theorem State.predicted_avg_stops {s : State} (h : (∃ e, s.neighbourA = .error e) ∨ ∃ e, s.neighbourB = .error e) :
    ∃ e, s.predicted .avg = .error e := by
  unfold State.predicted
  cases hA : s.neighbourA with
  | error e => exact ⟨e, rfl⟩
  | ok a =>
    cases hB : s.neighbourB with
    | error e => exact ⟨e, rfl⟩
    | ok b => simp [hA, hB] at h

/-- `FLT.PAETH` has no predictor without all three neighbours (R128). -/
theorem State.predicted_paeth_stops {s : State}
    (h : (∃ e, s.neighbourA = .error e) ∨ (∃ e, s.neighbourB = .error e) ∨ ∃ e, s.neighbourC = .error e) :
    ∃ e, s.predicted .paeth = .error e := by
  unfold State.predicted
  cases hA : s.neighbourA with
  | error e => exact ⟨e, rfl⟩
  | ok a =>
    cases hB : s.neighbourB with
    | error e => exact ⟨e, rfl⟩
    | ok b =>
      cases hC : s.neighbourC with
      | error e => exact ⟨e, rfl⟩
      | ok c => simp [hA, hB, hC] at h

/-- A sample step whose predictor cannot be formed stops. -/
theorem exec_filterInstr_stops {s : State} {t : FilterType} (x : Byte) (h : ∃ e, s.predicted t = .error e) :
    ∃ e, exec (filterInstr x t) s = .fault e := by
  obtain ⟨e, h⟩ := h
  exact ⟨e, by rw [exec_filterInstr, h]; rfl⟩

/-- A write-back outside the image stops (20_memory.md R47). -/
theorem writeBack_outOfRange {s : State} (v : Byte)
    (h : s.recon.pixBytes ≤ s.recon.addr s.recon.row.toNat s.recon.col.toNat) :
    writeBack v s = .fault (.pixOutOfRange (s.recon.addr s.recon.row.toNat s.recon.col.toNat)) := by
  simp only [writeBack, State.pixStore, if_neg (Nat.not_lt.mpr h)]

/-- Outside the image a sample step stops, at a neighbour or at its write. -/
theorem reconstruct_outOfRange {s : State} (pred : Except Fault Byte) (x : Byte)
    (h : s.recon.pixBytes ≤ s.recon.addr s.recon.row.toNat s.recon.col.toNat) :
    ∃ e, reconstruct pred x s = .fault e := by
  cases pred with
  | error e => exact ⟨e, rfl⟩
  | ok p => exact ⟨_, writeBack_outOfRange _ h⟩

/-- The five filter operations are the operations of the five filter types. -/
theorem exists_filterInstr_of_isFilterOp {i : Instr} (h : Statements.IsFilterOp i) : ∃ x t, i = filterInstr x t := by
  obtain ⟨x, rfl | rfl | rfl | rfl | rfl⟩ := h
  · exact ⟨x, .none, rfl⟩
  · exact ⟨x, .sub, rfl⟩
  · exact ⟨x, .up, rfl⟩
  · exact ⟨x, .avg, rfl⟩
  · exact ⟨x, .paeth, rfl⟩

/-- A `PixRead` at DONE and in range stops where its load does (42_host_commands.md R157). -/
theorem pixReadMove_of_error {s : State} {a : Nat} {e : Fault} (hp : s.recon.phase = .done) (ha : a < s.recon.pixBytes)
    (h : s.pixLoad a = .error e) : pixReadMove a s = .fault e := by
  simp [pixReadMove, hp, Nat.not_le.mpr ha, h]

/-- A `PixRead` that stops was at DONE and in range, and its load stopped. -/
theorem pixReadMove_fault {s : State} {a : Nat} {e : Fault} (h : pixReadMove a s = .fault e) :
    s.recon.phase = .done ∧ a < s.recon.pixBytes ∧ s.pixLoad a = .error e := by
  unfold pixReadMove at h
  split at h
  · cases h
  · rename_i hp
    split at h
    · cases h
    · rename_i ha
      split at h <;> cases h
      exact ⟨Decidable.not_not.mp hp, Nat.lt_of_not_le ha, ‹_›⟩

/-- Settles O35: the write at the position outside the image, each neighbour that cannot be loaded in the operations that
read it, the host's load, and the filter byte that decodes to no operation. -/
theorem pixAccessStops : Obligations.PixAccessStops := by
  intro s x size r c unreadable
  refine ⟨writeBack_outOfRange _, ?_, ?_, ?_, ?_, ?_, ?_⟩
  · intro i hi ho
    obtain ⟨y, t, rfl⟩ := exists_filterInstr_of_isFilterOp hi
    rw [exec_filterInstr]
    exact reconstruct_outOfRange _ y ho
  · intro hc hu
    have hA : ∃ e, s.neighbourA = .error e := by
      rw [State.neighbourA_of_bpp_le hc]
      exact State.pixLoad_stops hu
    exact ⟨exec_filterInstr_stops (t := .sub) x hA,
      exec_filterInstr_stops (t := .avg) x (State.predicted_avg_stops (.inl hA)),
      exec_filterInstr_stops (t := .paeth) x (State.predicted_paeth_stops (.inl hA))⟩
  · intro hr hu
    have hB : ∃ e, s.neighbourB = .error e := by
      rw [State.neighbourB_of_row_pos hr]
      exact State.pixLoad_stops hu
    exact ⟨exec_filterInstr_stops (t := .up) x hB,
      exec_filterInstr_stops (t := .avg) x (State.predicted_avg_stops (.inr hB)),
      exec_filterInstr_stops (t := .paeth) x (State.predicted_paeth_stops (.inr (.inl hB)))⟩
  · intro hr hc hu
    have hC : ∃ e, s.neighbourC = .error e := by
      rw [State.neighbourC_of_inside ⟨hr, hc⟩]
      exact State.pixLoad_stops hu
    exact exec_filterInstr_stops (t := .paeth) x (State.predicted_paeth_stops (.inr (.inr hC)))
  · intro a hm hp ha hn
    rw [step_pixRead hm]
    exact pixReadMove_of_error hp ha (State.pixLoad_unwritten ha hn)
  · intro items hm hi hp hf
    rw [step_recon_sample hm hp hi]
    exact runEncoded_row_illegal x _ ((decodeFilter_eq_none_iff _).mpr hf)

/-! ### No stop under the invariant -/

/-- No register write stops the machine (42_host_commands.md R151 to R155). -/
theorem runEncoded_command_ne_fault (index : Nat) (v : Word) (s : State) (e : Fault) :
    runEncoded (.command index v) s ≠ .fault e := by
  intro h
  obtain ⟨-, -, eq⟩ | ⟨-, -, -, eq⟩ | ⟨-, -, eq⟩ | ⟨-, -, -, eq⟩ | ⟨-, eq⟩ | ⟨-, eq⟩ | ⟨-, eq⟩ :=
    runEncoded_command_cases index v s <;> rw [eq] at h
  · -- `CRCV.CLEAR`
    cases h
  · -- `CRCV.START`
    unfold execCrcvStart at h
    split at h <;> cases h
  · -- `RECON.CLEAR`
    cases h
  · -- `RECON.START`
    unfold execReconStart at h
    repeat' split at h
    all_goals cases h
  · -- `CFG.WIDTH`
    unfold execCfgWidth at h
    split at h <;> cases h
  · -- `CFG.HEIGHT`
    unfold execCfgHeight at h
    split at h <;> cases h
  · -- no command
    cases h

/-- At DONE every byte of the image can be loaded: the position stands behind the last row (20_memory.md R48). -/
theorem State.ReconInv.pixLoad_done {s : State} (hI : s.ReconInv) (hp : s.recon.phase = .done) {a : Nat}
    (ha : a < s.recon.pixBytes) : ∃ b, s.pixLoad a = .ok b := by
  obtain ⟨hrow, hcol⟩ := hI.done_end hp
  have hend : s.recon.addr s.recon.row.toNat s.recon.col.toNat = s.recon.pixBytes := by
    rw [hrow, hcol]
    rfl
  obtain ⟨b, hb⟩ := Option.isSome_iff_exists.mp (hI.written (.inr hp) a (hend ▸ ha))
  exact ⟨b, State.pixLoad_of_read ha hb⟩

/-- Under RECON's part of the invariant no host primitive stops the machine. -/
theorem State.ReconInv.step_host_ne_fault {s : State} {op : HostOp} (hI : s.ReconInv)
    (hm : s.nextMove = some (.host op)) (e : Fault) : step s ≠ .fault e := by
  intro h
  cases op with
  | write index v =>
    rw [step_write hm] at h
    exact runEncoded_command_ne_fault index v _ e h
  | read index =>
    rw [step_read hm] at h
    cases h
  | pixRead a =>
    rw [step_pixRead hm] at h
    obtain ⟨hp, ha, he⟩ := pixReadMove_fault h
    obtain ⟨b, hb⟩ := State.ReconInv.pixLoad_done (s := s.popMove) (hI.congr rfl rfl rfl) hp ha
    rw [hb] at he
    cases he
  | push u item =>
    cases ha : (s.port u).accepts with
    | true =>
      rw [step_push_accepted hm ha] at h
      cases h
    | false =>
      rw [step_push_refused hm ha] at h
      cases h
  | drain u =>
    rw [step_drain hm] at h
    cases h
  | reset =>
    rw [step_reset hm] at h
    cases h

/-- Settles O51, by the agent that moves: CRCV never stops the machine, and RECON and the host do not under RECON's part of
the invariant. -/
theorem invariantRulesOutMachineFaults : Obligations.InvariantRulesOutMachineFaults := by
  intro s hI e h
  cases hm : s.nextMove with
  | none =>
    rw [step_none hm] at h
    cases h
  | some m =>
    cases m with
    | crcv =>
      rw [step_crcv_eq hm] at h
      cases h
    | recon =>
      obtain ⟨t, ht⟩ := hI.recon.exists_next hm
      rw [ht] at h
      cases h
    | host op => exact hI.recon.step_host_ne_fault hm e h

/-! ### The steps that write -/

/-- A register write that goes on leaves every byte of `PIX` (20_memory.md R54). -/
theorem runEncoded_command_read_pix {s t : State} {index : Nat} {v : Word}
    (h : runEncoded (.command index v) s = .next t) (a : Nat) : Memory.read t.pix a = Memory.read s.pix a := by
  obtain ⟨crcvStart, crcvClear, reconStart, reconClear, cfgWidth, cfgHeight⟩ := hostCommandsFrame s t v
  obtain ⟨-, -, e⟩ | ⟨-, -, -, e⟩ | ⟨-, -, e⟩ | ⟨-, -, -, e⟩ | ⟨-, e⟩ | ⟨-, e⟩ | ⟨-, e⟩ :=
    runEncoded_command_cases index v s <;> rw [e] at h
  · exact (crcvClear h).2 a
  · exact (crcvStart h).2 a
  · exact (reconClear h).2.2.2 a
  · exact (reconStart h).2.2.2 a
  · exact (cfgWidth h).2 a
  · exact (cfgHeight h).2 a
  · cases h
    rfl

/-- A host primitive that goes on, other than a reset, leaves every byte of `PIX` (20_memory.md R40). -/
theorem step_host_read_pix {s t : State} {op : HostOp} (hm : s.nextMove = some (.host op)) (h : step s = .next t)
    (hr : op ≠ .reset) (a : Nat) : Memory.read t.pix a = Memory.read s.pix a := by
  cases op with
  | write index v =>
    rw [step_write hm] at h
    exact runEncoded_command_read_pix (s := s.popMove) h a
  | read index =>
    rw [step_read hm] at h
    cases h
    rfl
  | pixRead b =>
    rw [step_pixRead hm] at h
    obtain ⟨_, rfl⟩ := pixReadMove_next h
    rfl
  | push u item =>
    obtain ⟨-, rfl⟩ := step_push_next hm h
    cases u <;> rfl
  | drain u =>
    rw [step_drain hm] at h
    cases h
    cases u <;> rfl
  | reset => exact absurd rfl hr

/-- Settles O56, by the agent that moves: CRCV and the host leave every byte, and RECON's frame names the one it writes. -/
theorem onlySampleStepsWritePix : Obligations.OnlySampleStepsWritePix := by
  intro s t a h hr hne
  cases hm : s.nextMove with
  | none =>
    rw [step_none hm] at h
    cases h
    exact absurd rfl hne
  | some m =>
    cases m with
    | crcv =>
      obtain ⟨-, -, hpix, -⟩ := step_crcv_frame hm h
      exact absurd (by rw [hpix]) hne
    | recon =>
      obtain ⟨-, -, -, -, -, -, -, hpix, -⟩ := step_recon_frame hm h
      exact ⟨rfl, hpix a hne⟩
    | host op =>
      refine absurd (step_host_read_pix hm h ?_ a) hne
      rintro rfl
      exact hr hm

/-! ### The units' moves commute -/

/-- The state with CRCV's registers and port, and the agenda, replaced: what a move of RECON does not look at. -/
def State.withCrcvSide (s : State) (u : Crcv) (p : Port) (moves : List Move) : State :=
  { s with crcv := u, crcvIn := p, agenda := moves }

/-- A result with a function applied to its next state. -/
def mapNext (f : State → State) : Result → Result
  | .next t => .next (f t)
  | .fault e => .fault e
  | .refused r => .refused r

/-- A sample step does the same whatever CRCV's side is. -/
theorem reconstruct_withCrcvSide (pred : Except Fault Byte) (x : Byte) (s : State) (u : Crcv) (p : Port)
    (moves : List Move) :
    reconstruct pred x (s.withCrcvSide u p moves) = mapNext (·.withCrcvSide u p moves) (reconstruct pred x s) := by
  cases pred with
  | error e => rfl
  | ok q =>
    rw [reconstruct_ok, reconstruct_ok]
    by_cases h : s.recon.addr s.recon.row.toNat s.recon.col.toNat < s.recon.pixBytes
    · rw [writeBack_of_lt _ h, writeBack_of_lt (s := s.withCrcvSide u p moves) _ h]
      rfl
    · have h := Nat.le_of_not_lt h
      rw [writeBack_outOfRange _ h, writeBack_outOfRange (s := s.withCrcvSide u p moves) _ h]
      rfl

theorem State.predicted_withCrcvSide (s : State) (u : Crcv) (p : Port) (moves : List Move) (t : FilterType) :
    (s.withCrcvSide u p moves).predicted t = s.predicted t := by
  cases t <;> rfl

/-- Every other move of RECON does the same whatever CRCV's side is. -/
theorem reconPlain_withCrcvSide (s : State) (u : Crcv) (p : Port) (m : Move) (moves : List Move) :
    reconPlain (s.withCrcvSide u p (m :: moves)) = (reconPlain s).withCrcvSide u p moves := by
  unfold reconPlain State.withCrcvSide
  dsimp only
  repeat' split
  all_goals rfl

/-- A move of RECON neither reads nor writes CRCV's side, whatever its outcome (10_state.md R10). -/
theorem step_recon_withCrcvSide {s : State} (hm : s.nextMove = some .recon) (u : Crcv) (p : Port) (moves : List Move) :
    step (s.withCrcvSide u p (.recon :: moves)) = mapNext (·.withCrcvSide u p moves) (step s) := by
  have hm' : (s.withCrcvSide u p (.recon :: moves)).nextMove = some .recon := rfl
  by_cases hp : s.recon.phase = .data ∧ ∃ x rest, s.reconIn.items = .byte x :: rest
  · obtain ⟨hd, x, rest, hi⟩ := hp
    rw [step_recon_sample hm hd hi, step_recon_sample (s := s.withCrcvSide u p (.recon :: moves)) hm' hd hi]
    have hs : reconSample (s.withCrcvSide u p (.recon :: moves)) rest =
        (reconSample s rest).withCrcvSide u p moves := rfl
    have hf' : (s.withCrcvSide u p (.recon :: moves)).recon.f = s.recon.f := rfl
    rw [hs, hf']
    cases hf : decodeFilter s.recon.f with
    | none =>
      rw [runEncoded_row_illegal _ _ hf, runEncoded_row_illegal _ _ hf]
      rfl
    | some f =>
      rw [runEncoded_row _ _ hf, runEncoded_row _ _ hf, exec_filterInstr, exec_filterInstr,
        State.predicted_withCrcvSide, reconstruct_withCrcvSide]
  · rw [step_recon_plain hm hp, step_recon_plain (s := s.withCrcvSide u p (.recon :: moves)) hm' hp,
      reconPlain_withCrcvSide]
    rfl

/-- A run of one step is that step. -/
theorem run_one (s : State) : Sys2Proof.core.run 1 s = step s := by
  cases h : step s with
  | next t => exact run_succ_next 0 h
  | fault e => exact run_succ_fault 0 h
  | refused r => exact run_succ_refused 0 h

/-- `t` with the side of CRCV that a move of CRCV from `s` leaves. -/
def State.withCrcvMoved (s : State) (moves : List Move) (t : State) : State :=
  t.withCrcvSide (s.crcv.move s.cfg s.crcvIn.items).1
    { s.crcvIn with items := (s.crcv.move s.cfg s.crcvIn.items).2 } moves

/-- A move of CRCV replaces CRCV's side alone. -/
theorem step_crcv_side {s : State} (h : s.nextMove = some .crcv) : step s = .next (s.withCrcvMoved s.agenda.tail s) :=
  step_crcv_eq h

/-- After a move of CRCV, RECON moves as it would have without. -/
theorem run_crcv_recon {s : State} (moves : List Move) (h : s.nextMove = some .recon) :
    Sys2Proof.core.run 2 { s with agenda := .crcv :: .recon :: moves } = mapNext (s.withCrcvMoved moves) (step s) := by
  have hcrcv : step { s with agenda := .crcv :: .recon :: moves } = .next (s.withCrcvMoved (.recon :: moves) s) :=
    step_crcv_side rfl
  rw [run_succ_next 1 hcrcv, run_one]
  exact step_recon_withCrcvSide h _ _ moves

/-- After a move of RECON that goes on, CRCV moves as it would have without; one that stops stops the run. -/
theorem run_recon_crcv {s : State} {moves : List Move} (ha : s.agenda = .recon :: .crcv :: moves) :
    Sys2Proof.core.run 2 s = mapNext (s.withCrcvMoved moves) (step s) := by
  cases h : step s with
  | next t =>
    obtain ⟨hcfg, hcrcv, hport, -, hagenda, -⟩ := step_recon_frame (State.nextMove_cons ha) h
    rw [ha, List.tail_cons] at hagenda
    rw [run_succ_next 1 h, run_one, step_crcv_side (State.nextMove_cons hagenda), State.withCrcvMoved, hcfg, hcrcv, hport,
      hagenda]
    rfl
  | fault e => exact run_succ_fault 1 h
  | refused r => exact run_succ_refused 1 h

/-- Settles O55: either order is RECON's move, whatever its outcome, with CRCV's side replaced by what CRCV's move leaves. -/
theorem unitStepsCommute : Obligations.UnitStepsCommute := by
  intro s moves
  exact (run_crcv_recon (s := { s with agenda := .recon :: .crcv :: moves }) moves rfl).trans (run_recon_crcv rfl).symm

end Sys2Proof.Machine
end

section
/-! SUPPORT. The encodings (30_encoding.md): framing takes off what was encoded, decoding and encoding agree, and a step
performs the operation that its move decodes. -/

namespace Sys2Proof

/-! ### Fields -/

/-- The value of four bytes shifted into a field, in which nothing of the field is left (30_encoding.md R62). -/
theorem shiftIn_four_toNat (field : Word) (b0 b1 b2 b3 : Byte) :
    (shiftIn (shiftIn (shiftIn (shiftIn field b0) b1) b2) b3).toNat =
      b0.toNat * 2 ^ 24 + b1.toNat * 2 ^ 16 + b2.toNat * 2 ^ 8 + b3.toNat := by
  have h0 := b0.isLt
  have h1 := b1.isLt
  have h2 := b2.isLt
  have h3 := b3.isLt
  simp only [shiftIn_toNat]
  omega

/-- Settles O5: the old bits are shifted out, and four bytes are the bytes of one word, which both assemblies read. -/
theorem bigEndianFieldAssembly : Obligations.BigEndianFieldAssembly := by
  intro field b0 b1 b2 b3
  refine ⟨shiftIn_four_toNat field b0 b1 b2 b3, ?_, bytesOfWord_be32 b0 b1 b2 b3⟩
  obtain ⟨w, rfl, rfl, rfl, rfl⟩ := exists_word b0 b1 b2 b3
  rw [be32_bytes, shiftIn_bytes]

/-! ### Whole records and scanlines -/

/-- A length that fits the length field is read back from it (30_encoding.md R63). -/
theorem Record.wf.length_field {r : Record} (h : r.wf = true) :
    (BitVec.ofNat 32 r.payload.length).toNat = r.payload.length :=
  Nat.mod_eq_of_lt (of_decide_eq_true h)

/-- Framing reads the fields of a record from their bytes, the payload as long as the length field says
(30_encoding.md R61). -/
theorem parseRecord_fields {length : Word} (tag checksum : Word) {payload : List Byte} (rest : List Byte)
    (h : length.toNat = payload.length) :
    parseRecord (bytesOfWord length ++ bytesOfWord tag ++ payload ++ bytesOfWord checksum ++ rest) =
      .ok ({ tag := tag, payload := payload, checksum := checksum }, rest) := by
  simp only [bytesOfWord, List.cons_append, List.nil_append, List.append_assoc, parseRecord, be32_bytes, h,
    List.drop_left, List.take_left]

/-- Settles O2: the record's four fields are read back from their bytes. -/
theorem recordWireRoundTrip : Obligations.RecordWireRoundTrip :=
  fun r rest h => ⟨encodeRecord_length r, parseRecord_fields r.tag r.checksum rest (Record.wf.length_field h)⟩

/-- Framing reads a scanline from its filter byte and its samples (30_encoding.md R66). -/
theorem parseRow_encodeRow {width : Word} {r : Row} (rest : List Byte)
    (h : r.samples.length = Config.bpp * width.toNat) : parseRow width (encodeRow r ++ rest) = .ok (r, rest) := by
  have hlen : ¬(r.samples ++ rest).length < r.samples.length := by simp
  simp only [encodeRow, List.cons_append, parseRow, decodeFilter_encodeFilter, ← h, if_neg hlen, List.take_left,
    List.drop_left]

/-- Settles O3: the filter byte decodes to its type, and the samples are as many as the width says. -/
theorem scanlineWireRoundTrip : Obligations.ScanlineWireRoundTrip := by
  intro width r rest h
  have hlen : r.samples.length = Config.bpp * width.toNat := eq_of_beq h
  exact ⟨by rw [encodeRow, List.length_cons, hlen, Nat.add_comm], parseRow_encodeRow rest hlen⟩

/-! ### Decoding an encoded operation -/

/-- A filter operation is decoded from its filter byte (30_encoding.md R67). -/
theorem decode_row_encodeFilter (cfg : Config) (x : Byte) (t : FilterType) :
    decode cfg (.row (encodeFilter t) x) = .ok (filterInstr x t) :=
  decode_row_some cfg x (decodeFilter_encodeFilter t)

/-- Settles O1, operation by operation: the reserved tags by R64's order, the filter bytes by R67, the commands by the
bits that R72 writes. -/
theorem instructionEncodingRoundTrip : Obligations.InstructionEncodingRoundTrip := by
  intro cfg i h
  cases i with
  | recEnd => exact congrArg _ (decodeTag_end rfl)
  | recIdat => exact congrArg _ (decodeTag_idat (bne_iff_ne.mp h) rfl)
  | recOther tag =>
    obtain ⟨hend, hidat⟩ := Bool.and_eq_true_iff.mp h
    exact congrArg _ (decodeTag_other (bne_iff_ne.mp hend) (bne_iff_ne.mp hidat))
  | fltNone x => exact decode_row_encodeFilter cfg x .none
  | fltSub x => exact decode_row_encodeFilter cfg x .sub
  | fltUp x => exact decode_row_encodeFilter cfg x .up
  | fltAvg x => exact decode_row_encodeFilter cfg x .avg
  | fltPaeth x => exact decode_row_encodeFilter cfg x .paeth
  | crcvClear => exact decodeCtrl_clear (v := 0x2#32) .crcvClear .crcvStart 0x00 rfl
  | crcvStart => exact decodeCtrl_start (v := 0x1#32) .crcvClear .crcvStart 0x00 rfl rfl
  | reconClear => exact decodeCtrl_clear (v := 0x2#32) .reconClear .reconStart 0x10 rfl
  | reconStart => exact decodeCtrl_start (v := 0x1#32) .reconClear .reconStart 0x10 rfl rfl
  | cfgWidth v => rfl
  | cfgHeight v => rfl

/-- Settles O6: each form is a closed term, which the decoder computes. -/
theorem writtenOutEncodingsDecode : Obligations.WrittenOutEncodingsDecode :=
  ⟨-- record tags (R64)
    rfl, rfl, rfl,
    -- filter bytes (R67, R68)
    rfl, rfl, rfl, rfl,
    -- register writes (R71)
    rfl, rfl, rfl, rfl⟩

/-! ### Encoding a decoded operation -/

/-- A tag is the encoding of the operation it decodes to (30_encoding.md R64). -/
theorem encode_decodeTag (cfg : Config) (tag : Word) : encode cfg (decodeTag cfg tag) = .record tag := by
  by_cases hend : tag = cfg.tagEnd
  · rw [decodeTag_end hend, hend]; rfl
  · by_cases hidat : tag = cfg.tagIdat
    · rw [decodeTag_idat hend hidat, hidat]; rfl
    · rw [decodeTag_other hend hidat]; rfl

/-- A tag decodes to an operation that has an encoding of its own, since R64 tries the end-marker first. -/
theorem wf_decodeTag (cfg : Config) (tag : Word) : (decodeTag cfg tag).wf cfg = true := by
  by_cases hend : tag = cfg.tagEnd
  · rw [decodeTag_end hend]; rfl
  · by_cases hidat : tag = cfg.tagIdat
    · rw [decodeTag_idat hend hidat]
      exact bne_iff_ne.mpr (hidat ▸ hend)
    · rw [decodeTag_other hend hidat]
      exact Bool.and_eq_true_iff.mpr ⟨bne_iff_ne.mpr hend, bne_iff_ne.mpr hidat⟩

theorem encode_filterInstr (cfg : Config) (x : Byte) (t : FilterType) :
    encode cfg (filterInstr x t) = .row (encodeFilter t) x := by
  cases t <;> rfl

theorem wf_filterInstr (cfg : Config) (x : Byte) (t : FilterType) : (filterInstr x t).wf cfg = true := by
  cases t <;> rfl

/-- The encoding of any operation fits its row of opcode_table.json. -/
theorem opcodeRow_fits_encode (cfg : Config) (i : Instr) : (opcodeRow cfg i).fits (encode cfg i) = true := by
  cases i with
  | recEnd => exact Laws.TableRow.recEnd cfg
  | recIdat => exact Laws.TableRow.recIdat cfg
  | recOther tag => exact Laws.TableRow.recOther tag cfg
  | fltNone x => exact Laws.TableRow.fltNone x cfg
  | fltSub x => exact Laws.TableRow.fltSub x cfg
  | fltUp x => exact Laws.TableRow.fltUp x cfg
  | fltAvg x => exact Laws.TableRow.fltAvg x cfg
  | fltPaeth x => exact Laws.TableRow.fltPaeth x cfg
  | crcvClear => exact Laws.TableRow.crcvClear cfg
  | crcvStart => exact Laws.TableRow.crcvStart cfg
  | reconClear => exact Laws.TableRow.reconClear cfg
  | reconStart => exact Laws.TableRow.reconStart cfg
  | cfgWidth v => exact Laws.TableRow.cfgWidth v cfg
  | cfgHeight v => exact Laws.TableRow.cfgHeight v cfg

/-! ### The register writes that are commands -/

/-- The opcode bits of `CLEAR` (30_encoding.md R71). -/
theorem and_two_of_clear {v : Word} (h : v.getLsbD 1 = true) : v &&& 0x2#32 = 0x2#32 := by
  have hmask : 0x2#32 = BitVec.twoPow 32 1 := rfl
  rw [hmask, BitVec.and_twoPow, if_pos h]

/-- The opcode bits of `START` (30_encoding.md R71). -/
theorem and_three_of_start {v : Word} (h : v.getLsbD 1 = false) (h' : v.getLsbD 0 = true) :
    v &&& 0x3#32 = 0x1#32 := by
  have hmask : 0x3#32 = BitVec.twoPow 32 1 ||| BitVec.twoPow 32 0 := rfl
  rw [hmask, BitVec.and_or_distrib_left, BitVec.and_twoPow, BitVec.and_twoPow, h, h']
  rfl

/-- What a `CTRL` write decodes to, by its two command bits (30_encoding.md R71). -/
theorem decodeCtrl_ok {clear start i : Instr} {index : Nat} {v : Word} (h : decodeCtrl clear start index v = .ok i) :
    (v.getLsbD 1 = true ∧ i = clear) ∨ (v.getLsbD 1 = false ∧ v.getLsbD 0 = true ∧ i = start) := by
  cases h1 : v.getLsbD 1 with
  | true =>
    rw [decodeCtrl_clear _ _ _ h1] at h
    cases h
    exact .inl ⟨rfl, rfl⟩
  | false =>
    cases h0 : v.getLsbD 0 with
    | true =>
      rw [decodeCtrl_start _ _ _ h1 h0] at h
      cases h
      exact .inr ⟨rfl, rfl, rfl⟩
    | false =>
      rw [decodeCtrl_neither _ _ _ h1 h0] at h
      cases h

/-- The four writable registers are the only ones whose writes decode to an operation (30_encoding.md R71). -/
theorem decodeCmd_ok {index : Nat} {v : Word} {i : Instr} (h : decodeCmd index v = .ok i) :
    (index = 0x00 ∧ decodeCtrl .crcvClear .crcvStart index v = .ok i) ∨
    (index = 0x10 ∧ decodeCtrl .reconClear .reconStart index v = .ok i) ∨
    (index = 0x14 ∧ i = .cfgWidth v) ∨ (index = 0x15 ∧ i = .cfgHeight v) := by
  unfold decodeCmd at h
  split at h
  · exact .inl ⟨‹_›, h⟩
  split at h
  · exact .inr (.inl ⟨‹_›, h⟩)
  split at h
  · cases h
    exact .inr (.inr (.inl ⟨‹_›, rfl⟩))
  split at h
  · cases h
    exact .inr (.inr (.inr ⟨‹_›, rfl⟩))
  split at h <;> cases h

/-- A register write that decodes carries the register index and the command bits of its operation's row. -/
theorem opcodeRow_fits_of_decodeCmd (cfg : Config) {index : Nat} {v : Word} {i : Instr} (h : decodeCmd index v = .ok i) :
    (opcodeRow cfg i).fits (.command index v) = true ∧ i.wf cfg = true := by
  obtain ⟨rfl, hc⟩ | ⟨rfl, hc⟩ | ⟨rfl, rfl⟩ | ⟨rfl, rfl⟩ := decodeCmd_ok h
  · obtain ⟨h1, rfl⟩ | ⟨h1, h0, rfl⟩ := decodeCtrl_ok hc
    · simp [opcodeRow, OpcodeRow.fits, Instr.wf, and_two_of_clear h1]
    · simp [opcodeRow, OpcodeRow.fits, Instr.wf, and_three_of_start h1 h0]
  · obtain ⟨h1, rfl⟩ | ⟨h1, h0, rfl⟩ := decodeCtrl_ok hc
    · simp [opcodeRow, OpcodeRow.fits, Instr.wf, and_two_of_clear h1]
    · simp [opcodeRow, OpcodeRow.fits, Instr.wf, and_three_of_start h1 h0]
  · exact ⟨opcodeRow_fits_encode cfg (.cfgWidth v), rfl⟩
  · exact ⟨opcodeRow_fits_encode cfg (.cfgHeight v), rfl⟩

/-- Settles O4: a tag and a filter byte are the encoding of what they decode to, which fits its row; a register write
carries bits beside the command bits, and is read by its index and those. -/
theorem decodedOperationFitsItsTableRow : Obligations.DecodedOperationFitsItsTableRow := by
  intro cfg e i h
  cases e with
  | record tag =>
    cases h
    have hfits := opcodeRow_fits_encode cfg (decodeTag cfg tag)
    rw [encode_decodeTag] at hfits
    exact ⟨hfits, wf_decodeTag cfg tag⟩
  | row f x =>
    cases hf : decodeFilter f with
    | none =>
      rw [decode_row_none cfg x hf] at h
      cases h
    | some t =>
      rw [decode_row_some cfg x hf] at h
      cases h
      have hfits := opcodeRow_fits_encode cfg (filterInstr x t)
      rw [encode_filterInstr, ← encodeFilter_of_decode hf] at hfits
      exact ⟨hfits, wf_filterInstr cfg x t⟩
  | command index v => exact opcodeRow_fits_of_decodeCmd cfg h

end Sys2Proof

namespace Sys2Proof.Machine

open Sys2Proof.Statements

/-! ### The operation a step performs -/

theorem runEncoded_ok {w : Encoded} {s : State} {i : Instr} (h : decode s.cfg w = .ok i) : runEncoded w s = exec i s := by
  rw [runEncoded, h]

/-- A register write with neither command bit, or to no writable register, has no effect (10_state.md R23, R24). -/
theorem runEncoded_command_ignored {index : Nat} {v : Word} (s : State)
    (hctrl : index = 0x00 ∨ index = 0x10 → v.getLsbD 1 = false ∧ v.getLsbD 0 = false) (h14 : index ≠ 0x14)
    (h15 : index ≠ 0x15) : runEncoded (.command index v) s = .next s := by
  obtain ⟨h, h1, -⟩ | ⟨h, -, h0, -⟩ | ⟨h, h1, -⟩ | ⟨h, -, h0, -⟩ | ⟨h, -⟩ | ⟨h, -⟩ | ⟨-, e⟩ :=
    runEncoded_command_cases index v s
  · exact absurd ((hctrl (.inl h)).1.symm.trans h1) (by decide)
  · exact absurd ((hctrl (.inl h)).2.symm.trans h0) (by decide)
  · exact absurd ((hctrl (.inr h)).1.symm.trans h1) (by decide)
  · exact absurd ((hctrl (.inr h)).2.symm.trans h0) (by decide)
  · exact absurd h h14
  · exact absurd h h15
  · exact e

/-- Settles O41: a write is decoded by its index and command bits, and any other has no effect. -/
theorem hostWriteSelectsCommand : Obligations.HostWriteSelectsCommand := by
  intro s index v hm t
  have hstep : step s = runEncoded (.command index v) t := step_write hm
  have hexec {i : Instr} (h : decodeCmd index v = .ok i) : step s = exec i t := hstep.trans (runEncoded_ok h)
  refine ⟨?_, ?_, ?_, ?_, ?_, ?_, ?_, ?_⟩
  · rintro rfl h1
    exact hexec (decodeCtrl_clear _ _ _ h1)
  · rintro rfl h1 h0
    exact hexec (decodeCtrl_start _ _ _ h1 h0)
  · rintro rfl h1
    exact hexec (decodeCtrl_clear _ _ _ h1)
  · rintro rfl h1 h0
    exact hexec (decodeCtrl_start _ _ _ h1 h0)
  · rintro rfl
    exact hexec rfl
  · rintro rfl
    exact hexec rfl
  · intro hctrl h1 h0
    exact hstep.trans (runEncoded_command_ignored t (fun _ => ⟨h1, h0⟩) (by omega) (by omega))
  · intro h00 h10 h14 h15
    exact hstep.trans (runEncoded_command_ignored t (fun h => absurd h (by omega)) h14 h15)

/-- The fourth checksum byte of a record that verifies completes the record's operation (40_crc32_verifier.md R97, R98). -/
theorem crcByte_verified {s : State} {b : Byte} (hk : s.crcv.k = 3#2)
    (hv : s.crcv.crc ^^^ s.cfg.crcXorout = shiftIn s.crcv.stored b) :
    crcByte b s =
      (s.setCrcv { s.crcv with stored := shiftIn s.crcv.stored b, k := 0#2, computed := s.crcv.crc ^^^ s.cfg.crcXorout },
        some (.record s.crcv.type)) := by
  have hlast : ¬s.crcv.k.toNat < 3 := by rw [hk]; decide
  exact (if_neg hlast).trans (verify_pass hv)

/-- The move that consumes that byte leaves the prepared state of the record's operation (R93, R104). -/
theorem crcvFetch_verified {s : State} {b : Byte} {items : List Item} (hi : s.crcvIn.items = .byte b :: items)
    (hp : s.crcv.phase = .crc) (hk : s.crcv.k = 3#2)
    (hv : s.crcv.crc ^^^ s.cfg.crcXorout = shiftIn s.crcv.stored b) :
    crcvFetch s.popMove =
      (afterCrcv s items
        { s.crcv with stored := shiftIn s.crcv.stored b, k := 0#2, computed := s.crcv.crc ^^^ s.cfg.crcXorout,
                      pos := s.crcv.pos + 1#64 }, some (.record s.crcv.type)) := by
  have hfetch : crcvFetch s.popMove = crcvByte b (s.popMove.popItem .crcv) := by
    simp [crcvFetch, CrcvPhase.consuming, hp, hi]
  have hbyte := crcByte_verified (s := s.popMove.popItem .crcv) hk hv
  rw [hfetch]
  simp only [crcvByte, State.popItem_crcv_crcv, State.popMove_crcv, hp, hbyte]
  simp [advancePos, afterCrcv, State.setCrcv, State.popItem, State.setPort, State.port, State.popMove, hi]

/-- Settles O42: each move leaves its prepared state and its encoded operation, which is decoded and performed in it. -/
theorem stepRunsTheDecodedOperation : Obligations.StepRunsTheDecodedOperation := by
  intro s i
  refine ⟨?_, ?_, ?_⟩
  · intro b items hm hi hp hk hv hd
    rw [step_crcv hm, crcvFetch_verified hi hp hk hv]
    exact runEncoded_ok (s := afterCrcv s items _) hd
  · intro x items hm hi hp hd
    rw [step_recon_sample hm hp hi]
    exact runEncoded_ok hd
  · intro index v hm hd
    rw [step_write hm]
    exact runEncoded_ok hd

end Sys2Proof.Machine
end

section
/-! SUPPORT. Unit CRCV (40_crc32_verifier.md): the checksum's table form and what it detects, what a byte does in each
phase, the three record operations, and whole records and streams. -/

namespace Sys2Proof.Machine

open Sys2Proof.Statements

/-! ### The checksum -/

/-- A word is its low byte and the bits above it. -/
theorem word_eq_low_xor_high (x : Word) : x = (x.setWidth 8).setWidth 32 ^^^ ((x >>> 8) <<< 8) := by
  ext i hi
  by_cases h : i < 8
  · simp [h, hi]
  · simp [h, hi, show 8 + (i - 8) = i by omega]

/-- Eight turns shift the bits above the low byte down as they are. -/
theorem crcShifts_eight_high (p x : Word) : crcShifts p 8 ((x >>> 8) <<< 8) = x >>> 8 := by
  rw [crcShifts_low_zero p 8 _ fun i hi => by simp [hi]]
  ext i hi
  by_cases h : i + 8 < 32
  · simp [h, Nat.add_comm 8 i]
  · simp [h, Nat.add_comm 8 i, BitVec.getLsbD_of_ge x (i + 8) (by omega)]

/-- A byte has no bits above the low eight. -/
theorem xor_byte_shiftRight (c : Word) (b : Byte) : (c ^^^ b.setWidth 32) >>> 8 = c >>> 8 := by
  have hb : b.setWidth 32 >>> 8 = 0#32 := by
    ext i hi
    simp
  rw [BitVec.ushiftRight_xor_distrib, hb, BitVec.xor_zero]

/-- Settles O7, by linearity over the low byte and the bits above it: the table entry is what the low byte comes to, and
the higher bits are only shifted. -/
theorem crcTableFormIsBitSerialForm : Obligations.CrcTableFormIsBitSerialForm := by
  intro cfg c b
  calc crcUpdate cfg c b
      = crcShifts cfg.crcPoly 8 (((c ^^^ b.setWidth 32).setWidth 8).setWidth 32) ^^^
          crcShifts cfg.crcPoly 8 (((c ^^^ b.setWidth 32) >>> 8) <<< 8) := by
        rw [crcShifts_eight_high, xor_byte_shiftRight]
        rfl
    _ = crcShifts cfg.crcPoly 8 (c ^^^ b.setWidth 32) := by
        rw [← crcShifts_xor, ← word_eq_low_xor_high]

/-- Settles O8: each value is a closed term, which the model computes. -/
theorem crcCheckValues : Obligations.CrcCheckValues := by
  unfold Obligations.CrcCheckValues
  decide +kernel

/-- With a top bit of 1 in the polynomial, a byte taken in loses neither the register nor the byte. -/
theorem xor_byte_eq_of_crcUpdate_eq {cfg : Config} (hp : cfg.crcPoly.getLsbD 31 = true) {c c' : Word} {b b' : Byte}
    (h : crcUpdate cfg c b = crcUpdate cfg c' b') : c ^^^ b.setWidth 32 = c' ^^^ b'.setWidth 32 := by
  rw [crcTableFormIsBitSerialForm, crcTableFormIsBitSerialForm] at h
  exact crcShifts_injective hp h

/-- The same bytes taken in keep two registers apart. -/
theorem crcRun_injective {cfg : Config} (hp : cfg.crcPoly.getLsbD 31 = true) (m : List Byte) {c c' : Word}
    (h : crcRun cfg c m = crcRun cfg c' m) : c = c' := by
  induction m generalizing c c' with
  | nil => exact h
  | cons b m ih => exact (BitVec.xor_left_inj _).mp (xor_byte_eq_of_crcUpdate_eq hp (ih h))

theorem setWidth_byte_injective {b b' : Byte} (h : b.setWidth 32 = b'.setWidth 32) : b = b' := by
  simpa using congrArg (BitVec.setWidth 8) h

/-- Settles O9: up to the changed byte the registers agree, the byte parts them, and what follows keeps them apart. -/
theorem checksumDetectsOneChangedByte : Obligations.ChecksumDetectsOneChangedByte := by
  intro cfg before after b b' hp hb h
  have hrun := (BitVec.xor_left_inj _).mp h
  rw [crcRun_append, crcRun_append] at hrun
  have hbyte := xor_byte_eq_of_crcUpdate_eq hp (crcRun_injective hp after hrun)
  exact hb (setWidth_byte_injective ((BitVec.xor_right_inj _).mp hbyte))

/-! ### One move -/

/-- A move of a consuming CRCV takes the head item, and leaves the registers that `Crcv.afterItem` says (R93). -/
theorem step_crcv_item {s : State} {item : Item} {items : List Item} (hm : s.nextMove = some .crcv)
    (hi : s.crcvIn.items = item :: items) (hc : s.crcv.phase.consuming = true) :
    step s = .next (afterCrcv s items (s.crcv.afterItem s.cfg item)) := by
  rw [step_crcv_eq hm, hi, Crcv.move, if_pos hc]
  rfl

/-- The same of a byte, for registers known to be those that it leaves. -/
theorem step_crcv_byte {s : State} {b : Byte} {items : List Item} (hm : s.nextMove = some .crcv)
    (hi : s.crcvIn.items = .byte b :: items) (hc : s.crcv.phase.consuming = true) {u : Crcv}
    (hu : s.crcv.afterByte s.cfg b = u) : step s = .next (afterCrcv s items u) := by
  rw [step_crcv_item hm hi hc, ← hu]
  rfl

/-- The count of the fourth byte of a field. -/
theorem not_toNat_lt_three {k : BitVec 2} (h : k = 3#2) : ¬k.toNat < 3 := by
  rw [h]; decide

/-- Settles O17: a consumed byte advances `POS` in each phase, and `EOS` leaves it. -/
theorem positionCountsConsumedBytes : Obligations.PositionCountsConsumedBytes := by
  intro s t item items hm hi hp h
  have hc := s.crcv.busy_iff.mpr hp
  rw [step_crcv_item hm hi hc] at h
  cases h
  refine ⟨rfl, ?_, ?_⟩
  · rintro ⟨b, rfl⟩
    rw [BitVec.ofNat_add, BitVec.ofNat_toNat, BitVec.setWidth_eq]
    exact Crcv.afterByte_pos b hc
  · rintro rfl
    rfl

/-- Settles O15: `EOS` is taken to FAULT alike in all four phases. -/
theorem crcvEndOfStreamFaults : Obligations.CrcvEndOfStreamFaults := by
  intro s items hm hi hp
  exact step_crcv_item hm hi (s.crcv.busy_iff.mpr hp)

/-- Settles O10: below the fourth byte the field goes on, at the fourth it is complete. -/
theorem lengthFieldByte : Obligations.LengthFieldByte := by
  intro s b items hm hi hp l
  have hstep {u : Crcv} := step_crcv_byte (u := u) hm hi (s.crcv.busy_iff.mpr (.inl hp))
  constructor
  · intro hk
    apply hstep
    simp only [Crcv.afterByte, hp, if_pos hk]
    rfl
  · intro hk
    apply hstep
    simp only [Crcv.afterByte, hp, if_neg (not_toNat_lt_three hk)]
    rfl

/-- Settles O11: below the fourth byte the field goes on; at the fourth the length decides whether payload follows. -/
theorem typeFieldByte : Obligations.TypeFieldByte := by
  intro s b items hm hi hp t c
  have hstep {u : Crcv} := step_crcv_byte (u := u) hm hi (s.crcv.busy_iff.mpr (.inr (.inl hp)))
  refine ⟨?_, ?_, ?_⟩
  · intro hk
    apply hstep
    simp only [Crcv.afterByte, hp, if_pos hk]
    rfl
  · intro hk hl
    apply hstep
    simp only [Crcv.afterByte, hp, if_neg (not_toNat_lt_three hk), if_pos hl]
    rfl
  · intro hk hl
    apply hstep
    simp only [Crcv.afterByte, hp, if_neg (not_toNat_lt_three hk), if_neg hl]
    rfl

/-- Settles O12: `REM` runs out exactly at 1. -/
theorem payloadByte : Obligations.PayloadByte := by
  intro s b items hm hi hp c
  have hstep {u : Crcv} := step_crcv_byte (u := u) hm hi (s.crcv.busy_iff.mpr (.inr (.inr (.inl hp))))
  constructor
  · intro hr
    apply hstep
    simp only [Crcv.afterByte, hp, hr]
    rfl
  · intro hr
    apply hstep
    have hne : s.crcv.rem - 1#32 ≠ 0#32 := sub_ne_zero.mpr hr
    simp only [Crcv.afterByte, hp, if_neg hne]
    rfl

/-- Settles O13: below the fourth byte the field goes on; the fourth byte of a record that verifies runs the operation its
tag decodes to, and that of one that does not faults. -/
theorem checksumFieldByte : Obligations.ChecksumFieldByte := by
  intro s b items hm hi hp w computed verified
  have hstep {u : Crcv} := step_crcv_byte (u := u) hm hi (s.crcv.busy_iff.mpr (.inr (.inr (.inr hp))))
  have hexec {i : Instr} (hk : s.crcv.k = 3#2) (hv : computed = w) (hd : decodeTag s.cfg s.crcv.type = i) :
      step s = exec i verified :=
    (stepRunsTheDecodedOperation s i).1 b items hm hi hp hk hv (congrArg Except.ok hd)
  refine ⟨?_, ?_, ?_, ?_, ?_⟩
  · intro hk
    apply hstep
    simp only [Crcv.afterByte, hp, if_pos hk]
    rfl
  · intro hk hv ht
    exact hexec hk hv (decodeTag_end ht)
  · intro hk hv he ht
    exact hexec hk hv (decodeTag_idat he ht)
  · intro hk hv he ht
    exact hexec hk hv (decodeTag_other he ht)
  · intro hk hv
    apply hstep
    simp only [Crcv.afterByte, hp, if_neg (not_toNat_lt_three hk)]
    exact Crcv.verified_fail hv

/-! ### The record operations -/

/-- Settles O14: each operation replaces CRCV's registers by what it completes them to. -/
theorem recordOperationResults : Obligations.RecordOperationResults :=
  fun _ _ => ⟨rfl, rfl, rfl⟩

/-- Settles O57, from what each operation answers. -/
theorem recordOperationsFrame : Obligations.RecordOperationsFrame := by
  intro i s t hop h
  obtain rfl | rfl | ⟨tag, rfl⟩ := hop
  · rw [(recordOperationResults s 0#32).2.2] at h
    cases h
    exact ⟨rfl, rfl, rfl, rfl, rfl, rfl, fun _ => rfl, rfl, fun _ => rfl⟩
  · rw [(recordOperationResults s 0#32).2.1] at h
    cases h
    exact ⟨rfl, rfl, rfl, rfl, rfl, rfl, fun _ => rfl, rfl, fun hne => absurd rfl hne⟩
  · rw [(recordOperationResults s tag).1] at h
    cases h
    exact ⟨rfl, rfl, rfl, rfl, rfl, rfl, fun _ => rfl, rfl, fun _ => rfl⟩

/-! ### Whole records -/

/-- A run of as many moves as a record has bytes reads it whole and verifies it (R94 to R101). -/
theorem run_record {s : State} {r : Record} {items : List Item} {moves : List Move} (hr : r.wf = true)
    (hp : s.crcv.phase = .len) (hk : s.crcv.k = 0#2) (hi : s.crcvIn.items = byteItems (encodeRecord r) ++ items)
    (ha : s.agenda = List.replicate (12 + r.payload.length) .crcv ++ moves) :
    Sys2Proof.core.run (12 + r.payload.length) s = .next { s with
      agenda := moves, crcvIn := { s.crcvIn with items := items },
      crcv := Crcv.verified s.cfg (s.crcv.framed s.cfg r) } := by
  rw [run_crcv _ ha, hi, Crcv.moves_record s.cfg items hr hp hk]

/-- A whole record whose checksum is right is verified and performed (R98 to R101). -/
theorem Crcv.verified_framed_pass {cfg : Config} {u : Crcv} {r : Record} (hk : u.k = 0#2)
    (h : recordChecksum cfg r.tag r.payload = r.checksum) :
    Crcv.verified cfg (u.framed cfg r) = afterRecord cfg u r := by
  have hv : (u.framed cfg r).crc ^^^ cfg.crcXorout = (u.framed cfg r).stored := h
  rw [Crcv.verified_pass hv, hv]
  by_cases hend : r.tag = cfg.tagEnd
  · simp [Crcv.completed, afterRecord, Crcv.framed, Crcv.complete, Crcv.descriptor, hend, hk]
  · by_cases hidat : r.tag = cfg.tagIdat
    · have hne : cfg.tagIdat ≠ cfg.tagEnd := hidat ▸ hend
      simp [Crcv.completed, afterRecord, Crcv.framed, Crcv.complete, Crcv.descriptor, hidat, hne, hk]
    · simp [Crcv.completed, afterRecord, Crcv.framed, Crcv.complete, Crcv.descriptor, hend, hidat, hk]

/-- A whole record whose checksum is wrong faults, with both checksums (R102). -/
theorem Crcv.verified_framed_fail {cfg : Config} {u : Crcv} {r : Record}
    (h : recordChecksum cfg r.tag r.payload ≠ r.checksum) :
    Crcv.verified cfg (u.framed cfg r) =
      { u.framed cfg r with computed := recordChecksum cfg r.tag r.payload, phase := .fault, err := 3#4 } :=
  Crcv.verified_fail h

/-- Settles O18: the record is read whole, and passes. -/
theorem verifiedRecordRun : Obligations.VerifiedRecordRun := by
  intro s r items moves hr hsum hp hk hi ha
  rw [run_record hr hp hk hi ha, Crcv.verified_framed_pass hk hsum.symm]

/-- Settles O19: the record is read whole, and the checksum of the changed bytes is not the stored one. -/
theorem changedPayloadByteFaults : Obligations.ChangedPayloadByteFaults := by
  intro s tag before after b b' items moves good bad htop hb hgood hp hk hi ha
  have hlen : bad.payload.length = good.payload.length := by simp [bad, good, checkedRecord]
  have hbad : bad.wf = true := by rw [Record.wf, hlen]; exact hgood
  have hsum : recordChecksum s.cfg bad.tag bad.payload ≠ bad.checksum := by
    have := checksumDetectsOneChangedByte s.cfg (bytesOfWord tag ++ before) after b b' htop hb
    rw [List.append_assoc, List.append_assoc] at this
    exact this.symm
  refine ⟨_, run_record hbad hp hk hi ha, ?_⟩
  rw [Crcv.verified_framed_fail hsum]
  exact ⟨rfl, rfl, rfl, rfl, hsum.symm, rfl, rfl, rfl, rfl⟩

/-! ### Whole streams -/

/-- CRCV at a record boundary of a run, with so many bytes, records and descriptors behind it (R93). -/
structure Crcv.AtBoundary (u : Crcv) (pos nrec nidat : Nat) (out : List Descriptor) : Prop where
  phase : u.phase = .len
  k : u.k = 0#2
  pos : u.pos = BitVec.ofNat 64 pos
  nrec : u.nrec = BitVec.ofNat 32 nrec
  nidat : u.nidat = BitVec.ofNat 32 nidat
  recOut : u.recOut = out

/-- Where a run on a stream with this outcome leaves CRCV's registers and its port (R101 to R103, R111). -/
def Crcv.LeftBy (stream : List Byte) (left : Crcv × List Item) : ChunkOutcome → Prop
  | .ok out nrec nidat pos =>
    left.1.phase = .done ∧ left.1.recOut = out ∧ left.1.nrec = BitVec.ofNat 32 nrec ∧
    left.1.nidat = BitVec.ofNat 32 nidat ∧ left.1.pos = BitVec.ofNat 64 pos ∧
    left.2 = byteItems (stream.drop pos) ++ [.eos]
  | .truncated =>
    left.1.phase = .fault ∧ left.1.err = 2#4 ∧ left.1.pos = BitVec.ofNat 64 stream.length ∧ left.2 = []
  | .mismatch stored computed =>
    left.1.phase = .fault ∧ left.1.err = 3#4 ∧ left.1.stored = stored ∧ left.1.computed = computed

/-- The descriptor that CRCV emits is the one of R111. -/
theorem recordDescriptor_of_pos {p : DWord} {pos : Nat} (r : Record) (h : p = BitVec.ofNat 64 pos) :
    recordDescriptor pos r =
      { type := r.tag, length := BitVec.ofNat 32 r.payload.length, paypos := p + 8#64, checksum := r.checksum } := by
  rw [h, recordDescriptor, BitVec.ofNat_add]

/-- The counts and the position after a verified record, whichever phase comes next. -/
theorem Crcv.AtBoundary.afterRecord_counts {cfg : Config} {u : Crcv} {pos nrec nidat : Nat} {out : List Descriptor}
    (hu : u.AtBoundary pos nrec nidat out) (htags : cfg.tagIdat ≠ cfg.tagEnd) (r : Record) :
    (afterRecord cfg u r).pos = BitVec.ofNat 64 (pos + 12 + r.payload.length) ∧
    (afterRecord cfg u r).nrec = BitVec.ofNat 32 (nrec + 1) ∧
    (afterRecord cfg u r).nidat = BitVec.ofNat 32 (if r.tag = cfg.tagIdat then nidat + 1 else nidat) ∧
    (afterRecord cfg u r).recOut = out ++ [recordDescriptor pos r] := by
  refine ⟨?_, ?_, ?_, ?_⟩
  · rw [Nat.add_assoc, BitVec.ofNat_add, ← hu.pos]
    rfl
  · rw [BitVec.ofNat_add, ← hu.nrec]
    rfl
  · by_cases h : r.tag = cfg.tagIdat
    · simp [afterRecord, h, htags, hu.nidat, BitVec.ofNat_add]
    · simp [afterRecord, h, hu.nidat]
  · rw [recordDescriptor_of_pos r hu.pos, ← hu.recOut]
    rfl

/-- A record other than the end-marker leads to the next boundary. -/
theorem Crcv.AtBoundary.next {cfg : Config} {u : Crcv} {pos nrec nidat : Nat} {out : List Descriptor}
    (hu : u.AtBoundary pos nrec nidat out) (htags : cfg.tagIdat ≠ cfg.tagEnd) {r : Record} (h : r.tag ≠ cfg.tagEnd) :
    (afterRecord cfg u r).AtBoundary (pos + 12 + r.payload.length) (nrec + 1)
      (if r.tag = cfg.tagIdat then nidat + 1 else nidat) (out ++ [recordDescriptor pos r]) := by
  obtain ⟨hpos, hnrec, hnidat, hout⟩ := hu.afterRecord_counts htags r
  exact ⟨if_neg h, rfl, hpos, hnrec, hnidat, hout⟩

/-- Bytes that hold no whole record are all consumed, and CRCV consumes on after them (R103). -/
theorem Crcv.moves_partial_record (cfg : Config) {u : Crcv} {bytes : List Byte} {e : FramingError} (items : List Item)
    (h : parseRecord bytes = .error e) (hp : u.phase = .len) (hk : u.k = 0#2) :
    (u.moves cfg bytes.length (byteItems bytes ++ items)).2 = items ∧
    (u.moves cfg bytes.length (byteItems bytes ++ items)).1.phase.consuming = true ∧
    (u.moves cfg bytes.length (byteItems bytes ++ items)).1.pos = u.pos + BitVec.ofNat 64 bytes.length := by
  obtain ⟨r, missing, hr, hne, he⟩ := parseRecord_error h
  have hlen : bytes.length + 1 + (missing.length - 1) = 12 + r.payload.length := by
    have := List.length_pos_iff.mpr hne
    rw [← encodeRecord_length, ← he, List.length_append]
    omega
  apply Crcv.moves_stretch cfg bytes u (byteItems missing) items (missing.length - 1)
  have hwhole := Crcv.moves_record cfg [] hr hp hk
  rw [← he, byteItems_append, List.append_nil] at hwhole
  rw [hlen, hwhole, ← byteItems_append, he, byteItems, List.length_map, encodeRecord_length]
  simp

/-- `EOS` inside a record is reached, and faults (R103). -/
theorem Crcv.moves_truncated (cfg : Config) {u : Crcv} {bytes : List Byte} {e : FramingError}
    (h : parseRecord bytes = .error e) (hp : u.phase = .len) (hk : u.k = 0#2) :
    ∃ v : Crcv, v.pos = u.pos + BitVec.ofNat 64 bytes.length ∧
      u.moves cfg (bytes.length + 1) (byteItems bytes ++ [.eos]) = ({ v with phase := .fault, err := 2#4 }, []) := by
  obtain ⟨hitems, hc, hpos⟩ := Crcv.moves_partial_record cfg [.eos] h hp hk
  refine ⟨_, hpos, ?_⟩
  rw [Crcv.moves_add, hitems]
  exact Crcv.moves_eos cfg 0 [] hc

/-- A whole record at the head of the port, and the moves after it. -/
theorem Crcv.moves_record_append (cfg : Config) {u : Crcv} {r : Record} (rest : List Byte) (items : List Item)
    (hr : r.wf = true) (hp : u.phase = .len) (hk : u.k = 0#2) :
    u.moves cfg ((encodeRecord r ++ rest).length + 1) (byteItems (encodeRecord r ++ rest) ++ items) =
      (Crcv.verified cfg (u.framed cfg r)).moves cfg (rest.length + 1) (byteItems rest ++ items) := by
  rw [List.length_append, encodeRecord_length, Nat.add_assoc, Crcv.moves_add, byteItems_append, List.append_assoc,
    Crcv.moves_record cfg _ hr hp hk]

section
variable {cfg : Config} {bytes : List Byte} (fuel pos nrec nidat : Nat) (out : List Descriptor)

/-- The loop of R111 on bytes that hold no whole record. -/
theorem chunkReadFrom_truncated {e : FramingError} (h : parseRecord bytes = .error e) :
    chunkReadFrom cfg (fuel + 1) bytes pos nrec nidat out = .truncated := by
  simp only [chunkReadFrom, h]

variable {r : Record} {rest : List Byte} (h : parseRecord bytes = .ok (r, rest))
include h

/-- The loop of R111 on a record with a wrong checksum. -/
theorem chunkReadFrom_mismatch (hsum : recordChecksum cfg r.tag r.payload ≠ r.checksum) :
    chunkReadFrom cfg (fuel + 1) bytes pos nrec nidat out =
      .mismatch r.checksum (recordChecksum cfg r.tag r.payload) := by
  simp only [chunkReadFrom, h, if_pos hsum]

/-- The loop of R111 on an end-marker. -/
theorem chunkReadFrom_end (hsum : recordChecksum cfg r.tag r.payload = r.checksum) (hend : r.tag = cfg.tagEnd) :
    chunkReadFrom cfg (fuel + 1) bytes pos nrec nidat out =
      .ok (out ++ [recordDescriptor pos r]) (nrec + 1) (if r.tag = cfg.tagIdat then nidat + 1 else nidat)
        (pos + 12 + r.payload.length) := by
  simp only [chunkReadFrom, h, if_neg (not_not.mpr hsum), if_pos hend]

/-- The loop of R111 on any other record goes on after it. -/
theorem chunkReadFrom_next (hsum : recordChecksum cfg r.tag r.payload = r.checksum) (hend : r.tag ≠ cfg.tagEnd) :
    chunkReadFrom cfg (fuel + 1) bytes pos nrec nidat out =
      chunkReadFrom cfg fuel rest (pos + 12 + r.payload.length) (nrec + 1)
        (if r.tag = cfg.tagIdat then nidat + 1 else nidat) (out ++ [recordDescriptor pos r]) := by
  simp only [chunkReadFrom, h, if_neg (not_not.mpr hsum), if_neg hend]

end

/-- The loop of R111 from a record boundary, with enough fuel for the bytes that are left, says where their moves and that
of `EOS` leave CRCV. By induction on the records: the bytes break off, or a record fails, ends the run, or leads to the
next boundary. -/
theorem Crcv.moves_leftBy {cfg : Config} (htags : cfg.tagIdat ≠ cfg.tagEnd) (fuel : Nat) {front rest : List Byte}
    {u : Crcv} {nrec nidat : Nat} {out : List Descriptor} (hu : u.AtBoundary front.length nrec nidat out)
    (hfuel : rest.length < fuel) :
    Crcv.LeftBy (front ++ rest) (u.moves cfg (rest.length + 1) (byteItems rest ++ [.eos]))
      (chunkReadFrom cfg fuel rest front.length nrec nidat out) := by
  induction fuel generalizing front rest u nrec nidat out with
  | zero => omega
  | succ fuel ih =>
    cases hparse : parseRecord rest with
    | error e =>
      obtain ⟨v, hpos, hmoves⟩ := Crcv.moves_truncated cfg hparse hu.phase hu.k
      rw [chunkReadFrom_truncated _ _ _ _ _ hparse, hmoves]
      refine ⟨rfl, rfl, ?_, rfl⟩
      rw [List.length_append, BitVec.ofNat_add, ← hu.pos]
      exact hpos
    | ok framed =>
      obtain ⟨r, rest'⟩ := framed
      obtain ⟨rfl, hr⟩ := parseRecord_ok hparse
      have hfront : (front ++ encodeRecord r).length = front.length + 12 + r.payload.length := by
        rw [List.length_append, encodeRecord_length, Nat.add_assoc]
      rw [Crcv.moves_record_append cfg rest' [.eos] hr hu.phase hu.k]
      by_cases hsum : recordChecksum cfg r.tag r.payload = r.checksum
      · rw [Crcv.verified_framed_pass hu.k hsum]
        by_cases hend : r.tag = cfg.tagEnd
        · obtain ⟨hpos, hnrec, hnidat, hout⟩ := hu.afterRecord_counts htags r
          have hdone : (afterRecord cfg u r).phase = .done := if_pos hend
          rw [chunkReadFrom_end _ _ _ _ _ hparse hsum hend, Crcv.moves_waiting cfg _ _ (by rw [hdone]; rfl)]
          refine ⟨hdone, hout, hnrec, hnidat, hpos, ?_⟩
          rw [← hfront, ← List.append_assoc, List.drop_left]
        · have hnext := hu.next htags hend
          have hfuel' : rest'.length < fuel := by
            rw [List.length_append, encodeRecord_length] at hfuel
            omega
          rw [chunkReadFrom_next _ _ _ _ _ hparse hsum hend]
          rw [← hfront] at hnext ⊢
          rw [← List.append_assoc]
          exact ih hnext hfuel'
      · rw [chunkReadFrom_mismatch _ _ _ _ _ hparse hsum, Crcv.verified_framed_fail hsum,
          Crcv.moves_waiting cfg _ _ rfl]
        exact ⟨rfl, rfl, rfl, rfl⟩

/-- Settles O20: START leaves the first record boundary, at the beginning of the stream. -/
theorem crcvRunIsChunkRead : Obligations.CrcvRunIsChunkRead := by
  intro s stream moves htags hstart hi ha
  refine ⟨_, run_crcv (stream.length + 1) ha, rfl, ?_⟩
  have hu : s.crcv.AtBoundary ([] : List Byte).length 0 0 [] := by
    rw [hstart]
    exact ⟨rfl, rfl, rfl, rfl, rfl, rfl⟩
  have hleft := Crcv.moves_leftBy htags (stream.length + 1) hu (Nat.lt_succ_self stream.length)
  rw [hi]
  exact hleft

end Sys2Proof.Machine
end

section
/-! SUPPORT. Unit RECON (41_filter_reconstructor.md): the predictors, a move of the unit, the five filter operations and what
they leave, the independence of the channels, and whole raw streams. -/

namespace Sys2Proof.Machine

open Sys2Proof.Statements

/-! ### The predictors -/

/-- The result of a sample step as the spec words it (41_filter_reconstructor.md R123). -/
theorem addMod256_eq_ofNat_mod (x p : Byte) : addMod256 x p = BitVec.ofNat 8 ((x.toNat + p.toNat) % 256) := by
  apply BitVec.eq_of_toNat_eq
  simp [addMod256]

/-- The halved sum of two bytes is a byte (R127). -/
theorem avgPredictor_toNat (a b : Byte) : (avgPredictor a b).toNat = (a.toNat + b.toNat) / 2 := by
  have ha := a.isLt
  have hb := b.isLt
  rw [avgPredictor, BitVec.toNat_ofNat, Nat.mod_eq_of_lt (by omega)]

/-- The three-way rule of R129 over the integers names the model's predictor, and no other value. -/
theorem isPaeth_iff (a b c p : Byte) : IsPaeth a b c p ↔ p = paeth a b c := by
  simp only [IsPaeth, paeth, Int.abs_eq_natAbs, Nat.cast_le]
  constructor
  · rintro ⟨ha, hb, hc⟩
    split_ifs with h h'
    · exact ha h
    · exact hb h h'
    · exact hc h h'
  · rintro rfl
    exact ⟨fun h => if_pos h, fun h h' => by rw [if_neg h, if_pos h'], fun h h' => by rw [if_neg h, if_neg h']⟩

theorem isPaeth_paeth (a b c : Byte) : IsPaeth a b c (paeth a b c) :=
  (isPaeth_iff a b c _).mpr rfl

/-- Settles O29, by the three cases of the rule: the distance of the argument chosen is the least in each. -/
theorem paethPredictorIsNearest : Obligations.PaethPredictorIsNearest := by
  intro a b c e p
  obtain ⟨ha, hb, hc⟩ : IsPaeth a b c p := isPaeth_paeth a b c
  by_cases h : |e - a.toNat| ≤ |e - b.toNat| ∧ |e - a.toNat| ≤ |e - c.toNat|
  · rw [ha h]
    exact ⟨.inl rfl, le_rfl, h.1, h.2, fun _ => rfl, fun hlt => absurd hlt (lt_irrefl _)⟩
  · by_cases h' : |e - b.toNat| ≤ |e - c.toNat|
    · have hlt : |e - b.toNat| < |e - a.toNat| := by omega
      rw [hb h h']
      exact ⟨.inr (.inl rfl), hlt.le, le_rfl, h', fun heq => absurd heq hlt.ne, fun _ _ => rfl⟩
    · have hlt : |e - c.toNat| < |e - b.toNat| := by omega
      have hlt' : |e - c.toNat| < |e - a.toNat| := by omega
      rw [hc h h']
      exact ⟨.inr (.inr rfl), hlt'.le, hlt.le, le_rfl, fun heq => absurd heq hlt'.ne, fun _ heq => absurd heq hlt.ne⟩

/-- In row 0 the predictor is the byte to the left (R136). -/
theorem paeth_left_only (a : Byte) : paeth a 0#8 0#8 = a :=
  (isPaeth_paeth a 0#8 0#8).1 (by simp)

/-- In the first pixel of a row the predictor is the byte above (R136). -/
theorem paeth_above_only (b : Byte) : paeth 0#8 b 0#8 = b := by
  obtain ⟨ha, hb, -⟩ := isPaeth_paeth 0#8 b 0#8
  by_cases h : b = 0#8
  · rw [h]
    exact paeth_left_only 0#8
  · have hpos : b.toNat ≠ 0 := fun h0 => h (BitVec.eq_of_toNat_eq h0)
    exact hb (by simpa using hpos) (by simp)

/-- Settles O30: with one neighbour the nearest argument is that one, and the average is of a sum that is exact. -/
theorem cornerPredictors : Obligations.CornerPredictors := by
  intro a b
  refine ⟨paeth_left_only 0#8, paeth_left_only a, paeth_above_only b, rfl, ?_, ?_, avgPredictor_toNat a b⟩
  · simpa using avgPredictor_toNat a 0#8
  · simpa using avgPredictor_toNat 0#8 b

/-! ### One move -/

/-- Settles O23: the legal filter bytes are those that decode. -/
theorem filterTypeByte : Obligations.FilterTypeByte := by
  intro s b items hm hi hp
  have hstep : step s = .next (afterRecon s items (s.recon.afterFilterByte b)) := by
    rw [step_recon_plain hm (by simp [hp]), reconPlain, if_pos (by rw [hp]; rfl), hi]
    rfl
  constructor
  · intro hb
    rw [hstep, Recon.afterFilterByte, if_pos ((decodeFilter_isSome_iff b).mpr hb)]
  · intro hb
    rw [hstep, Recon.afterFilterByte, if_neg (by rw [decodeFilter_isSome_iff]; omega)]

/-- Settles O31: `EOS` is taken to FAULT alike in both phases. -/
theorem reconEndOfStreamFaults : Obligations.ReconEndOfStreamFaults := by
  intro s items hm hi hp
  have hc : s.recon.phase.consuming = true := s.recon.busy_iff.mpr hp
  rw [step_recon_plain hm (by simp [hi]), reconPlain, if_pos hc, hi]
  rfl

/-! ### The five operations -/

/-- The advance changes `PHASE`, `ROW` and `COL` alone (R131, R132). -/
theorem Recon.advance_frame (u : Recon) :
    u.advance = { u with phase := u.advance.phase, row := u.advance.row, col := u.advance.col } := by
  by_cases h : u.col.toNat + 1 < u.stride
  · rw [Recon.advance_within h]
  · rw [Recon.advance_rowEnd h]
    rfl

/-- Settles O58, from what a filter operation that goes on has written. -/
theorem filterOperationsFrame : Obligations.FilterOperationsFrame := by
  intro i s t hi h
  obtain ⟨x, f, rfl⟩ := exists_filterInstr_of_isFilterOp hi
  rw [exec_filterInstr] at h
  obtain ⟨p, -, -, rfl⟩ := reconstruct_next h
  exact ⟨rfl, rfl, rfl, rfl, rfl, rfl, fun a ha => Memory.read_write_other _ _ ha, s.recon.advance_frame⟩

section
variable {s : State} (hin : InsideImage s)
include hin

/-- Inside the image, a byte at or before the position in both directions is loaded where it has been written. -/
theorem pixLoad_of_insideImage {r c : Nat} {v : Byte} (hr : r ≤ s.recon.row.toNat) (hc : c ≤ s.recon.col.toNat)
    (h : Memory.read s.pix (pixAddr s r c) = some v) : s.pixLoad (s.recon.addr r c) = .ok v :=
  State.pixLoad_of_read (Recon.addr_lt_pixBytes (hr.trans_lt hin.1) (hc.trans_lt hin.2)) h

/-- Inside the image, `A` of R122 is what the model loads. -/
theorem neighbourA_of_isNeighbourA {a : Byte} (h : IsNeighbourA s a) : s.neighbourA = .ok a := by
  unfold IsNeighbourA at h
  unfold State.neighbourA
  split at h
  · rw [if_pos ‹_›]
    exact pixLoad_of_insideImage hin le_rfl (Nat.sub_le _ _) h
  · rw [if_neg ‹_›, h]

/-- Inside the image, `B` of R122 is what the model loads. -/
theorem neighbourB_of_isNeighbourB {b : Byte} (h : IsNeighbourB s b) : s.neighbourB = .ok b := by
  unfold IsNeighbourB at h
  unfold State.neighbourB
  split at h
  · rw [if_pos ‹_›]
    exact pixLoad_of_insideImage hin (Nat.sub_le _ _) le_rfl h
  · rw [if_neg ‹_›, h]

/-- Inside the image, `C` of R122 is what the model loads. -/
theorem neighbourC_of_isNeighbourC {c : Byte} (h : IsNeighbourC s c) : s.neighbourC = .ok c := by
  unfold IsNeighbourC at h
  unfold State.neighbourC
  split at h
  · rw [if_pos ‹_›]
    exact pixLoad_of_insideImage hin (Nat.sub_le _ _) (Nat.sub_le _ _) h
  · rw [if_neg ‹_›, h]

/-- Inside the image, a filter operation with its predictor at hand writes its byte and advances (R123, R131). -/
theorem exec_filterInstr_reconstructed {f : FilterType} {p : Byte} (x : Byte) (hp : s.predicted f = .ok p) :
    ∃ t, exec (filterInstr x f) s = .next t ∧
      Reconstructed s (BitVec.ofNat 8 ((x.toNat + p.toNat) % 256)) t := by
  have hlt := Recon.addr_lt_pixBytes hin.1 hin.2
  rw [exec_filterInstr, hp, reconstruct_ok, writeBack_of_lt _ hlt, addMod256_eq_ofNat_mod]
  exact ⟨_, rfl, Memory.read_write_same _ _ _, fun a ha => Memory.read_write_other _ _ ha, rfl, rfl⟩

end

/-- Settles O24: the predictor is 0. -/
theorem filterNoneResult : Obligations.FilterNoneResult := by
  intro s x hin
  have h := exec_filterInstr_reconstructed (f := .none) hin x rfl
  rw [← addMod256_eq_ofNat_mod, addMod256_eq_add, BitVec.add_zero] at h
  exact h

/-- Settles O25: the predictor is `A`. -/
theorem filterSubResult : Obligations.FilterSubResult := by
  intro s x a hin ha
  exact exec_filterInstr_reconstructed (f := .sub) hin x (neighbourA_of_isNeighbourA hin ha)

/-- Settles O26: the predictor is `B`. -/
theorem filterUpResult : Obligations.FilterUpResult := by
  intro s x b hin hb
  exact exec_filterInstr_reconstructed (f := .up) hin x (neighbourB_of_isNeighbourB hin hb)

/-- Settles O27: the predictor, as a number, is half of the exact sum. -/
theorem filterAvgResult : Obligations.FilterAvgResult := by
  intro s x a b hin ha hb
  have hp : s.predicted .avg = .ok (avgPredictor a b) := by
    rw [State.predicted, neighbourA_of_isNeighbourA hin ha, neighbourB_of_isNeighbourB hin hb]
    rfl
  rw [← avgPredictor_toNat]
  exact exec_filterInstr_reconstructed (f := .avg) hin x hp

/-- Settles O28: the rule of R129 names the model's predictor. -/
theorem filterPaethResult : Obligations.FilterPaethResult := by
  intro s x a b c p hin ha hb hc hp
  have hpred := State.predicted_of_neighbours (neighbourA_of_isNeighbourA hin ha) (neighbourB_of_isNeighbourB hin hb)
    (neighbourC_of_isNeighbourC hin hc) .paeth
  rw [(isPaeth_iff a b c p).mp hp]
  exact exec_filterInstr_reconstructed (f := .paeth) hin x hpred

/-! ### The channels -/

/-- A channel is the position's byte in its pixel: every row begins at channel 0 (R139). -/
theorem Recon.addr_mod_four (u : Recon) (r c : Nat) : u.addr r c % 4 = c % 4 := by
  rw [Recon.addr, Recon.stride, Nat.mul_left_comm, Nat.mul_add_mod]

section
variable {s s' : State} (hu : s.recon = s'.recon)
include hu

/-- A load of a byte on which two memories agree. -/
theorem State.pixLoad_congr {a : Nat} (h : Memory.read s.pix a = Memory.read s'.pix a) :
    s.pixLoad a = s'.pixLoad a := by
  rw [State.pixLoad, State.pixLoad, hu, h]

/-- The neighbours are of the position's own channel, so memories that agree there give one predictor (R139). -/
theorem State.predicted_congr_channel (f : FilterType)
    (h : ∀ a, a % 4 = s.recon.col.toNat % 4 → Memory.read s.pix a = Memory.read s'.pix a) :
    s.predicted f = s'.predicted f := by
  have load : ∀ r c, c % 4 = s.recon.col.toNat % 4 → s.pixLoad (s.recon.addr r c) = s'.pixLoad (s.recon.addr r c) :=
    fun r c hc => State.pixLoad_congr hu (h _ (by rw [Recon.addr_mod_four, hc]))
  have hA : s.neighbourA = s'.neighbourA := by
    unfold State.neighbourA
    rw [← hu]
    split
    · exact load _ _ (by simp only [Config.bpp] at *; omega)
    · rfl
  have hB : s.neighbourB = s'.neighbourB := by
    unfold State.neighbourB
    rw [← hu, load _ _ rfl]
  have hC : s.neighbourC = s'.neighbourC := by
    unfold State.neighbourC
    rw [← hu]
    split
    · exact load _ _ (by simp only [Config.bpp] at *; omega)
    · rfl
  cases f <;> simp only [State.predicted, hA, hB, hC]

end

/-- Settles O34: at an address of the channel both operations write one byte, or neither writes. -/
theorem channelsAreIndependent : Obligations.ChannelsAreIndependent := by
  intro s s' t t' x x' f channel hu hpix hx h h'
  rw [exec_filterInstr] at h h'
  obtain ⟨p, hp, -, rfl⟩ := reconstruct_next h
  obtain ⟨p', hp', -, rfl⟩ := reconstruct_next h'
  refine ⟨congrArg Recon.advance hu, fun a ha => ?_⟩
  dsimp only
  rw [Memory.read_write, Memory.read_write, ← hu, hpix a ha]
  split
  · rename_i haddr
    have hc : s.recon.col.toNat % 4 = channel := by rw [← ha, haddr, Recon.addr_mod_four]
    rw [State.predicted_congr_channel hu f (by rwa [hc]), hp'] at hp
    rw [Except.ok.inj hp, hx hc]
  · rfl

/-! ### Whole streams -/

/-- A byte written behind the bytes that a memory holds from address 0. -/
theorem Memory.read_write_snoc {m : Memory} {l : List Byte} (h : ∀ a, a < l.length → Memory.read m a = l[a]?) (v : Byte) :
    ∀ a, a < (l ++ [v]).length → Memory.read (Memory.write m l.length v) a = (l ++ [v])[a]? := by
  intro a ha
  rw [List.length_append, List.length_singleton] at ha
  rw [Memory.read_write]
  split
  · rename_i he
    rw [he, List.getElem?_concat_length]
  · have hlt : a < l.length := by omega
    rw [h a hlt, List.getElem?_append_left hlt]

/-- RECON before the filter byte of a row, with `image` the rows above and `prev` the row above in the line-buffer form
(R138). -/
structure State.AtRow (s : State) (prev image : List Byte) : Prop where
  phase : s.recon.phase = .ftype
  row : s.recon.row.toNat < s.recon.height.toNat
  stride : 0 < s.recon.stride
  above : image.length = s.recon.row.toNat * s.recon.stride
  previous : prev = if s.recon.row.toNat = 0 then [] else image.drop ((s.recon.row.toNat - 1) * s.recon.stride)
  pix : ∀ a, a < image.length → Memory.read s.pix a = image[a]?

/-- What `Reconstruct` returns from inside a row (R137): the samples that the row still lacks after `cur`, then `rows` more
rows. -/
def reconstructFrom (t : FilterType) (stride rows : Nat) (prev image cur z : List Byte) : ReconOutcome :=
  match lineSamples t prev (stride - cur.length) cur z with
  | none => .truncated
  | some (row, z') => reconstructRows stride rows row (image ++ row) z'

section
variable {t : FilterType} {stride : Nat} (rows : Nat) (prev image : List Byte)

/-- A row goes on by its next sample. -/
theorem reconstructFrom_cons {cur : List Byte} (x : Byte) (z : List Byte) (h : cur.length < stride) :
    reconstructFrom t stride rows prev image cur (x :: z) =
      reconstructFrom t stride rows prev image (cur ++ [lineByte t prev cur x]) z := by
  have he : stride - cur.length = stride - (cur ++ [lineByte t prev cur x]).length + 1 := by
    rw [List.length_append, List.length_singleton]
    omega
  rw [reconstructFrom, he, lineSamples]
  rfl

/-- A row breaks off where it lacks a sample. -/
theorem reconstructFrom_nil {cur : List Byte} (h : cur.length < stride) :
    reconstructFrom t stride rows prev image cur [] = .truncated := by
  have he : stride - cur.length = stride - cur.length - 1 + 1 := by omega
  rw [reconstructFrom, he, lineSamples]

/-- A whole row is the previous row of those that follow. -/
theorem reconstructFrom_full {cur : List Byte} (z : List Byte) (h : cur.length = stride) :
    reconstructFrom t stride rows prev image cur z = reconstructRows stride rows cur (image ++ cur) z := by
  rw [reconstructFrom, h, Nat.sub_self, lineSamples]

/-- A row begins with a legal filter byte. -/
theorem reconstructRows_some {f : Byte} (z : List Byte) (h : decodeFilter f = some t) :
    reconstructRows stride (rows + 1) prev image (f :: z) = reconstructFrom t stride rows prev image [] z := by
  simp only [reconstructRows, h]
  rfl

theorem reconstructRows_none {f : Byte} (z : List Byte) (h : decodeFilter f = none) :
    reconstructRows stride (rows + 1) prev image (f :: z) = .unknownFilterType f := by
  simp only [reconstructRows, h]

end

/-- A run of RECON in progress that is to return `o` on the bytes `z`: it is at a row or inside one, and `o` is what R137
returns from there. -/
inductive State.OnCourse (s : State) (z : List Byte) (o : ReconOutcome) : Prop where
  | atRow {prev image : List Byte} (rows : Nat) (h : s.AtRow prev image)
      (left : s.recon.row.toNat + rows + 1 = s.recon.height.toNat)
      (returns : o = reconstructRows s.recon.stride (rows + 1) prev image z)
  | inRow {t : FilterType} {prev image cur : List Byte} (rows : Nat) (h : s.Reconstructing t prev image cur)
      (left : s.recon.row.toNat + rows + 1 = s.recon.height.toNat)
      (returns : o = reconstructFrom t s.recon.stride rows prev image cur z)

/-- The state in which a run with this outcome ends (R132, R133; 60_exceptions.md R173, R174). -/
def State.EndedBy (t : State) : ReconOutcome → Prop
  | .ok image rest =>
    t.recon.phase = .done ∧ t.recon.row = t.recon.height ∧ t.recon.col = 0#34 ∧
    image.length = t.recon.height.toNat * t.recon.stride ∧
    (∀ a, a < image.length → Memory.read t.pix a = image[a]?) ∧
    t.reconIn.items = byteItems rest ++ [.eos]
  | .truncated => t.recon.phase = .fault ∧ t.recon.err = 2#4 ∧ t.recon.errInfo = 0#8 ∧ t.reconIn.items = []
  | .unknownFilterType f => t.recon.phase = .fault ∧ t.recon.err = 9#4 ∧ t.recon.errInfo = f

/-- RECON consumes nothing more after the end of a run. -/
theorem State.EndedBy.not_consuming {t : State} {o : ReconOutcome} (h : t.EndedBy o) :
    t.recon.phase.consuming = false := by
  cases o with
  | ok image rest => rw [h.1]; rfl
  | truncated => rw [h.1]; rfl
  | unknownFilterType f => rw [h.1]; rfl

/-- A sample step as a whole step. -/
theorem State.Reconstructing.step {s : State} {t : FilterType} {prev image cur : List Byte}
    (h : s.Reconstructing t prev image cur) (hm : s.nextMove = some .recon) {x : Byte} {items : List Item}
    (hi : s.reconIn.items = .byte x :: items) :
    step s = .next { afterRecon s items s.recon.advance with
      pix := Memory.write s.pix (image.length + cur.length) (lineByte t prev cur x) } := by
  have h' : (reconSample s items).Reconstructing t prev image cur :=
    ⟨h.phase, h.filter, h.row, h.col, h.inside, h.above, h.previous, h.pix⟩
  rw [step_recon_sample hm h.phase hi, runEncoded_row x _ h.filter, h'.exec]
  rfl

/-- The bytes of the image after one more sample of a row. -/
theorem State.Reconstructing.read_write {s : State} {t : FilterType} {prev image cur : List Byte}
    (h : s.Reconstructing t prev image cur) (v : Byte) :
    ∀ a, a < (image ++ (cur ++ [v])).length →
      Memory.read (Memory.write s.pix (image.length + cur.length) v) a = (image ++ (cur ++ [v]))[a]? := by
  rw [← List.append_assoc, ← List.length_append]
  exact Memory.read_write_snoc h.pix v

/-- The image after the last sample of a row is its rows so far (R132). -/
theorem State.Reconstructing.rowEnd_length {s : State} {t : FilterType} {prev image cur : List Byte}
    (h : s.Reconstructing t prev image cur) (hc : cur.length + 1 = s.recon.stride) (v : Byte) :
    (image ++ (cur ++ [v])).length = (s.recon.row.toNat + 1) * s.recon.stride := by
  rw [List.length_append, List.length_append, List.length_singleton, hc, h.above, Nat.add_mul, Nat.one_mul]

/-- `ROW` counts on after a row inside the image. -/
theorem State.Reconstructing.rowEnd_row {s : State} {t : FilterType} {prev image cur : List Byte}
    (h : s.Reconstructing t prev image cur) : s.recon.rowEnd.row.toNat = s.recon.row.toNat + 1 := by
  have hrow := h.row
  have hheight := s.recon.height.isLt
  show (s.recon.row + 1#32).toNat = s.recon.row.toNat + 1
  rw [BitVec.toNat_add, BitVec.toNat_ofNat]
  omega

section
variable {s s' : State} {t : FilterType} {prev image cur : List Byte} (h : s.Reconstructing t prev image cur) {v : Byte}
  (hrecon : s'.recon = s.recon.advance) (hpix : s'.pix = Memory.write s.pix (image.length + cur.length) v)
include h hrecon hpix

/-- A sample that is not the row's last leaves RECON inside the row (R131). -/
theorem State.Reconstructing.advance_within (hc : cur.length + 1 < s.recon.stride) :
    s'.Reconstructing t prev image (cur ++ [v]) := by
  have hadv := Recon.advance_within (u := s.recon) (by rw [h.col]; exact hc)
  have hlen : (cur ++ [v]).length = cur.length + 1 := List.length_append
  have hcol : (s.recon.col + 1#34).toNat = cur.length + 1 := by
    have := Recon.stride_lt s.recon
    rw [BitVec.toNat_add, h.col, BitVec.toNat_ofNat]
    omega
  constructor
  case pix => rw [hpix]; exact h.read_write v
  all_goals rw [hrecon, hadv]
  · exact h.phase
  · exact h.filter
  · exact h.row
  · exact hcol.trans hlen.symm
  · exact hlen.symm ▸ hc
  · exact h.above
  · exact h.previous

/-- After the last sample of a row other than the last, RECON is at the next row, whose row above is the one reconstructed
(R132, R138). -/
theorem State.Reconstructing.rowEnd_atRow (hc : cur.length + 1 = s.recon.stride)
    (hr : s.recon.row.toNat + 1 ≠ s.recon.height.toNat) : s'.AtRow (cur ++ [v]) (image ++ (cur ++ [v])) := by
  have hend := Recon.advance_rowEnd (u := s.recon) (by rw [h.col]; omega)
  have hrow := h.rowEnd_row
  constructor
  case pix => rw [hpix]; exact h.read_write v
  all_goals rw [hrecon, hend]
  · exact if_neg hr
  · have := h.row
    exact hrow.trans_lt (by omega : s.recon.row.toNat + 1 < s.recon.height.toNat)
  · show 0 < s.recon.stride
    omega
  · rw [hrow]
    exact h.rowEnd_length hc v
  · rw [hrow, if_neg (Nat.succ_ne_zero _), Nat.add_sub_cancel]
    exact (List.drop_left' h.above).symm

/-- After the last sample of the last row, RECON is done, with the whole image in `PIX` (R132). -/
theorem State.Reconstructing.rowEnd_ended (hc : cur.length + 1 = s.recon.stride)
    (hr : s.recon.row.toNat + 1 = s.recon.height.toNat) {z : List Byte}
    (hi : s'.reconIn.items = byteItems z ++ [.eos]) : s'.EndedBy (.ok (image ++ (cur ++ [v])) z) := by
  have hend := Recon.advance_rowEnd (u := s.recon) (by rw [h.col]; omega)
  have hrow := h.rowEnd_row
  refine ⟨?_, ?_, ?_, ?_, by rw [hpix]; exact h.read_write v, hi⟩ <;> rw [hrecon, hend]
  · exact if_pos hr
  · exact BitVec.eq_of_toNat_eq (hrow.trans hr)
  · rfl
  · exact (h.rowEnd_length hc v).trans (congrArg (· * s.recon.stride) hr)

end

/-- After a sample of a run on course, the run is on course or has ended as it was to (R131, R132). -/
theorem State.Reconstructing.sample {s s' : State} {t : FilterType} {prev image cur z : List Byte}
    (h : s.Reconstructing t prev image cur) (v : Byte) (hrecon : s'.recon = s.recon.advance)
    (hpix : s'.pix = Memory.write s.pix (image.length + cur.length) v) (rows : Nat)
    (left : s.recon.row.toNat + rows + 1 = s.recon.height.toNat) (hi : s'.reconIn.items = byteItems z ++ [.eos]) :
    s'.OnCourse z (reconstructFrom t s.recon.stride rows prev image (cur ++ [v]) z) ∨
      s'.EndedBy (reconstructFrom t s.recon.stride rows prev image (cur ++ [v]) z) := by
  have hin := h.inside
  by_cases hc : cur.length + 1 < s.recon.stride
  · have hadv := hrecon.trans (Recon.advance_within (by rw [h.col]; exact hc))
    refine .inl (.inRow rows (h.advance_within hrecon hpix hc) ?_ ?_) <;> rw [hadv]
    · exact left
    · rfl
  · have hc : cur.length + 1 = s.recon.stride := by omega
    have hend := hrecon.trans (Recon.advance_rowEnd (by rw [h.col]; omega))
    rw [reconstructFrom_full rows prev image z (by rw [List.length_append]; exact hc)]
    cases rows with
    | zero => exact .inr (h.rowEnd_ended hrecon hpix hc left hi)
    | succ rows =>
      refine .inl (.atRow rows (h.rowEnd_atRow hrecon hpix hc (by omega)) ?_ ?_) <;> rw [hend]
      · rw [h.rowEnd_row, Nat.add_right_comm _ 1 rows]
        exact left
      · rfl

/-- A legal filter byte begins a row (R121). -/
theorem State.AtRow.begin {s s' : State} {prev image : List Byte} (h : s.AtRow prev image) {f : Byte} {t : FilterType}
    (hf : decodeFilter f = some t) (hrecon : s'.recon = { s.recon with f := f, col := 0#34, phase := .data })
    (hpix : s'.pix = s.pix) : s'.Reconstructing t prev image [] := by
  constructor
  case pix => rw [hpix, List.append_nil]; exact h.pix
  all_goals rw [hrecon]
  · exact hf
  · exact h.row
  · rfl
  · exact h.stride
  · exact h.above
  · exact h.previous

/-- On a byte, a run on course takes one step, and is on course on the bytes after it or has ended as it was to. -/
theorem State.OnCourse.step_byte {s : State} {x : Byte} {z : List Byte} {o : ReconOutcome} (h : s.OnCourse (x :: z) o)
    (hm : s.nextMove = some .recon) (hi : s.reconIn.items = byteItems (x :: z) ++ [.eos]) :
    ∃ t, step s = .next t ∧ t.reconIn.items = byteItems z ++ [.eos] ∧ (t.OnCourse z o ∨ t.EndedBy o) := by
  cases h with
  | @atRow prev image rows h left returns =>
    obtain ⟨legal, illegal⟩ := filterTypeByte s x _ hm hi h.phase
    cases hf : decodeFilter x with
    | none =>
      rw [returns, reconstructRows_none rows prev image z hf]
      exact ⟨_, illegal ((decodeFilter_eq_none_iff x).mp hf), rfl, .inr ⟨rfl, rfl, rfl⟩⟩
    | some t =>
      have hle : x.toNat ≤ 4 := (decodeFilter_isSome_iff x).mp (by rw [hf]; rfl)
      rw [returns, reconstructRows_some rows prev image z hf]
      exact ⟨_, legal hle, rfl, .inl (.inRow rows (h.begin hf rfl rfl) left rfl)⟩
  | @inRow t prev image cur rows h left returns =>
    have hin := h.inside
    refine ⟨_, h.step hm hi, rfl, ?_⟩
    rw [returns, reconstructFrom_cons rows prev image x z hin]
    exact h.sample _ rfl rfl rows left rfl

/-- `EOS` ends a run on course that has no more bytes, as it was to (R133). -/
theorem State.OnCourse.step_eos {s : State} {o : ReconOutcome} (h : s.OnCourse [] o) (hm : s.nextMove = some .recon)
    (hi : s.reconIn.items = [.eos]) : ∃ t, step s = .next t ∧ t.EndedBy o := by
  cases h with
  | atRow rows h left returns =>
    rw [returns, reconstructRows]
    exact ⟨_, reconEndOfStreamFaults s [] hm hi (.inl h.phase), rfl, rfl, rfl, rfl⟩
  | inRow rows h left returns =>
    rw [returns, reconstructFrom_nil rows _ _ h.inside]
    exact ⟨_, reconEndOfStreamFaults s [] hm hi (.inr h.phase), rfl, rfl, rfl, rfl⟩

/-- As many moves as there are items end a run on course as it was to, by induction on the bytes: each move leaves it on
course on the rest, or ended and waiting. -/
theorem State.OnCourse.run {z : List Byte} {moves : List Move} {s : State} {o : ReconOutcome} (h : s.OnCourse z o)
    (hi : s.reconIn.items = byteItems z ++ [.eos]) (ha : s.agenda = List.replicate (z.length + 1) .recon ++ moves) :
    ∃ t, Sys2Proof.core.run (z.length + 1) s = .next t ∧ t.agenda = moves ∧ t.recon.width = s.recon.width ∧
      t.recon.height = s.recon.height ∧ t.EndedBy o := by
  induction z generalizing s with
  | nil =>
    have hm := State.nextMove_cons ha
    obtain ⟨t, hs, hend⟩ := h.step_eos hm hi
    obtain ⟨-, -, -, -, hagenda, hw, hh, -⟩ := step_recon_frame hm hs
    rw [ha] at hagenda
    exact ⟨t, run_succ_next 0 hs, hagenda, hw, hh, hend⟩
  | cons x z ih =>
    have hm := State.nextMove_cons ha
    obtain ⟨t, hs, hi', hnext⟩ := h.step_byte hm hi
    obtain ⟨-, -, -, -, hagenda, hw, hh, -⟩ := step_recon_frame hm hs
    rw [ha] at hagenda
    rw [List.length_cons, run_succ_next _ hs, ← hw, ← hh]
    obtain hcourse | hend := hnext
    · exact ih hcourse hi' hagenda
    · exact ⟨_, run_recon_waiting _ hagenda hend.not_consuming, rfl, rfl, rfl, hend⟩

/-- START leaves RECON before the first row of an image that is not empty (42_host_commands.md R153). -/
theorem State.atRow_of_started {s : State}
    (h : s.recon = { Recon.reset with width := s.recon.width, height := s.recon.height, phase := .ftype })
    (hw : s.recon.width ≠ 0#32) (hh : s.recon.height ≠ 0#32) : s.AtRow [] [] := by
  have hw' : s.recon.width.toNat ≠ 0 := fun e => hw (BitVec.eq_of_toNat_eq e)
  have hh' : s.recon.height.toNat ≠ 0 := fun e => hh (BitVec.eq_of_toNat_eq e)
  have hrow : s.recon.row.toNat = 0 := by rw [h]; rfl
  refine ⟨by rw [h], by omega, Nat.mul_pos (by decide) (Nat.pos_of_ne_zero hw'), ?_, ?_, nofun⟩
  · rw [hrow, Nat.zero_mul]
    rfl
  · rw [if_pos hrow]

/-- Settles O32: from START the run is on course to what `Reconstruct` returns on the whole stream. -/
theorem reconRunIsReconstruct : Obligations.ReconRunIsReconstruct := by
  intro s stream moves hstart hw hh hi ha
  have hrow : s.recon.row.toNat = 0 := by rw [hstart]; rfl
  have hheight : s.recon.height.toNat - 1 + 1 = s.recon.height.toNat :=
    Nat.succ_pred fun e => hh (BitVec.eq_of_toNat_eq e)
  have hcourse : s.OnCourse stream (reconstructImage s.recon.width s.recon.height stream) :=
    .atRow (s.recon.height.toNat - 1) (State.atRow_of_started hstart hw hh) (by omega) (by rw [hheight]; rfl)
  obtain ⟨t, hrun, hagenda, htw, hth, hend⟩ := hcourse.run hi ha
  refine ⟨t, hrun, hagenda, htw, hth, ?_⟩
  rw [← htw, ← hth] at hend ⊢
  exact hend

end Sys2Proof.Machine
end

section
/-! SUPPORT. The host (42_host_commands.md): what each command answers, `PixRead`, the rule that ends a stream on a port, and
the image's dimensions during a run. -/

namespace Sys2Proof.Machine

open Sys2Proof.Statements

/-! ### The commands -/

/-- Settles O36: CRCV is in IDLE, or it is not. -/
theorem crcvStartCommand : Obligations.CrcvStartCommand := fun _ => ⟨fun h => if_pos h, fun h => if_neg h⟩

/-- Settles O37: the port is as a `CLEAR` leaves it, items and all. -/
theorem crcvClearCommand : Obligations.CrcvClearCommand := fun s => ⟨s.crcvIn.afterClear, s.crcvIn.afterClear_items, rfl⟩

/-- Settles O39: the port is as a `CLEAR` leaves it, items and all. -/
theorem reconClearCommand : Obligations.ReconClearCommand := fun s => ⟨s.reconIn.afterClear, s.reconIn.afterClear_items, rfl⟩

theorem execCfgWidth_idle {s : State} (v : Word) (h : s.recon.phase = .idle) :
    execCfgWidth v s = .next (s.setRecon { s.recon with width := v }) := if_pos h

theorem execCfgHeight_idle {s : State} (v : Word) (h : s.recon.phase = .idle) :
    execCfgHeight v s = .next (s.setRecon { s.recon with height := v }) := if_pos h

theorem execCfgWidth_not_idle {s : State} (v : Word) (h : s.recon.phase ≠ .idle) : execCfgWidth v s = .next s := if_neg h

theorem execCfgHeight_not_idle {s : State} (v : Word) (h : s.recon.phase ≠ .idle) : execCfgHeight v s = .next s := if_neg h

/-- Settles O40: RECON is in IDLE, or it is not. -/
theorem configurationCommands : Obligations.ConfigurationCommands := fun _ v =>
  ⟨fun h => ⟨execCfgWidth_idle v h, execCfgHeight_idle v h⟩,
    fun h => ⟨execCfgWidth_not_idle v h, execCfgHeight_not_idle v h⟩⟩

/-- An image fits when it is within the capacity, if there is one (42_host_commands.md R153). -/
theorem State.overCapacity_eq_false_iff (s : State) :
    s.overCapacity = false ↔ ∀ m, s.cfg.pixBytesMax = some m → s.recon.pixBytes ≤ m := by
  unfold State.overCapacity
  cases s.cfg.pixBytesMax <;> simp

/-- Settles O38, along the four branches of R153. -/
theorem reconStartCommand : Obligations.ReconStartCommand := by
  intro s fits
  have hfits : s.overCapacity = false ↔ fits := s.overCapacity_eq_false_iff
  have idle (hp : s.recon.phase = .idle) : ¬s.recon.phase ≠ .idle := fun h => h hp
  have nonempty (hw : s.recon.width ≠ 0#32) (hh : s.recon.height ≠ 0#32) :
      ¬(s.recon.width = 0#32 ∨ s.recon.height = 0#32) := not_or.mpr ⟨hw, hh⟩
  refine ⟨fun hp => if_pos hp, fun hp hw hh hf => ?_, fun hp hd => ?_, fun hp hw hh hf => ?_⟩
  · have h : s.overCapacity = false := hfits.mpr hf
    exact (if_neg (idle hp)).trans ((if_neg (nonempty hw hh)).trans (if_neg (by simp [h])))
  · exact (if_neg (idle hp)).trans (if_pos hd)
  · have h : s.overCapacity = true := by simpa using mt hfits.mp hf
    exact (if_neg (idle hp)).trans ((if_neg (nonempty hw hh)).trans (if_pos h))

/-! ### `PixRead` -/

/-- At DONE and in range the host gets the byte that `PIX` holds (42_host_commands.md R157). -/
theorem pixReadMove_of_read {s : State} {a : Nat} {b : Byte} (hp : s.recon.phase = .done) (ha : a < s.recon.pixBytes)
    (h : Memory.read s.pix a = some b) : pixReadMove a s = .next (s.observe (.pix a b)) := by
  simp [pixReadMove, hp, Nat.not_le.mpr ha, State.pixLoad_of_read ha h]

theorem pixReadMove_of_not_done {s : State} (a : Nat) (hp : s.recon.phase ≠ .done) :
    pixReadMove a s = .refused (.pixReadNotDone a) := if_pos hp

theorem pixReadMove_of_outOfRange {s : State} {a : Nat} (hp : s.recon.phase = .done) (ha : s.recon.pixBytes ≤ a) :
    pixReadMove a s = .refused (.pixReadOutOfRange a) := (if_neg fun h => h hp).trans (if_pos ha)

/-- Settles O45, case by case of R157. -/
theorem pixReadAtDoneOnly : Obligations.PixReadAtDoneOnly := by
  intro s a hm
  rw [step_pixRead hm]
  exact ⟨fun b hp ha h => pixReadMove_of_read (s := s.popMove) hp ha h,
    fun hp => pixReadMove_of_not_done (s := s.popMove) a hp,
    fun hp ha => pixReadMove_of_outOfRange (s := s.popMove) hp ha⟩

/-! ### The rule that ends a stream -/

/-- Settles O46: what a port takes is `Port.accepts_iff`. -/
theorem pushAppendsToThePort : Obligations.PushAppendsToThePort := by
  intro s u item accepts
  have haccepts : (s.port u).accepts = true ↔ accepts := (s.port u).accepts_iff
  refine ⟨fun hm ha => step_push_accepted hm (haccepts.mpr ha), fun hm ha => ?_, fun hm => ?_⟩
  · exact step_push_refused hm (by simpa using mt haccepts.mp ha)
  · rw [step_drain hm]
    cases u <;> rfl

theorem State.clearsNext_iff (s : State) (u : UnitId) : s.clearsNext u ↔ Clears u s.nextMove := by
  cases u <;> rfl

theorem State.clearsNext.not_push {s : State} {u w : UnitId} (h : s.clearsNext u) (item : Item) :
    s.nextMove ≠ some (.host (.push w item)) := by
  obtain ⟨v, hm, -⟩ | hm := h <;> simp [hm]

theorem Port.afterClear_accepting {p : Port} (h : p.gate = .accepting) : p.afterClear.gate = .accepting := if_pos h

/-- A port that takes an item is not shut. -/
theorem Port.not_shut_of_accepts {p : Port} (h : p.accepts = true) : p.gate ≠ .shut := by
  obtain h | ⟨h, -⟩ := p.accepts_iff.mp h <;> simp [h]

/-- The gate of a port after a move that does not push on it: cleared with its unit, or as it was (42_host_commands.md
R158). -/
theorem step_gate_of_not_push {s t : State} {u : UnitId} (h : step s = .next t)
    (hp : ∀ item, s.nextMove ≠ some (.host (.push u item))) :
    (s.clearsNext u ∧ (t.port u).gate = (s.port u).afterClear.gate) ∨
    (¬s.clearsNext u ∧ (t.port u).gate = (s.port u).gate) := by
  obtain ⟨hc, e⟩ | ⟨item, hm, -⟩ | ⟨hm, e⟩ | ⟨hc, -, -, hk⟩ := step_port h u
  · exact .inl ⟨hc, by rw [e]⟩
  · exact absurd hm (hp item)
  · exact .inr ⟨by simp [State.clearsNext, hm], by rw [e]⟩
  · exact .inr ⟨hc, hk.gate⟩

/-- An empty port stays empty until an item is pushed on it. -/
theorem step_empty_of_not_push {s t : State} {u : UnitId} (h : step s = .next t)
    (hp : ∀ item, s.nextMove ≠ some (.host (.push u item))) (hi : (s.port u).items = []) : (t.port u).items = [] := by
  obtain ⟨-, e⟩ | ⟨item, hm, -⟩ | ⟨-, e⟩ | ⟨-, -, -, hk⟩ := step_port h u
  · rw [e]; exact hi
  · exact absurd hm (hp item)
  · rw [e]
  · exact hk.empty hi

/-- A `CLEAR` or a reset of the unit leaves its gate not shut. -/
theorem step_gate_of_clears {s t : State} {u : UnitId} (h : step s = .next t) (hc : s.clearsNext u) :
    (t.port u).gate ≠ .shut := by
  obtain ⟨-, e⟩ | ⟨hn, -⟩ := step_gate_of_not_push h hc.not_push
  · rw [e]; exact Port.afterClear_gate _
  · exact absurd hc hn

/-- Nothing else unshuts it: a push on a shut port is refused, and any other move keeps its gate. -/
theorem step_keeps_shut {s t : State} {u : UnitId} (h : step s = .next t) (hc : ¬s.clearsNext u)
    (hs : (s.port u).gate = .shut) : (t.port u).gate = .shut := by
  have hp : ∀ item, s.nextMove ≠ some (.host (.push u item)) := fun item hm =>
    Port.not_shut_of_accepts (step_push_next hm h).1 hs
  obtain ⟨hc', -⟩ | ⟨-, e⟩ := step_gate_of_not_push h hp
  · exact absurd hc' hc
  · exact e.trans hs

/-- Settles O47, from what a step can do to a gate: a push sets it, a `CLEAR` or a reset clears it, and any other move keeps
it. -/
theorem pushBanEndsWithClearAndEmptyPort : Obligations.PushBanEndsWithClearAndEmptyPort := by
  intro s t u h
  rw [← State.clearsNext_iff]
  refine ⟨step_gate_of_clears h, fun hs ht => ?_, fun hm => ?_, fun hp => ⟨?_, ?_, step_empty_of_not_push h hp⟩,
    fun item hm => ?_⟩
  · by_contra hc
    exact ht (step_keeps_shut h hc hs)
  · rw [step_drain hm] at h
    cases h
    cases u <;> rfl
  · intro hs
    obtain ⟨-, e⟩ | ⟨-, e⟩ := step_gate_of_not_push h hp <;> rw [e]
    · exact Port.afterClear_gate _
    · exact hs
  · intro ha
    obtain ⟨-, e⟩ | ⟨-, e⟩ := step_gate_of_not_push h hp <;> rw [e]
    · exact Port.afterClear_accepting ha
    · exact ha
  · obtain ⟨-, rfl⟩ := step_push_next hm h
    cases u <;> rfl

/-! ### The dimensions during a run -/

/-- A register write outside IDLE keeps `WIDTH` and `HEIGHT` (42_host_commands.md R151 to R155). -/
theorem runEncoded_command_dimensions {s t : State} {index : Nat} {v : Word}
    (h : runEncoded (.command index v) s = .next t) (hp : s.recon.phase ≠ .idle) :
    t.recon.width = s.recon.width ∧ t.recon.height = s.recon.height := by
  obtain ⟨-, -, e⟩ | ⟨-, -, -, e⟩ | ⟨-, -, e⟩ | ⟨-, -, -, e⟩ | ⟨-, e⟩ | ⟨-, e⟩ | ⟨-, e⟩ :=
    runEncoded_command_cases index v s <;> rw [e] at h
  · -- `CRCV.CLEAR`
    cases h
    exact ⟨rfl, rfl⟩
  · -- `CRCV.START`
    obtain rfl | rfl := execCrcvStart_next h <;> exact ⟨rfl, rfl⟩
  · -- `RECON.CLEAR`
    cases h
    exact ⟨rfl, rfl⟩
  · -- `RECON.START`
    obtain rfl | ⟨-, -, -, rfl⟩ := execReconStart_next h <;> exact ⟨rfl, rfl⟩
  · -- `CFG.WIDTH`
    rw [execCfgWidth_not_idle v hp] at h
    cases h
    exact ⟨rfl, rfl⟩
  · -- `CFG.HEIGHT`
    rw [execCfgHeight_not_idle v hp] at h
    cases h
    exact ⟨rfl, rfl⟩
  · -- no command
    cases h
    exact ⟨rfl, rfl⟩

/-- A host primitive that is neither a register write nor a reset leaves RECON's registers. -/
theorem step_host_recon {s t : State} {op : HostOp} (hm : s.nextMove = some (.host op)) (h : step s = .next t)
    (hw : ∀ index v, op ≠ .write index v) (hr : op ≠ .reset) : t.recon = s.recon := by
  cases op with
  | write index v => exact absurd rfl (hw index v)
  | read index =>
    rw [step_read hm] at h
    cases h
    rfl
  | pixRead a =>
    rw [step_pixRead hm] at h
    obtain ⟨_, rfl⟩ := pixReadMove_next h
    rfl
  | push u item =>
    obtain ⟨-, rfl⟩ := step_push_next hm h
    cases u <;> rfl
  | drain u =>
    rw [step_drain hm] at h
    cases h
    cases u <;> rfl
  | reset => exact absurd rfl hr

/-- Settles O53, by the agent that moves: outside IDLE no register write reaches the dimensions, and neither unit does. -/
theorem configurationFixedOutsideIdle : Obligations.ConfigurationFixedOutsideIdle := by
  intro s t h hp hr
  cases hm : s.nextMove with
  | none =>
    rw [step_none hm] at h
    cases h
    exact ⟨rfl, rfl⟩
  | some m =>
    cases m with
    | crcv =>
      obtain ⟨-, hrecon, -⟩ := step_crcv_frame hm h
      exact ⟨by rw [hrecon], by rw [hrecon]⟩
    | recon =>
      obtain ⟨-, -, -, -, -, hwidth, hheight, -⟩ := step_recon_frame hm h
      exact ⟨hwidth, hheight⟩
    | host op =>
      cases op with
      | write index v =>
        rw [step_write hm] at h
        exact runEncoded_command_dimensions (s := s.popMove) h hp
      | reset => exact absurd hm hr
      | read | pixRead | push | drain =>
        have hrecon : t.recon = s.recon := step_host_recon hm h nofun nofun
        exact ⟨by rw [hrecon], by rw [hrecon]⟩

end Sys2Proof.Machine
end

section
/-! SUPPORT. Faults (60_exceptions.md): what entering one writes, and that a unit in DONE or FAULT is left by `CLEAR` or
reset alone. -/

namespace Sys2Proof.Machine

open Sys2Proof.Statements

/-! ### Entering a fault -/

/-- Settles O22, fault by fault: each entry is its record update, and the level outputs follow from the phase it sets. -/
theorem faultEntry : Obligations.FaultEntry := fun _ _ _ _ => ⟨rfl, rfl, rfl, rfl, rfl, rfl, rfl, rfl⟩

/-! ### A unit that has finished -/

theorem execCrcvStart_not_idle {s : State} (h : s.crcv.phase ≠ .idle) : execCrcvStart s = .next s := if_neg h

theorem execReconStart_not_idle {s : State} (h : s.recon.phase ≠ .idle) : execReconStart s = .next s := if_pos h

/-- A register write that goes on leaves a unit that is not in IDLE, unless it is that unit's `CLEAR`
(42_host_commands.md R151 to R155). -/
theorem runEncoded_command_not_idle {s t : State} {index : Nat} {v : Word}
    (h : runEncoded (.command index v) s = .next t) :
    (s.crcv.phase ≠ .idle → t.crcv = s.crcv ∨ (index = 0x00 ∧ v.getLsbD 1 = true)) ∧
    (s.recon.phase ≠ .idle → t.recon = s.recon ∨ (index = 0x10 ∧ v.getLsbD 1 = true)) := by
  obtain ⟨hi, hv, e⟩ | ⟨-, -, -, e⟩ | ⟨hi, hv, e⟩ | ⟨-, -, -, e⟩ | ⟨-, e⟩ | ⟨-, e⟩ | ⟨-, e⟩ :=
    runEncoded_command_cases index v s <;> rw [e] at h
  · -- `CRCV.CLEAR`
    cases h
    exact ⟨fun _ => .inr ⟨hi, hv⟩, fun _ => .inl rfl⟩
  · -- `CRCV.START`
    refine ⟨fun hp => ?_, fun _ => ?_⟩
    · rw [execCrcvStart_not_idle hp] at h
      cases h
      exact .inl rfl
    · obtain rfl | rfl := execCrcvStart_next h <;> exact .inl rfl
  · -- `RECON.CLEAR`
    cases h
    exact ⟨fun _ => .inl rfl, fun _ => .inr ⟨hi, hv⟩⟩
  · -- `RECON.START`
    refine ⟨fun _ => ?_, fun hp => ?_⟩
    · obtain rfl | ⟨-, -, -, rfl⟩ := execReconStart_next h <;> exact .inl rfl
    · rw [execReconStart_not_idle hp] at h
      cases h
      exact .inl rfl
  · -- `CFG.WIDTH`
    refine ⟨fun _ => ?_, fun hp => ?_⟩
    · obtain rfl | rfl := execCfgWidth_next h <;> exact .inl rfl
    · rw [execCfgWidth_not_idle v hp] at h
      cases h
      exact .inl rfl
  · -- `CFG.HEIGHT`
    refine ⟨fun _ => ?_, fun hp => ?_⟩
    · obtain rfl | rfl := execCfgHeight_next h <;> exact .inl rfl
    · rw [execCfgHeight_not_idle v hp] at h
      cases h
      exact .inl rfl
  · -- no command
    cases h
    exact ⟨fun _ => .inl rfl, fun _ => .inl rfl⟩

/-- A host primitive that is neither a register write nor a reset leaves CRCV's registers. -/
theorem step_host_crcv {s t : State} {op : HostOp} (hm : s.nextMove = some (.host op)) (h : step s = .next t)
    (hw : ∀ index v, op ≠ .write index v) (hr : op ≠ .reset) : t.crcv = s.crcv := by
  cases op with
  | write index v => exact absurd rfl (hw index v)
  | read index =>
    rw [step_read hm] at h
    cases h
    rfl
  | pixRead a =>
    rw [step_pixRead hm] at h
    obtain ⟨_, rfl⟩ := pixReadMove_next h
    rfl
  | push u item =>
    obtain ⟨-, rfl⟩ := step_push_next hm h
    cases u <;> rfl
  | drain u =>
    rw [step_drain hm] at h
    cases h
    cases u <;> rfl
  | reset => exact absurd rfl hr

/-- A host primitive that goes on leaves a unit that is not in IDLE, unless it clears or resets that unit. -/
theorem step_host_not_idle {s t : State} {op : HostOp} (hm : s.nextMove = some (.host op)) (h : step s = .next t) :
    (s.crcv.phase ≠ .idle → t.crcv = s.crcv ∨ ClearsCrcv (some (.host op))) ∧
    (s.recon.phase ≠ .idle → t.recon = s.recon ∨ ClearsRecon (some (.host op))) := by
  cases op with
  | write index v =>
    rw [step_write hm] at h
    obtain ⟨hcrcv, hrecon⟩ := runEncoded_command_not_idle h
    refine ⟨fun hp => (hcrcv hp).imp_right ?_, fun hp => (hrecon hp).imp_right ?_⟩ <;>
    · rintro ⟨rfl, hv⟩
      exact .inl ⟨v, rfl, hv⟩
  | reset => exact ⟨fun _ => .inr (.inr rfl), fun _ => .inr (.inr rfl)⟩
  | read | pixRead | push | drain =>
    exact ⟨fun _ => .inl (step_host_crcv hm h nofun nofun), fun _ => .inl (step_host_recon hm h nofun nofun)⟩

/-- A move of CRCV in DONE or FAULT finds no step, and leaves its registers (60_exceptions.md R179). -/
theorem step_crcv_finished {s t : State} (hm : s.nextMove = some .crcv) (h : step s = .next t)
    (hp : s.crcv.phase = .done ∨ s.crcv.phase = .fault) : t.crcv = s.crcv := by
  rw [(unitWithoutStepWaits s).1 hm (.inr (hp.imp_right .inl))] at h
  cases h
  rfl

/-- A move of RECON in DONE or FAULT finds no step, and leaves its registers (60_exceptions.md R179). -/
theorem step_recon_finished {s t : State} (hm : s.nextMove = some .recon) (h : step s = .next t)
    (hp : s.recon.phase = .done ∨ s.recon.phase = .fault) : t.recon = s.recon := by
  rw [(unitWithoutStepWaits s).2 hm (.inr (hp.imp_right .inl))] at h
  cases h
  rfl

/-- Settles O52, by the agent that moves: a finished unit waits, the other unit does not touch it, and of the host's
primitives only its `CLEAR` and reset do. -/
theorem finishedUnitHoldsUntilCleared : Obligations.FinishedUnitHoldsUntilCleared := by
  intro s t h
  cases hm : s.nextMove with
  | none =>
    rw [step_none hm] at h
    cases h
    exact ⟨fun _ => .inl rfl, fun _ => .inl rfl⟩
  | some m =>
    cases m with
    | crcv =>
      obtain ⟨-, hrecon, -⟩ := step_crcv_frame hm h
      exact ⟨fun hp => .inl (step_crcv_finished hm h hp), fun _ => .inl hrecon⟩
    | recon =>
      obtain ⟨-, hcrcv, -⟩ := step_recon_frame hm h
      exact ⟨fun _ => .inl hcrcv, fun hp => .inl (step_recon_finished hm h hp)⟩
    | host op =>
      obtain ⟨hcrcv, hrecon⟩ := step_host_not_idle hm h
      exact ⟨fun hp => hcrcv (by obtain e | e := hp <;> simp [e]), fun hp => hrecon (by obtain e | e := hp <;> simp [e])⟩

end Sys2Proof.Machine
end

section
/-! SUPPORT. Reset (70_reset_and_hazards.md R200, R201): what the register file reads once both units are as reset leaves
them. -/

namespace Sys2Proof.Machine

/-- Both units as reset leaves them read 0 at every index (10_state.md R23 to R26, R36). -/
theorem State.hostRead_of_reset {s : State} (hcrcv : s.crcv = Crcv.reset) (hrecon : s.recon = Recon.reset) (index : Nat) :
    s.hostRead index = 0#32 := by
  unfold State.hostRead
  rw [hcrcv, hrecon]
  split <;> rfl

/-- Settles O48: a reset always goes on, with both units as reset leaves them; a unit in IDLE is not busy, drives no
output and has no step, and the ports are as a `CLEAR` leaves them, items and all. -/
theorem resetClearsBothUnits : Obligations.ResetClearsBothUnits := by
  intro s h
  have hcrcv : s.popMove.resetUnits.crcv = Crcv.reset := s.popMove.resetUnits_crcv
  have hrecon : s.popMove.resetUnits.recon = Recon.reset := s.popMove.resetUnits_recon
  exact ⟨_, step_reset h, hcrcv, hrecon, rfl, rfl, rfl, rfl, rfl, State.hostRead_of_reset hcrcv hrecon,
    s.crcvIn.afterClear_items, s.reconIn.afterClear_items, rfl⟩

end Sys2Proof.Machine
end
